-- ==== Sys2Proof/Word.lean ====
section
/-! DEFINITION. The word of the unit (00_scope.md R6: every limb, DM word and register is 32 bits wide), the byte
of the host's byte view (20_memory.md R52), and the value of a multi-word operand (R12, R51). -/
namespace Sys2Proof

/-- R6: "the atomic unsigned 32-bit storage unit". -/
abbrev Word := BitVec 32

/-- R52: a byte of the host's view of a word. -/
abbrev Byte := BitVec 8

end Sys2Proof
end

