-- ==== Sys2Proof/Syntax.lean ====
section
/-! DEFINITION. The 32 commands of 30_encoding.md R73. A command has no operand fields (R71): its operands are the
argument registers latched at acceptance (10_state.md R33). -/
namespace Sys2Proof

/-- R73: one constructor per row of the opcode map, in its order. -/
inductive Instr where
  -- control
  | nop
  -- primitives
  | adcw | sbbw | mulw | msb | lsb | popc | fls
  -- add/sub
  | neg | add | sub | adds | subs
  -- multiply
  | mulf | muls
  -- logic
  | and | or | xor | not
  -- shift
  | shl | shr
  -- divide
  | div | mod | divmod
  -- compare
  | iszero | eq | ne | cmpu | cmps
  -- float
  | fpack | funpack | fextract
  deriving DecidableEq, Repr

/-- R245: the three commands with a word-count limit. -/
def Instr.isDivision : Instr → Bool
  | .div | .mod | .divmod => true
  | .nop | .adcw | .sbbw | .mulw | .msb | .lsb | .popc | .fls
  | .neg | .add | .sub | .adds | .subs | .mulf | .muls
  | .and | .or | .xor | .not | .shl | .shr
  | .iszero | .eq | .ne | .cmpu | .cmps | .fpack | .funpack | .fextract => false

end Sys2Proof
end

