-- ==== Sys2Proof/WellFormed.lean ====
section
/-! DEFINITION. What a well-formed command is. A term of `Instr` has no operand fields (30_encoding.md R71), so
every term is well-formed; the checks are on the command word a host writes (R72, R77). They are written from the
list of unassigned values at the end of R73, not from the decoder's table. -/
namespace Sys2Proof

/-- R71, R72: the RSV field, bits 31:8, is 0. -/
def CmdWord.rsvClear (w : Word) : Bool := w.extractLsb' 8 24 == 0

/-- R73, R77: the OP field is none of 0x08–0x0F, 0x1D–0x1F, 0x23–0x2F, 0x35–0x3F and 0x43–0xFF. -/
def CmdWord.opAssigned (w : Word) : Bool :=
  let op := (w.extractLsb' 0 8).toNat
  !(decide (0x08 ≤ op ∧ op ≤ 0x0F) || decide (0x1D ≤ op ∧ op ≤ 0x1F) || decide (0x23 ≤ op ∧ op ≤ 0x2F)
    || decide (0x35 ≤ op ∧ op ≤ 0x3F) || decide (0x43 ≤ op ∧ op ≤ 0xFF))

/-- R72: the words that name a command. -/
def CmdWord.wellFormed (w : Word) : Bool := CmdWord.rsvClear w && CmdWord.opAssigned w

/-- R71: a command has no field that could be ill-formed. -/
def Instr.WellFormed : Instr → Bool
  | .nop | .adcw | .sbbw | .mulw | .msb | .lsb | .popc | .fls
  | .neg | .add | .sub | .adds | .subs | .mulf | .muls
  | .and | .or | .xor | .not | .shl | .shr | .div | .mod | .divmod
  | .iszero | .eq | .ne | .cmpu | .cmps | .fpack | .funpack | .fextract => true

end Sys2Proof
end

