-- ==== Sys2Proof/Decode.lean ====
section
/-! DEFINITION. The decoder of 30_encoding.md R72, total on every 32-bit word, and the encoder, both from the opcode
map R73. A command word is one 32-bit CMD write (R70, R76): there is no byte stream and no length to decode. -/
namespace Sys2Proof

/-- R72: the two reasons a word is ILLEGAL. -/
inductive Illegal where
  /-- RSV bits 31:8 are not all 0. -/
  | reservedBitsSet
  /-- The OP value is not in R73. -/
  | unassignedOpcode
  deriving DecidableEq, Repr

/-- R71: the OP field, bits 7:0. -/
def opField (w : Word) : BitVec 8 := w.extractLsb' 0 8

/-- R71: the RSV field, bits 31:8. -/
def rsvField (w : Word) : BitVec 24 := w.extractLsb' 8 24

/-- R73, family control and primitives. -/
def opcodesPrimitive : List (BitVec 8 × Instr) :=
  [(0x00, .nop), (0x01, .adcw), (0x02, .sbbw), (0x03, .mulw), (0x04, .msb), (0x05, .lsb), (0x06, .popc), (0x07, .fls)]

/-- R73, families add/sub and multiply. -/
def opcodesArith : List (BitVec 8 × Instr) :=
  [(0x10, .neg), (0x11, .add), (0x12, .sub), (0x13, .adds), (0x14, .subs), (0x15, .mulf), (0x16, .muls)]

/-- R73, families logic and shift. -/
def opcodesLogic : List (BitVec 8 × Instr) :=
  [(0x17, .and), (0x18, .or), (0x19, .xor), (0x1A, .not), (0x1B, .shl), (0x1C, .shr)]

/-- R73, families divide, compare and float. -/
def opcodesRest : List (BitVec 8 × Instr) :=
  [(0x20, .div), (0x21, .mod), (0x22, .divmod),
   (0x30, .iszero), (0x31, .eq), (0x32, .ne), (0x33, .cmpu), (0x34, .cmps),
   (0x40, .fpack), (0x41, .funpack), (0x42, .fextract)]

/-- R72: OPCODES, the 32-entry table of R73. -/
def opcodes : List (BitVec 8 × Instr) := opcodesPrimitive ++ opcodesArith ++ opcodesLogic ++ opcodesRest

/-- R72: every 32-bit word either names a command or is ILLEGAL. -/
def decode (w : Word) : Except Illegal Instr :=
  if rsvField w = 0 then
    match opcodes.lookup (opField w) with
    | some i => .ok i
    | none => .error .unassignedOpcode
  else .error .reservedBitsSet

/-- R73: the OP value of a command. -/
def Instr.opcode : Instr → BitVec 8
  | .nop => 0x00 | .adcw => 0x01 | .sbbw => 0x02 | .mulw => 0x03 | .msb => 0x04 | .lsb => 0x05 | .popc => 0x06
  | .fls => 0x07
  | .neg => 0x10 | .add => 0x11 | .sub => 0x12 | .adds => 0x13 | .subs => 0x14 | .mulf => 0x15 | .muls => 0x16
  | .and => 0x17 | .or => 0x18 | .xor => 0x19 | .not => 0x1A | .shl => 0x1B | .shr => 0x1C
  | .div => 0x20 | .mod => 0x21 | .divmod => 0x22
  | .iszero => 0x30 | .eq => 0x31 | .ne => 0x32 | .cmpu => 0x33 | .cmps => 0x34
  | .fpack => 0x40 | .funpack => 0x41 | .fextract => 0x42

/-- R71, R78: the command word of a command, OP in bits 7:0 and 0 in bits 31:8. -/
def encode (i : Instr) : Word := (0 : BitVec 24) ++ i.opcode

/-- The host's reading of one opcode-table row: a command word of `nbits` bits, every bit above them 0. -/
def decodeTableWord (nbits w : Nat) : Option Instr :=
  match decode (BitVec.ofNat 32 (w % 2 ^ nbits)) with
  | .ok i => some i
  | .error _ => none

end Sys2Proof
end

