-- ==== Sys2Proof/Config.lean ====
section
/-! DEFINITION. What an implementation fixes (00_scope.md R7) and the free values (R13 `ANY`). -/
namespace Sys2Proof

/-- R7: the parameters of an implementation, each left OPEN by the spec. "The model takes these parameters as
arguments": they stand in `State.cfg`, so a statement about every state holds for every value of them. -/
structure Params where
  /-- `ADDR_W`, the width of a DM word address. -/
  addrW   : Nat
  /-- `DIV_NMAX`, the largest word count the divider accepts. -/
  divNmax : Nat
  /-- `REG_BASE`, where the host sees the 64-byte register block. -/
  regBase : Nat
  deriving DecidableEq, Repr

/-- R7: `MEM_WORDS = 2^ADDR_W`. -/
def Params.memWords (p : Params) : Nat := 2 ^ p.addrW

/-- R7: the legal values, `1 ≤ ADDR_W ≤ 24` and `1 ≤ DIV_NMAX ≤ MEM_WORDS`. -/
def Params.legal (p : Params) : Bool :=
  decide (1 ≤ p.addrW ∧ p.addrW ≤ 24 ∧ 1 ≤ p.divNmax ∧ p.divNmax ≤ p.memWords)

/-- The values R7 suggests (ADDR_W = 16, DIV_NMAX = 256). DESIGN CHOICE, log entry 5: the spec leaves all three
OPEN and suggests none for REG_BASE, taken as 0 here. -/
def Params.suggested : Params := { addrW := 16, divNmax := 256, regBase := 0 }

/-- R272, R35: what a DM byte holds at power-on, `ANY`. FREE VALUE, log entry 2: nothing in Lean can evaluate it. -/
opaque Config.powerOnByte : Nat → Byte

/-- R13: the free draw `ANY`: draw number, then DM word address. FREE VALUE, log entry 8: used where R174 and R273
leave the words of a window unspecified. -/
opaque Config.anyWord : Nat → Nat → Word

end Sys2Proof
end

