-- ==== Sys2Proof/Machine/State.lean ====
section
/-! DEFINITION. The state of 10_state.md R20: the data memory, the register block, the internal state; beside it the
parameters (R7), the platform's reset line (R270), the host as an agent (R78, R80, R280), and the model's own fault
mark (R251) and draw counter (R13). -/
namespace Sys2Proof.Machine

open Sys2Proof

/-- R21, R52: DM as the host's byte view lists it: byte `4a + k` holds bits `8k+7 : 8k` of word `a`. Only bytes that
something has written are listed, in rising address order; an unlisted byte holds no value of the model's choosing
(`Config.powerOnByte`, R272). Log entries 1 and 2. -/
abbrev Memory := List Host.Cell

/-- R26 to R28: the argument registers. The same eight are what the argument latch copies (R33). -/
structure Args where
  n     : Word
  addrA : Word
  addrB : Word
  addrD : Word
  addrR : Word
  opa   : Word
  opb   : Word
  opc   : Word
  deriving DecidableEq, Repr

/-- R35: every argument register is 0 after reset. -/
def Args.zero : Args := ⟨0, 0, 0, 0, 0, 0, 0, 0⟩

/-- R241: the error codes STATUS.ERR holds; "the codes 4 to 15 are never produced" (R24). -/
inductive ErrCode where
  | ok | div0 | illegal | nrange
  deriving DecidableEq, Repr

/-- R24: the fields of STATUS; its other bits read 0. -/
structure Status where
  busy    : Bool
  err     : ErrCode
  sDiv0   : Bool
  sIll    : Bool
  sOvr    : Bool
  sNrange : Bool
  deriving DecidableEq, Repr

/-- R35: STATUS reads 0x00000000 after reset. -/
def Status.clear : Status := ⟨false, .ok, false, false, false, false⟩

/-- R34: the divider's working storage: the dividend, n + 1 words, and the divisor, n words. -/
structure Scratch where
  dividend : List Word
  divisor  : List Word
  deriving DecidableEq, Repr

/-- R20, R34: scratch never holds a value between commands. -/
def Scratch.empty : Scratch := ⟨[], []⟩

/-- R22: the 16 slots of the register block. -/
inductive Reg where
  | id | status | cmd | n | addrA | addrB | addrD | addrR | opa | opb | opc | res0 | res1 | res2 | rsv38 | rsv3C
  deriving DecidableEq, Repr

/-- R53, R54: the width of a host access to the register block. -/
inductive AccessWidth where
  | w8 | w16 | w32
  deriving DecidableEq, Repr

/-- R78: a value on a host line: a literal, or a read name, "which stands for the value it was bound to". -/
inductive HostValue where
  | lit  (v : Word)
  | name (x : Nat)
  deriving DecidableEq, Repr

/-- R78: the tests of `if … goto`: `name == v`, `name != v` and `name[k] == v`. -/
inductive HostCond where
  | eq  (x : Nat) (v : HostValue)
  | ne  (x : Nat) (v : HostValue)
  | bit (x : Nat) (k : Nat) (v : Bool)
  deriving DecidableEq, Repr

/-- R80: the host operations, each one bus access (or host control flow). Names and labels are numbers. -/
inductive HostOp where
  /-- `W`: a register write of `v` at a bus address (REG_BASE + offset). -/
  | write   (width : AccessWidth) (addr : Nat) (v : HostValue)
  /-- `R`: a register read at a bus address, bound to a name. -/
  | read    (width : AccessWidth) (addr : Nat) (x : Nat)
  /-- `M`: a host write to DM word `a`. DESIGN CHOICE, log entry 15: only `v` may be a read name, and the address is a
  literal (R78 does not say whether it is such a value). -/
  | dmWrite (a : Nat) (v : HostValue)
  /-- `m`: a host read of DM word `a`, bound to a name; the address is a literal (log entry 15). -/
  | dmRead  (a : Nat) (x : Nat)
  /-- `P`: read STATUS until BUSY = 0. -/
  | wait
  /-- `L:` -/
  | label   (l : Nat)
  /-- `J L` -/
  | goto    (l : Nat)
  /-- `J L if …` -/
  | gotoIf  (c : HostCond) (l : Nat)
  deriving DecidableEq, Repr

/-- R80, R280: the host: its finite list of operations, its position in it (the only program counter of the system)
and the names its reads have bound, in rising order of name. -/
structure HostAgent where
  program : List HostOp
  pos     : Nat
  names   : List (Nat × Word)
  deriving DecidableEq, Repr

/-- R20: the whole state. -/
structure State where
  /-- R7: the parameters; no step changes them. -/
  cfg       : Params
  /-- R21: DM. -/
  mem       : Memory
  /-- R26 to R28: N, ADDR_A to ADDR_R, OPA to OPC. -/
  args      : Args
  /-- R29 -/
  res0      : Word
  /-- R29 -/
  res1      : Word
  /-- R29 -/
  res2      : Word
  /-- R24 -/
  status    : Status
  /-- R33: the argument latch; not readable. -/
  latch     : Args
  /-- R33, R240: the command word in progress while BUSY = 1; not readable. -/
  command   : Word
  /-- R34: the divider scratch; not readable. -/
  scratch   : Scratch
  /-- R13: the model's own counter of free draws (log entry 8). -/
  draws     : Nat
  /-- R281: the host has written CMD and no STATUS read has returned BUSY = 0 since (the model's own record of the
  host's duty, log entry 18). -/
  waitDue   : Bool
  /-- R251: the model's fault mark; no hardware register. -/
  faultMark : Bool
  /-- R270: the platform asserts reset (the model's own input line, log entry 7). -/
  resetLine : Bool
  /-- R280: the host. -/
  host      : HostAgent
  deriving DecidableEq, Repr

/-- Why a step stops with a fault. All are safe: the model stops where the hardware's behaviour is unspecified (R250,
R251), so no claim about the hardware can be proved of such a run. -/
inductive Fault where
  /-- CV1 (R55, R250): a window of an executing command does not lie inside DM; raised by the commands that name
  windows. Safe. -/
  | cv1WindowOutsideDM
  /-- CV2 (R56, R250): two windows of an executing command overlap in a way the table does not allow; raised by NEG,
  ADD, SUB, AND, OR, XOR, MULF, MULS and DIVMOD. Safe. -/
  | cv2WindowOverlap
  /-- CV3 (R281, R250): a host access other than a STATUS read (or, while BUSY = 1, the CMD write of R243) before a
  STATUS read has returned BUSY = 0 for the last CMD write; raised by the host's operations. Safe. -/
  | cv3AccessWhileBusy
  /-- CV4 (R54, R250): a register access that is not 32 bits wide at an offset that is a multiple of 4; raised by the
  host's operations. Safe. -/
  | cv4BadRegisterAccess
  /-- R67: the host names a DM word address that does not exist; raised by the host's DM operations. Safe
  (log entry 11). -/
  | hostAddressOutsideDM
  /-- R251: the fault mark is set, and "the faulted state has no further step"; raised by `step`. Safe. -/
  | faultMarked
  deriving DecidableEq, Repr

/-- Why a step is refused: no meaning. All are safe. -/
inductive Refusal where
  /-- An instruction not modelled yet, by name; raised by `exec` alone (no arm does). Safe. -/
  | notModelled (mnemonic : String)
  /-- R30, U9: a host access outside the register block, the platform's concern; raised by the host's operations.
  Safe. -/
  | outsideRegisterBlock
  /-- R78: a host line uses a name nothing has bound, which has no value; raised by the host's operations. Safe. -/
  | unboundName
  /-- R78: a `goto` names a label the program does not hold; raised by the host's operations. Safe. -/
  | unknownLabel
  deriving DecidableEq, Repr

/-- The outcome type of every step. -/
abbrev Out := Host.Outcome State Fault Refusal

/-- R35, R271, R272, R274: the machine right after reset: every register 0, nothing of DM written, no command in
progress, the fault mark clear. The parameters are the suggested ones (log entry 5); latch, command and scratch are
the model's choice (log entries 3 and 4); the host has no program (log entry 6). -/
def State.reset : State where
  cfg       := Params.suggested
  mem       := []
  args      := Args.zero
  res0      := 0
  res1      := 0
  res2      := 0
  status    := Status.clear
  latch     := Args.zero
  command   := 0
  scratch   := Scratch.empty
  draws     := 0
  waitDue   := false
  faultMark := false
  resetLine := false
  host      := { program := [], pos := 0, names := [] }

end Sys2Proof.Machine
end

