-- ==== Sys2Proof/Machine/Flags.lean ====
section
/-! DEFINITION. STATUS: its word (10_state.md R24), completion of a command (60_exceptions.md R242), overrun (R243)
and the host's write-1-to-clear (R24); and the encodings of truth and order results (45_compare.md R200). -/
namespace Sys2Proof.Machine

open Sys2Proof

/-- R241: the value of STATUS.ERR, bits 11:8. -/
def ErrCode.bits : ErrCode → BitVec 4
  | .ok => 0 | .div0 => 1 | .illegal => 2 | .nrange => 3

/-- R24: one bit of STATUS. -/
def flagBit (b : Bool) : BitVec 1 := if b then 1 else 0

/-- R24: STATUS as a host read returns it: bits 31:20, S_NRANGE, S_OVR, S_ILL, S_DIV0, bits 15:12, ERR, bits 7:1,
BUSY. -/
def Status.word (st : Status) : Word :=
  (0 : BitVec 12) ++ flagBit st.sNrange ++ flagBit st.sOvr ++ flagBit st.sIll ++ flagBit st.sDiv0
    ++ (0 : BitVec 4) ++ st.err.bits ++ (0 : BitVec 7) ++ flagBit st.busy

/-- R242: a command completes with code `e`: ERR, the sticky bit of the error, BUSY ← 0, and nothing else. -/
def Status.complete (st : Status) (e : ErrCode) : Status :=
  match e with
  | .ok => { st with err := .ok, busy := false }
  | .div0 => { st with err := .div0, sDiv0 := true, busy := false }
  | .illegal => { st with err := .illegal, sIll := true, busy := false }
  | .nrange => { st with err := .nrange, sNrange := true, busy := false }

/-- R24: a host write of `v` to STATUS clears the sticky bits whose bit of `v` is 1, and does nothing else. -/
def Status.writeOneToClear (st : Status) (v : Word) : Status :=
  { st with
    sDiv0   := st.sDiv0 && !v.getLsbD 16
    sIll    := st.sIll && !v.getLsbD 17
    sOvr    := st.sOvr && !v.getLsbD 18
    sNrange := st.sNrange && !v.getLsbD 19 }

/-- R243: a CMD write that arrives while BUSY = 1 sets S_OVR; ERR is unchanged. -/
def Status.overrun (st : Status) : Status := { st with sOvr := true }

/-- R200: "A truth result is written as 1 (true) or 0 (false)". -/
def truthWord (b : Bool) : Word := if b then 1 else 0

/-- R200: the order results: less, equal, greater. -/
def orderWord : Ordering → Word
  | .lt => 0xFFFFFFFF | .eq => 0 | .gt => 1

end Sys2Proof.Machine
end

