-- ==== Sys2Proof/Machine/Memory.lean ====
section
/-! DEFINITION. Data memory: sorted maps, bytes (20_memory.md R52), words (R51, R53), and the value of a list of words
(00_scope.md R12). -/
namespace Sys2Proof.Machine

open Sys2Proof

/-- The value at a key of a map kept as pairs in rising order of key. -/
def SortedMap.find? {α : Type} : List (Nat × α) → Nat → Option α
  | [], _ => none
  | (k, b) :: m, a => if k = a then some b else SortedMap.find? m a

/-- Sets a key of such a map, keeping the order. -/
def SortedMap.insert {α : Type} : List (Nat × α) → Nat → α → List (Nat × α)
  | [], a, b => [(a, b)]
  | (k, c) :: m, a, b =>
    if a < k then (a, b) :: (k, c) :: m
    else if a = k then (a, b) :: m
    else (k, c) :: SortedMap.insert m a b

/-- The canonical form: keys strictly rising. -/
def SortedMap.sorted {α : Type} : List (Nat × α) → Bool
  | [] => true
  | [_] => true
  | (k, _) :: (l, c) :: m => decide (k < l) && SortedMap.sorted ((l, c) :: m)

/-- The canonical form of memory. An unlisted byte has no value of the model's choosing, so no entry can equal it
(log entry 2). -/
def Memory.wf (m : Memory) : Bool := SortedMap.sorted m

/-- Every listed byte belongs to one of the first `words` words (R21: there are no others). -/
def Memory.inDM (words : Nat) (m : Memory) : Bool := m.all fun c => decide (c.1 < 4 * words)

/-- R52: byte `a` of the host's byte view; ANY where nothing has written it (R272). -/
def Memory.readByte (m : Memory) (a : Nat) : Byte := (SortedMap.find? m a).getD (Config.powerOnByte a)

/-- Writes one byte of the byte view. -/
def Memory.writeByte (m : Memory) (a : Nat) (b : Byte) : Memory := SortedMap.insert m a b

/-- R52: byte `k` of a word is its bits `8k+7 : 8k`. -/
def byteOf (w : Word) (k : Nat) : Byte := w.extractLsb' (8 * k) 8

/-- R12: `DM[a]`, the 32-bit word at word address `a`. -/
def Memory.readWord (m : Memory) (a : Nat) : Word :=
  m.readByte (4 * a + 3) ++ m.readByte (4 * a + 2) ++ m.readByte (4 * a + 1) ++ m.readByte (4 * a)

/-- R12: `DM[a] <- w`. -/
def Memory.writeWord (m : Memory) (a : Nat) (w : Word) : Memory :=
  (((m.writeByte (4 * a) (byteOf w 0)).writeByte (4 * a + 1) (byteOf w 1)).writeByte (4 * a + 2) (byteOf w 2)).writeByte
    (4 * a + 3) (byteOf w 3)

/-- R50: the words of a window, the word at the lowest address first (R51). -/
def Memory.readWords (m : Memory) (a : Nat) : Nat → List Word
  | 0 => []
  | n + 1 => m.readWord a :: m.readWords (a + 1) n

/-- Writes a list of words from word address `a` upward. -/
def Memory.writeWords (m : Memory) (a : Nat) : List Word → Memory
  | [] => m
  | w :: ws => (m.writeWord a w).writeWords (a + 1) ws

/-- R12: the value of a list of words, least-significant word first: the sum of `w_i * 2^(32*i)`. -/
def valueOf : List Word → Nat
  | [] => 0
  | w :: ws => w.toNat + 2 ^ 32 * valueOf ws

/-- R12: the `n` words `(v div 2^(32*i)) mod 2^32`, i = 0 to n−1. -/
def wordsOf : Nat → Nat → List Word
  | 0, _ => []
  | n + 1, v => BitVec.ofNat 32 v :: wordsOf n (v / 2 ^ 32)

end Sys2Proof.Machine
end

