-- ==== Sys2Proof/Machine/Operands.lean ====
section
/-! DEFINITION. Operand assembly: how the latched argument registers become operands (30_encoding.md R74, R75), the
windows each command names and writes (R74), and which overlaps of them are allowed (20_memory.md R55, R56). -/
namespace Sys2Proof.Machine

open Sys2Proof

/-- R75: `n = zext_32(x[N])`. -/
def Args.count (x : Args) : Nat := x.n.toNat

/-- R75: OPC as carry-in, borrow-in or sign: bit 0; bits 31:1 are ignored (D19). As a word, 0 or 1. -/
def Args.opcBit (x : Args) : Word := x.opc &&& 1

/-- R75: OPA as scalar: `zext_32(x[OPA])`. -/
def Args.scalar (x : Args) : Nat := x.opa.toNat

/-- R75, R154: OPA as shift amount, unsigned. -/
def Args.shiftAmount (x : Args) : Nat := x.opa.toNat

/-- R75: OPB as exponent: `sext_32(x[OPB])`. -/
def Args.exponent (x : Args) : Int := x.opb.toInt

/-- R12, R50: a window `W(base, len)` of DM. -/
structure Window where
  base : Nat
  len  : Nat
  deriving DecidableEq, Repr

/-- R55: `a + len ≤ MEM_WORDS` without wrap; "a window with `len = 0` always satisfies this". -/
def Window.inDM (p : Params) (w : Window) : Bool := w.len == 0 || decide (w.base + w.len ≤ p.memWords)

/-- R56: "Two windows of one command are *identical* when they have the same base address". -/
def Window.identical (a b : Window) : Bool := a.base == b.base

/-- R56: "They are *disjoint* when they share no address." -/
def Window.disjoint (a b : Window) : Bool :=
  a.len == 0 || b.len == 0 || decide (a.base + a.len ≤ b.base) || decide (b.base + b.len ≤ a.base)

/-- R12: the word addresses of a window. -/
def Window.addresses (w : Window) : List Nat := List.range' w.base w.len

/-- R12: the word address lies in the window. -/
def Window.mem (w : Window) (a : Nat) : Bool := decide (w.base ≤ a ∧ a < w.base + w.len)

/-- R74: operand window A, n words. -/
def Args.winA (x : Args) : Window := ⟨x.addrA.toNat, x.count⟩

/-- R74: operand window B, n words. -/
def Args.winB (x : Args) : Window := ⟨x.addrB.toNat, x.count⟩

/-- R74: destination window D, n words. -/
def Args.winD (x : Args) : Window := ⟨x.addrD.toNat, x.count⟩

/-- R140: MULF's destination window D, 2n words. -/
def Args.winD2 (x : Args) : Window := ⟨x.addrD.toNat, 2 * x.count⟩

/-- R141: MULS's destination window D, n + 1 words. -/
def Args.winD1 (x : Args) : Window := ⟨x.addrD.toNat, x.count + 1⟩

/-- R74: remainder window R, n words. -/
def Args.winR (x : Args) : Window := ⟨x.addrR.toNat, x.count⟩

/-- R56, R74: every window a command names. -/
def windowsOf (i : Instr) (x : Args) : List Window :=
  match i with
  | .nop | .adcw | .sbbw | .mulw | .msb | .lsb | .popc | .fls => []
  | .neg => [x.winA, x.winD]
  | .add => [x.winA, x.winB]
  | .sub => [x.winA, x.winB]
  | .adds => [x.winA]
  | .subs => [x.winA]
  | .mulf => [x.winA, x.winB, x.winD2]
  | .muls => [x.winA, x.winD1]
  | .and => [x.winA, x.winB]
  | .or => [x.winA, x.winB]
  | .xor => [x.winA, x.winB]
  | .not => [x.winA]
  | .shl => [x.winA]
  | .shr => [x.winA]
  | .div => [x.winA, x.winB, x.winD]
  | .mod => [x.winA, x.winB, x.winR]
  | .divmod => [x.winA, x.winB, x.winD, x.winR]
  | .iszero => [x.winA]
  | .eq => [x.winA, x.winB]
  | .ne => [x.winA, x.winB]
  | .cmpu => [x.winA, x.winB]
  | .cmps => [x.winA, x.winB]
  | .fpack | .funpack => []
  | .fextract => [x.winA]

/-- R74, last column: the windows a command writes. -/
def writtenBy (i : Instr) (x : Args) : List Window :=
  match i with
  | .nop | .adcw | .sbbw | .mulw | .msb | .lsb | .popc | .fls => []
  | .neg => [x.winD]
  | .add => [x.winA]
  | .sub => [x.winA]
  | .adds => [x.winA]
  | .subs => [x.winA]
  | .mulf => [x.winD2]
  | .muls => [x.winD1]
  | .and => [x.winA]
  | .or => [x.winA]
  | .xor => [x.winA]
  | .not => [x.winA]
  | .shl => [x.winA]
  | .shr => [x.winA]
  | .div => [x.winD]
  | .mod => [x.winR]
  | .divmod => [x.winD, x.winR]
  | .iszero | .eq | .ne | .cmpu | .cmps => []
  | .fpack | .funpack | .fextract => []

/-- R56, the table: the overlaps a command allows. -/
def overlapAllowed (i : Instr) (x : Args) : Bool :=
  match i with
  | .nop | .adcw | .sbbw | .mulw | .msb | .lsb | .popc | .fls => true
  | .neg => x.winD.identical x.winA || x.winD.disjoint x.winA
  | .add => x.winB.identical x.winA || x.winB.disjoint x.winA
  | .sub => x.winB.identical x.winA || x.winB.disjoint x.winA
  | .adds => true
  | .subs => true
  | .mulf => x.winD2.disjoint x.winA && x.winD2.disjoint x.winB
  | .muls => x.winD1.identical x.winA || x.winD1.disjoint x.winA
  | .and => x.winB.identical x.winA || x.winB.disjoint x.winA
  | .or => x.winB.identical x.winA || x.winB.disjoint x.winA
  | .xor => x.winB.identical x.winA || x.winB.disjoint x.winA
  | .not => true
  | .shl => true
  | .shr => true
  | .div => true
  | .mod => true
  | .divmod => x.winD.disjoint x.winR
  | .iszero | .eq | .ne | .cmpu | .cmps => true
  | .fpack | .funpack | .fextract => true

end Sys2Proof.Machine
end

