-- ==== Sys2Proof/Machine/Ops.lean ====
section
/-! DEFINITION. The named operations over registers and memory: acceptance and completion of a command (10_state.md
R33, 60_exceptions.md R240, R242), windows (00_scope.md R12), the contract check (R240 step 5), the free draws (R13), the divider's
scratch (R34) and the registers as the host sees them (R22). The unit takes no trap (R249): an error is a completion
with a code. -/
namespace Sys2Proof.Machine

open Sys2Proof

/-! ### Issue and completion -/

/-- R240 step 2, R33: latch the arguments, keep the command word, set BUSY; the host now owes a wait (R281). -/
def State.accept (s : State) (w : Word) : State :=
  { s with latch := s.args, command := w, status := { s.status with busy := true }, waitDue := true }

/-- R242: the command completes with code `e`. -/
def State.complete (s : State) (e : ErrCode) : State := { s with status := s.status.complete e }

/-- R243: a CMD write while BUSY = 1 is dropped and recorded; after it, as after each CMD write, the host owes a wait
(R281). -/
def State.overrun (s : State) : State := { s with status := s.status.overrun, waitDue := true }

/-- R281: the record of the host's duty, after a STATUS read that returned BUSY = `b`. -/
def State.setWaitDue (s : State) (b : Bool) : State := { s with waitDue := b }

/-- R281: until a STATUS read returns BUSY = 0 for the last CMD write, the host's only access is a STATUS read. -/
def State.mustWait (s : State) : Bool := s.status.busy || s.waitDue

/-- R240 steps 6 and 7: the command's effect, then complete(OK). -/
def State.finish (s : State) : Out := .next (s.complete .ok)

/-! ### Result registers (R29) -/

/-- `x[RES0] <- v` -/
def State.setRes0 (s : State) (v : Word) : State := { s with res0 := v }

/-- `x[RES1] <- v` -/
def State.setRes1 (s : State) (v : Word) : State := { s with res1 := v }

/-- `x[RES2] <- v` -/
def State.setRes2 (s : State) (v : Word) : State := { s with res2 := v }

/-! ### Windows -/

/-- R50: the words of a window, lowest address first. -/
def State.words (s : State) (w : Window) : List Word := s.mem.readWords w.base w.len

/-- R12: `MemRead(a, n)`. -/
def State.value (s : State) (w : Window) : Nat := valueOf (s.words w)

/-- Writes words from the window's base upward. -/
def State.storeWords (s : State) (w : Window) (ws : List Word) : State :=
  { s with mem := s.mem.writeWords w.base ws }

/-- R12: `MemWrite(a, n, v)`. -/
def State.store (s : State) (w : Window) (v : Nat) : State := s.storeWords w (wordsOf w.len v)

/-- R240 step 5, R55, R56: a command whose windows break the contract faults the model; otherwise its effect `t`. -/
def State.checked (s : State) (i : Instr) (t : Out) : Out :=
  if (windowsOf i s.latch).all (Window.inDM s.cfg) then
    if overlapAllowed i s.latch then t else .fault .cv2WindowOverlap
  else .fault .cv1WindowOutsideDM

/-- R240 step 4, R245: a division of more than DIV_NMAX words completes with NRANGE. -/
def State.sized (s : State) (t : Out) : Out :=
  if s.cfg.divNmax < s.latch.count then .next (s.complete .nrange) else t

/-! ### Free draws -/

/-- R174: `for every address k in W: DM[k] <- ANY`. -/
def Memory.draw (m : Memory) (d : Nat) (w : Window) : Memory :=
  m.writeWords w.base (w.addresses.map (Config.anyWord d))

/-- R174, R273: every word of every window of the list becomes ANY, by a fresh draw. -/
def State.scramble (s : State) (ws : List Window) : State :=
  { s with mem := ws.foldl (fun m w => m.draw s.draws w) s.mem, draws := s.draws + 1 }

/-! ### The divider's scratch (R34, R170) -/

/-- R34: "A division command reads its A and B windows into it before it writes any DM word": n + 1 words for the
dividend (R179: the top one takes what normalization shifts out, 0 before it) and n words for the divisor. -/
def State.loadScratch (s : State) : State :=
  { s with scratch := { dividend := s.words s.latch.winA ++ [0], divisor := s.words s.latch.winB } }

/-- R34: "its contents are dead once the command completes". -/
def State.releaseScratch (s : State) : State := { s with scratch := Scratch.empty }

/-- R170: the dividend's value in scratch. -/
def Scratch.dividendValue (c : Scratch) : Nat := valueOf c.dividend

/-- R170: the divisor's value in scratch. -/
def Scratch.divisorValue (c : Scratch) : Nat := valueOf c.divisor

/-! ### The register block (R22) -/

/-- R22: the register at a byte offset of the block; none where the offset is not a multiple of 4. -/
def Reg.ofOffset : Nat → Option Reg
  | 0x00 => some .id | 0x04 => some .status | 0x08 => some .cmd | 0x0C => some .n
  | 0x10 => some .addrA | 0x14 => some .addrB | 0x18 => some .addrD | 0x1C => some .addrR
  | 0x20 => some .opa | 0x24 => some .opb | 0x28 => some .opc
  | 0x2C => some .res0 | 0x30 => some .res1 | 0x34 => some .res2
  | 0x38 => some .rsv38 | 0x3C => some .rsv3C
  | _ => none

/-- R22: the byte offset of a register. -/
def Reg.offset : Reg → Nat
  | .id => 0x00 | .status => 0x04 | .cmd => 0x08 | .n => 0x0C
  | .addrA => 0x10 | .addrB => 0x14 | .addrD => 0x18 | .addrR => 0x1C
  | .opa => 0x20 | .opb => 0x24 | .opc => 0x28
  | .res0 => 0x2C | .res1 => 0x30 | .res2 => 0x34 | .rsv38 => 0x38 | .rsv3C => 0x3C

/-- R23: "It always reads 0x4D574155". -/
def idConstant : Word := 0x4D574155

/-- R22 to R30: what a host read of a register returns. -/
def State.regValue (s : State) : Reg → Word
  | .id => idConstant
  | .status => s.status.word
  | .cmd => 0
  | .n => s.args.n
  | .addrA => s.args.addrA
  | .addrB => s.args.addrB
  | .addrD => s.args.addrD
  | .addrR => s.args.addrR
  | .opa => s.args.opa
  | .opb => s.args.opb
  | .opc => s.args.opc
  | .res0 => s.res0
  | .res1 => s.res1
  | .res2 => s.res2
  | .rsv38 => 0
  | .rsv3C => 0

/-- R22 to R30: a host write to a register other than CMD: the argument registers take the value, STATUS clears sticky
bits, and ID, RES0 to RES2 and the reserved slots ignore it. (A CMD write issues a command: R25.) -/
def State.setReg (s : State) (r : Reg) (v : Word) : State :=
  match r with
  | .id => s
  | .status => { s with status := s.status.writeOneToClear v }
  | .cmd => s
  | .n => { s with args := { s.args with n := v } }
  | .addrA => { s with args := { s.args with addrA := v } }
  | .addrB => { s with args := { s.args with addrB := v } }
  | .addrD => { s with args := { s.args with addrD := v } }
  | .addrR => { s with args := { s.args with addrR := v } }
  | .opa => { s with args := { s.args with opa := v } }
  | .opb => { s with args := { s.args with opb := v } }
  | .opc => { s with args := { s.args with opc := v } }
  | .res0 => s
  | .res1 => s
  | .res2 => s
  | .rsv38 => s
  | .rsv3C => s

/-! ### Reset (R270 to R273) -/

/-- R271: reset sets every register to its value of R35, clears the fault mark, ends the duty of R281 (the next CMD
write is accepted) and releases the line; it writes no DM word and touches neither the parameters nor the host. -/
def State.resetRegisters (s : State) : State :=
  { s with
    args := Args.zero, res0 := 0, res1 := 0, res2 := 0, status := Status.clear,
    latch := Args.zero, command := 0, scratch := Scratch.empty, waitDue := false,
    faultMark := false, resetLine := false }

/-- R270 to R273: the platform's reset. While BUSY = 1 it abandons the command in progress: every word of every window
that command writes becomes ANY, and words it only reads keep their values. A command that would complete with ILLEGAL
or NRANGE writes no window; one that breaks the contract faults, as it would have (R250). -/
def State.unitReset (s : State) : Out :=
  if s.status.busy then
    match decode s.command with
    | .error _ => .next s.resetRegisters
    | .ok i =>
      if i.isDivision && decide (s.cfg.divNmax < s.latch.count) then .next s.resetRegisters
      else s.checked i (.next (s.scramble (writtenBy i s.latch)).resetRegisters)
  else .next s.resetRegisters

end Sys2Proof.Machine
end

