-- ==== Sys2Proof/Machine/AddSub.lean ====
section
/-! DEFINITION. 41_add_sub.md: negation, addition and subtraction modulo `2^(32n)`. The final carry or borrow is
recorded nowhere (10_state.md R32). -/
namespace Sys2Proof.Machine

open Sys2Proof

/-- R10, R124: `(a - b) mod 2^(32n)`, the non-negative remainder of an exact integer difference. -/
def subMod (n a b : Nat) : Nat := (((a : Int) - (b : Int)) % ((2 ^ (32 * n) : Nat) : Int)).toNat

/-- R122: NEG, `D <- (2^(32n) - a) mod 2^(32n)`. -/
def execNeg (s : State) : Out :=
  s.checked .neg
    (s.store s.latch.winD ((2 ^ (32 * s.latch.count) - s.value s.latch.winA) % 2 ^ (32 * s.latch.count))).finish

/-- R123: ADD, `A <- (a + b) mod 2^(32n)`. -/
def execAdd (s : State) : Out :=
  s.checked .add
    (s.store s.latch.winA ((s.value s.latch.winA + s.value s.latch.winB) % 2 ^ (32 * s.latch.count))).finish

/-- R124: SUB, `A <- (a - b) mod 2^(32n)`. -/
def execSub (s : State) : Out :=
  s.checked .sub
    (s.store s.latch.winA (subMod s.latch.count (s.value s.latch.winA) (s.value s.latch.winB))).finish

/-- R125: ADDS, `A <- (a + s) mod 2^(32n)`. -/
def execAdds (s : State) : Out :=
  s.checked .adds
    (s.store s.latch.winA ((s.value s.latch.winA + s.latch.scalar) % 2 ^ (32 * s.latch.count))).finish

/-- R126: SUBS, `A <- (a - s) mod 2^(32n)`. -/
def execSubs (s : State) : Out :=
  s.checked .subs
    (s.store s.latch.winA (subMod s.latch.count (s.value s.latch.winA) s.latch.scalar)).finish

end Sys2Proof.Machine
end

