-- ==== Sys2Proof/Machine/Compare.lean ====
section
/-! DEFINITION. 45_compare.md: the comparisons write only RES0 and STATUS.ERR. -/
namespace Sys2Proof.Machine

open Sys2Proof

/-- R204: the first unequal pair decides; the lists are given from the most-significant word down. -/
def compareDown : List Word → List Word → Ordering
  | x :: xs, y :: ys => if x < y then .lt else if y < x then .gt else compareDown xs ys
  | _, _ => .eq

/-- R204: `cmpu(A, B, n)`, "from the most-significant word down". -/
def cmpu (a b : List Word) : Word := orderWord (compareDown a.reverse b.reverse)

/-- R205: the sign of a window, the high bit of its top word; none for n = 0. -/
def topSign (a : List Word) : Option Bool := a.getLast?.map fun w => w.getLsbD 31

/-- R205: `compareSigned`: signs that differ decide; else the unsigned compare, inverted when both are negative (C1:
for two negative operands this is not the two's-complement order). -/
def cmps (a b : List Word) : Word :=
  match topSign a, topSign b with
  | some sa, some sb =>
    if sa != sb then orderWord (if sa then .lt else .gt)
    else if sa then -(cmpu a b)
    else cmpu a b
  | _, _ => 0

/-- R201: ISZERO. -/
def execIszero (s : State) : Out :=
  s.checked .iszero (s.setRes0 (truthWord (s.value s.latch.winA == 0))).finish

/-- R202: EQ. -/
def execEq (s : State) : Out :=
  s.checked .eq (s.setRes0 (truthWord (s.words s.latch.winA == s.words s.latch.winB))).finish

/-- R203: NE. -/
def execNe (s : State) : Out :=
  s.checked .ne (s.setRes0 (truthWord (!(s.words s.latch.winA == s.words s.latch.winB)))).finish

/-- R204: CMPU. -/
def execCmpu (s : State) : Out :=
  s.checked .cmpu (s.setRes0 (cmpu (s.words s.latch.winA) (s.words s.latch.winB))).finish

/-- R205: CMPS. -/
def execCmps (s : State) : Out :=
  s.checked .cmps (s.setRes0 (cmps (s.words s.latch.winA) (s.words s.latch.winB))).finish

end Sys2Proof.Machine
end

