-- ==== Sys2Proof/Machine/Divide.lean ====
section
/-! DEFINITION. 44_divide.md: the architectural results of the division commands (R171 to R174; R175: they are what
is normative). Order of the checks: NRANGE, contract, DIV0 (R246). -/
namespace Sys2Proof.Machine

open Sys2Proof

/-- R174, R242: every word of every window the command names becomes ANY, and the command completes with DIV0. RES0 to
RES2 are unchanged. -/
def State.divideByZero (s : State) (i : Instr) : Out :=
  .next (((s.scramble (windowsOf i s.latch)).releaseScratch).complete .div0)

/-- R170, R245, R246: what every division shares. `k` writes the result windows from the values of dividend and
divisor, both read into scratch before any DM word is written. -/
def State.divide (s : State) (i : Instr) (k : State → Nat → Nat → State) : Out :=
  s.sized
    (s.checked i
      (let l := s.loadScratch
       if l.scratch.divisorValue = 0 then l.divideByZero i
       else ((k l l.scratch.dividendValue l.scratch.divisorValue).releaseScratch).finish))

/-- R171: DIV, `D <- a div v`. -/
def execDiv (s : State) : Out := s.divide .div fun l a v => l.store l.latch.winD (a / v)

/-- R172: MOD, `R <- a mod v`. -/
def execMod (s : State) : Out := s.divide .mod fun l a v => l.store l.latch.winR (a % v)

/-- R173: DIVMOD, `D <- a div v` and `R <- a mod v`. -/
def execDivmod (s : State) : Out :=
  s.divide .divmod fun l a v => (l.store l.latch.winD (a / v)).store l.latch.winR (a % v)

end Sys2Proof.Machine
end

