-- ==== Sys2Proof/Machine/Primitives.lean ====
section
/-! DEFINITION. 40_primitives.md: NOP, the single-word carry primitives and the bit-scans. They touch no DM word. -/
namespace Sys2Proof.Machine

open Sys2Proof

/-! ### The functions the multi-word datapaths share -/

/-- R101: `carrySum(w, a, c) = (t mod 2^32, t div 2^32)`, `t = w + a + c`. -/
def carrySum (w a c : Word) : Word × Word :=
  let t := w.toNat + a.toNat + c.toNat
  (BitVec.ofNat 32 t, BitVec.ofNat 32 (t / 2 ^ 32))

/-- R102: `borrowSub(w, b, c) = (t mod 2^32, 1 if t < 0 else 0)`, `t = w - b - c`. -/
def borrowSub (w b c : Word) : Word × Word :=
  let t : Int := (w.toNat : Int) - b.toNat - c.toNat
  (BitVec.ofInt 32 t, truthWord (decide (t < 0)))

/-- R103: `carryMul(w, m, c) = (t mod 2^32, t div 2^32)`, `t = w * m + c`. -/
def carryMul (w m c : Word) : Word × Word :=
  let t := w.toNat * m.toNat + c.toNat
  (BitVec.ofNat 32 t, BitVec.ofNat 32 (t / 2 ^ 32))

/-- R104 to R106: the indices of the bits of `v` that are 1, in rising order. -/
def setBits (v : Word) : List Nat := (List.range 32).filter fun i => v.getLsbD i

/-- R104: the greatest index of a bit that is 1; 0xFFFFFFFF for v = 0. -/
def msb (v : Word) : Word :=
  match (setBits v).getLast? with
  | some i => BitVec.ofNat 32 i
  | none => 0xFFFFFFFF

/-- R105: the least index of a bit that is 1; 0xFFFFFFFF for v = 0. -/
def lsb (v : Word) : Word :=
  match (setBits v).head? with
  | some i => BitVec.ofNat 32 i
  | none => 0xFFFFFFFF

/-- R106: the number of bits that are 1. -/
def popc (v : Word) : Word := BitVec.ofNat 32 (setBits v).length

/-- R107: `msb(v) + 1`; 0 for v = 0. -/
def fls (v : Word) : Word := if v = 0 then 0 else msb v + 1

/-! ### The commands -/

/-- R100: NOP changes nothing but ERR. -/
def execNop (s : State) : Out := s.finish

/-- R101: ADCW. -/
def execAdcw (s : State) : Out :=
  let r := carrySum s.latch.opa s.latch.opb s.latch.opcBit
  ((s.setRes0 r.1).setRes1 r.2).finish

/-- R102: SBBW. -/
def execSbbw (s : State) : Out :=
  let r := borrowSub s.latch.opa s.latch.opb s.latch.opcBit
  ((s.setRes0 r.1).setRes1 r.2).finish

/-- R103: MULW; OPC is a carry word of 32 bits. -/
def execMulw (s : State) : Out :=
  let r := carryMul s.latch.opa s.latch.opb s.latch.opc
  ((s.setRes0 r.1).setRes1 r.2).finish

/-- R104: MSB. -/
def execMsb (s : State) : Out := (s.setRes0 (msb s.latch.opa)).finish

/-- R105: LSB. -/
def execLsb (s : State) : Out := (s.setRes0 (lsb s.latch.opa)).finish

/-- R106: POPC. -/
def execPopc (s : State) : Out := (s.setRes0 (popc s.latch.opa)).finish

/-- R107: FLS. -/
def execFls (s : State) : Out := (s.setRes0 (fls s.latch.opa)).finish

end Sys2Proof.Machine
end

