-- ==== Sys2Proof/Machine/Float.lean ====
section
/-! DEFINITION. 46_float.md: the binary32 packer and unpacker. Every step that drops bits truncates; there are no IEEE
flags. -/
namespace Sys2Proof.Machine

open Sys2Proof

/-- R215: the sign in bit 31. -/
def signBit (sg : Bool) : Word := if sg then 0x80000000 else 0

/-- R216: the normalized mantissa and exponent: `2^23 <= m' < 2^24` for `m ≠ 0`; low bits are dropped. -/
def fnormalize (m : Nat) (k : Nat) (e : Int) : Nat × Int :=
  if 24 < k then (m >>> (k - 24), e + ((k - 24 : Nat) : Int)) else (m <<< (24 - k), e - ((24 - k : Nat) : Int))

/-- R216: FPACK's result for mantissa `m`, exponent `e` and sign `sg`. -/
def fpack (m : Word) (e : Int) (sg : Bool) : Word :=
  if m = 0 then signBit sg
  else
    let me := fnormalize m.toNat (fls m).toNat e
    let biased := me.2 + 150
    if 255 ≤ biased then signBit sg ||| 0x7F800000
    else if 1 ≤ biased then
      signBit sg ||| (BitVec.ofInt 32 biased <<< 23) ||| (BitVec.ofNat 32 me.1 &&& 0x007FFFFF)
    else signBit sg ||| BitVec.ofNat 32 (me.1 >>> (1 - biased).toNat)

/-- R215: the biased exponent E, bits 30:23. -/
def fexpField (f : Word) : Nat := (f.extractLsb' 23 8).toNat

/-- R215: the fraction F, bits 22:0, as a word. -/
def ffracField (f : Word) : Word := f &&& 0x007FFFFF

/-- R217: `(sig, ex, cls)` of a pattern: 0 zero, 1 subnormal, 2 normal, 3 infinity, 4 NaN. -/
def funpackParts (f : Word) : Word × Int × Word :=
  let E := fexpField f
  let F := ffracField f
  if E = 0 then
    if F = 0 then (0, 0, 0)
    else
      let k := 23 - (msb F).toNat
      (F <<< k, -149 - (k : Int), 1)
  else if E < 255 then (F ||| 0x00800000, (E : Int) - 150, 2)
  else if F = 0 then (0, 0, 3)
  else (F, 0, 4)

/-- R217: RES2, `(cls << 1) | sg`. -/
def funpackClass (f : Word) : Word := ((funpackParts f).2.2 <<< 1) ||| truthWord (f.getLsbD 31)

/-- R218: `(mant, exponent)` of a magnitude, its top 32 significant bits. -/
def fextract (v : Nat) : Word × Int :=
  if v = 0 then (0, 0)
  else
    let p := Nat.log2 v
    (BitVec.ofNat 32 (if 31 ≤ p then v >>> (p - 31) else v <<< (31 - p)), (p : Int) - 31)

/-- R216: FPACK. -/
def execFpack (s : State) : Out :=
  (s.setRes0 (fpack s.latch.opa s.latch.exponent (s.latch.opc.getLsbD 0))).finish

/-- R217: FUNPACK. -/
def execFunpack (s : State) : Out :=
  let p := funpackParts s.latch.opa
  (((s.setRes0 p.1).setRes1 (BitVec.ofInt 32 p.2.1)).setRes2 (funpackClass s.latch.opa)).finish

/-- R218: FEXTRACT. -/
def execFextract (s : State) : Out :=
  s.checked .fextract
    (let p := fextract (s.value s.latch.winA)
     ((s.setRes0 p.1).setRes1 (BitVec.ofInt 32 p.2)).finish)

end Sys2Proof.Machine
end

