-- ==== Sys2Proof/Machine/LogicShift.lean ====
section
/-! DEFINITION. 43_logic_shift.md: word-wise logic and the cross-word logical shifts, in place in window A. -/
namespace Sys2Proof.Machine

open Sys2Proof

/-- R150: AND. -/
def execAnd (s : State) : Out :=
  s.checked .and
    (s.storeWords s.latch.winA (List.zipWith (fun x y => x &&& y) (s.words s.latch.winA) (s.words s.latch.winB))).finish

/-- R151: OR. -/
def execOr (s : State) : Out :=
  s.checked .or
    (s.storeWords s.latch.winA (List.zipWith (fun x y => x ||| y) (s.words s.latch.winA) (s.words s.latch.winB))).finish

/-- R152: XOR. -/
def execXor (s : State) : Out :=
  s.checked .xor
    (s.storeWords s.latch.winA (List.zipWith (fun x y => x ^^^ y) (s.words s.latch.winA) (s.words s.latch.winB))).finish

/-- R153: NOT; ADDR_B is not read (C6). -/
def execNot (s : State) : Out :=
  s.checked .not
    (s.storeWords s.latch.winA ((s.words s.latch.winA).map fun x => ~~~x)).finish

/-- R155: `(a << s) mod 2^(32n)`, which is 0 for s ≥ 32n. -/
def shiftLeftValue (n a s : Nat) : Nat := if 32 * n ≤ s then 0 else a * 2 ^ s % 2 ^ (32 * n)

/-- R156: `a >> s`, that is `a div 2^s`, which is 0 for s ≥ 32n since `a < 2^(32n)`. -/
def shiftRightValue (n a s : Nat) : Nat := if 32 * n ≤ s then 0 else a / 2 ^ s

/-- R155: SHL. -/
def execShl (s : State) : Out :=
  s.checked .shl
    (s.store s.latch.winA (shiftLeftValue s.latch.count (s.value s.latch.winA) s.latch.shiftAmount)).finish

/-- R156: SHR; zeros enter at the top. -/
def execShr (s : State) : Out :=
  s.checked .shr
    (s.store s.latch.winA (shiftRightValue s.latch.count (s.value s.latch.winA) s.latch.shiftAmount)).finish

end Sys2Proof.Machine
end

