-- ==== Sys2Proof/Machine/Multiply.lean ====
section
/-! DEFINITION. 42_multiply.md: the multiplies add into their destination window. -/
namespace Sys2Proof.Machine

open Sys2Proof

/-- R140: MULF, `D(2n) <- (d + a*b) mod 2^(64n)`. -/
def execMulf (s : State) : Out :=
  s.checked .mulf
    (s.store s.latch.winD2
      ((s.value s.latch.winD2 + s.value s.latch.winA * s.value s.latch.winB) % 2 ^ (64 * s.latch.count))).finish

/-- R141: MULS, `D(n+1) <- (d + a*s) mod 2^(32(n+1))`. -/
def execMuls (s : State) : Out :=
  s.checked .muls
    (s.store s.latch.winD1
      ((s.value s.latch.winD1 + s.value s.latch.winA * s.latch.scalar) % 2 ^ (32 * (s.latch.count + 1)))).finish

end Sys2Proof.Machine
end

