-- ==== Sys2Proof/Machine/Dispatch.lean ====
section
/-! DEFINITION. One arm per command: the meaning of each row of 30_encoding.md R73. -/
namespace Sys2Proof.Machine

open Sys2Proof

def exec (i : Instr) (s : State) : Host.Outcome State Fault Refusal :=
  match i with
  | .nop => Sys2Proof.Machine.execNop s
  | .adcw => Sys2Proof.Machine.execAdcw s
  | .sbbw => Sys2Proof.Machine.execSbbw s
  | .mulw => Sys2Proof.Machine.execMulw s
  | .msb => Sys2Proof.Machine.execMsb s
  | .lsb => Sys2Proof.Machine.execLsb s
  | .popc => Sys2Proof.Machine.execPopc s
  | .fls => Sys2Proof.Machine.execFls s
  | .neg => Sys2Proof.Machine.execNeg s
  | .add => Sys2Proof.Machine.execAdd s
  | .sub => Sys2Proof.Machine.execSub s
  | .adds => Sys2Proof.Machine.execAdds s
  | .subs => Sys2Proof.Machine.execSubs s
  | .mulf => Sys2Proof.Machine.execMulf s
  | .muls => Sys2Proof.Machine.execMuls s
  | .and => Sys2Proof.Machine.execAnd s
  | .or => Sys2Proof.Machine.execOr s
  | .xor => Sys2Proof.Machine.execXor s
  | .not => Sys2Proof.Machine.execNot s
  | .shl => Sys2Proof.Machine.execShl s
  | .shr => Sys2Proof.Machine.execShr s
  | .div => Sys2Proof.Machine.execDiv s
  | .mod => Sys2Proof.Machine.execMod s
  | .divmod => Sys2Proof.Machine.execDivmod s
  | .iszero => Sys2Proof.Machine.execIszero s
  | .eq => Sys2Proof.Machine.execEq s
  | .ne => Sys2Proof.Machine.execNe s
  | .cmpu => Sys2Proof.Machine.execCmpu s
  | .cmps => Sys2Proof.Machine.execCmps s
  | .fpack => Sys2Proof.Machine.execFpack s
  | .funpack => Sys2Proof.Machine.execFunpack s
  | .fextract => Sys2Proof.Machine.execFextract s

end Sys2Proof.Machine
end

