-- ==== Sys2Proof/Machine/Bus.lean ====
section
/-! DEFINITION. The host's operations (30_encoding.md R70, R80; 70_reset_and_hazards.md R280, R281, R287): register
accesses at bus addresses, DM accesses, `wait` and control flow; the issue of a command (60_exceptions.md R240); and
the one step of the whole system. -/
namespace Sys2Proof.Machine

open Sys2Proof

/-- Applies a change of state to the outcome of a step that goes on. -/
def onNext (o : Out) (f : State → State) : Out :=
  match o with
  | .next s => .next (f s)
  | .fault r => .fault r
  | .refused r => .refused r

/-! ### The unit's part of a CMD write -/

/-- R240 steps 3 to 7: the command in progress is decoded and runs on the latched values; an ILLEGAL word completes
with ERR = 2 and changes nothing else (R244). -/
def State.runCommand (s : State) : Out :=
  match decode s.command with
  | .ok i => exec i s
  | .error _ => .next (s.complete .illegal)

/-- R240: a host write of `w` to CMD: dropped while BUSY = 1 (step 1, R243), else accepted (step 2) and run to
completion, in one atomic step (R57). One the host makes before it has seen BUSY = 0 for its last CMD write breaks the
duty of R281 (CV3; log entry 18). -/
def State.writeCmd (s : State) (w : Word) : Out :=
  if s.status.busy then .next s.overrun
  else if s.waitDue then .fault .cv3AccessWhileBusy
  else (s.accept w).runCommand

/-- R281: what a STATUS read does beside returning STATUS. BUSY = 0 ends the host's duty. With BUSY = 1 (which no run of
the atomic model reaches) the duty stays, and the accepted command completes behind the read, so that a host that polls
comes to read BUSY = 0 (R281's fairness; log entry 9). -/
def State.polled (s : State) : Out :=
  if s.status.busy then (s.setWaitDue true).runCommand else .next (s.setWaitDue false)

/-! ### Register accesses -/

/-- R7, R22, R30: the byte offset in the 64-byte block of a bus address; none outside it. -/
def busOffset (p : Params) (addr : Nat) : Option Nat :=
  if p.regBase ≤ addr ∧ addr < p.regBase + 64 then some (addr - p.regBase) else none

/-- R22, R80: the bus address of a register, REG_BASE + offset. -/
def busAddress (p : Params) (r : Reg) : Nat := p.regBase + r.offset

/-- R22, R243, R281: a 32-bit host write to a register. A host that must wait writes none; the CMD write decides for
itself. -/
def State.writeReg (s : State) (r : Reg) (v : Word) : Out :=
  if r = .cmd then s.writeCmd v
  else if s.mustWait then .fault .cv3AccessWhileBusy
  else .next (s.setReg r v)

/-- R54, R30: a host write on the bus. -/
def State.busWrite (s : State) (width : AccessWidth) (addr : Nat) (v : Word) : Out :=
  match busOffset s.cfg addr with
  | none => .refused .outsideRegisterBlock
  | some off =>
    match width, Reg.ofOffset off with
    | .w32, some r => s.writeReg r v
    | _, _ => .fault .cv4BadRegisterAccess

/-! ### The host's names and position (R78, R80) -/

/-- R78: the value of a host value; none for a name nothing has bound. -/
def State.evalValue (s : State) : HostValue → Option Word
  | .lit v => some v
  | .name x => SortedMap.find? s.host.names x

/-- R78: the truth of a test; none where it uses a name nothing has bound. -/
def State.evalCond (s : State) : HostCond → Option Bool
  | .eq x v =>
    match SortedMap.find? s.host.names x, s.evalValue v with
    | some a, some b => some (a == b)
    | _, _ => none
  | .ne x v =>
    match SortedMap.find? s.host.names x, s.evalValue v with
    | some a, some b => some (!(a == b))
    | _, _ => none
  | .bit x k v =>
    match SortedMap.find? s.host.names x with
    | some a => some (a.getLsbD k == v)
    | none => none

/-- R80: the host's position "advances by one per operation". -/
def State.advance (s : State) : State := { s with host := { s.host with pos := s.host.pos + 1 } }

/-- R78: a read binds its value to a name. -/
def State.bind (s : State) (x : Nat) (v : Word) : State :=
  { s with host := { s.host with names := SortedMap.insert s.host.names x v } }

/-- R78: where a label stands in a program. -/
def findLabel (l : Nat) : List HostOp → Nat → Option Nat
  | [], _ => none
  | op :: ops, k => if op = .label l then some k else findLabel l ops (k + 1)

/-- R80: the host's own `goto`. -/
def State.jump (s : State) (l : Nat) : Out :=
  match findLabel l s.host.program 0 with
  | some k => .next { s with host := { s.host with pos := k } }
  | none => .refused .unknownLabel

/-! ### One host operation each -/

/-- R80: `wr REG, v`. -/
def State.opWrite (s : State) (width : AccessWidth) (addr : Nat) (v : HostValue) : Out :=
  match s.evalValue v with
  | some w => onNext (s.busWrite width addr w) State.advance
  | none => .refused .unboundName

/-- R80: `rd REG -> name`. A read changes no register (R60). A STATUS read polls; any other is for a host that need not
wait (R281). -/
def State.opRead (s : State) (width : AccessWidth) (addr : Nat) (x : Nat) : Out :=
  match busOffset s.cfg addr with
  | none => .refused .outsideRegisterBlock
  | some off =>
    match width, Reg.ofOffset off with
    | .w32, some r =>
      if r = .status then onNext s.polled fun t => (t.bind x s.status.word).advance
      else if s.mustWait then .fault .cv3AccessWhileBusy
      else .next (s.bind x (s.regValue r)).advance
    | _, _ => .fault .cv4BadRegisterAccess

/-- R80: `dmw a, v`. -/
def State.opDmWrite (s : State) (a : Nat) (v : HostValue) : Out :=
  match s.evalValue v with
  | none => .refused .unboundName
  | some w =>
    if s.mustWait then .fault .cv3AccessWhileBusy
    else if a < s.cfg.memWords then .next { s with mem := s.mem.writeWord a w }.advance
    else .fault .hostAddressOutsideDM

/-- R80: `dmr a -> name`. -/
def State.opDmRead (s : State) (a : Nat) (x : Nat) : Out :=
  if s.mustWait then .fault .cv3AccessWhileBusy
  else if a < s.cfg.memWords then .next (s.bind x (s.mem.readWord a)).advance
  else .fault .hostAddressOutsideDM

/-- R78, R281: `wait`, STATUS reads until one returns BUSY = 0. One poll is enough for the command to complete, and
the read after it returns BUSY = 0, which ends the duty. -/
def State.opWait (s : State) : Out := onNext s.polled fun t => (t.setWaitDue false).advance

/-- R78: `if … goto L`. -/
def State.opGotoIf (s : State) (c : HostCond) (l : Nat) : Out :=
  match s.evalCond c with
  | some true => s.jump l
  | some false => .next s.advance
  | none => .refused .unboundName

/-- R80: the host performs one operation. -/
def State.hostOp (s : State) (op : HostOp) : Out :=
  match op with
  | .write width addr v => s.opWrite width addr v
  | .read width addr x => s.opRead width addr x
  | .dmWrite a v => s.opDmWrite a v
  | .dmRead a x => s.opDmRead a x
  | .wait => s.opWait
  | .label _ => .next s.advance
  | .goto l => s.jump l
  | .gotoIf c l => s.opGotoIf c l

/-- The one step of the system. A marked state has no further step (R251). A reset the platform asserts comes first
(R270). Else the host performs its next operation (R280). A host with none left acts no more, and the unit alone does
nothing (R257) but complete a command in progress (R281). -/
def State.stepSystem (s : State) : Out :=
  if s.faultMark then .fault .faultMarked
  else if s.resetLine then s.unitReset
  else
    match s.host.program[s.host.pos]? with
    | some op => s.hostOp op
    | none => if s.status.busy then s.runCommand else .next s

/-- Puts `op` where the next step performs it: at the host's position, before the rest of its program, with the fault
mark clear, the reset line released, BUSY = 0 and no wait owed. -/
def State.placeOp (s : State) (op : HostOp) : State :=
  { s with
    faultMark := false
    resetLine := false
    status := { s.status with busy := false }
    waitDue := false
    host :=
      { s.host with
        program := s.host.program.take s.host.pos ++ op :: s.host.program.drop s.host.pos
        pos := min s.host.pos s.host.program.length } }

/-- R70: the host operation that issues command word `w`: a 32-bit write to CMD. -/
def cmdWriteOp (p : Params) (w : Word) : HostOp := .write .w32 (busAddress p .cmd) (.lit w)

end Sys2Proof.Machine
end

