-- ==== Sys2Proof/Machine/Step.lean ====
section
/-! DEFINITION. The step of the system (one host operation, and with a CMD write the whole command), and the placing
of one command word where the next step issues it. -/
namespace Sys2Proof.Machine

open Sys2Proof

/-- One step: R280, R57. -/
def step (s : State) : Host.Outcome State Fault Refusal := s.stepSystem

/-- `s` with a host write of the command word `w` (of `nbits` bits, the bits above them 0) to CMD as the host's next
operation (R70; log entry 6): `step` issues and runs exactly it. -/
def State.withFetchWord (s : State) (nbits w : Nat) : State :=
  s.placeOp (cmdWriteOp s.cfg (BitVec.ofNat 32 (w % 2 ^ nbits)))

end Sys2Proof.Machine
end

