-- ==== Sys2Proof/Machine/Datapath.lean ====
section
/-! DEFINITION. The reference datapaths the spec writes out beside the architectural results: carry and borrow chains
(41_add_sub.md R120, R121), NEG (R122), the early stops of ADDS and SUBS (R125, R126), MULS (42_multiply.md R141), the schoolbook
multiply (R142), the word-serial shifts (43_logic_shift.md R155, R156) and long division (44_divide.md R176 to R186).
They are not observable (20_memory.md R57, R142, R175): the meanings in the family files are the architectural results,
and statements say that the two agree. Lists of words are least-significant word first. -/
namespace Sys2Proof.Machine

open Sys2Proof

/-! ### Carry and borrow chains -/

/-- R120: `addChain(X, Y, c0, n)`, the words S and the carry out of the top word. -/
def addChain : List Word → List Word → Word → List Word × Word
  | x :: xs, y :: ys, c =>
    let r := carrySum x y c
    let t := addChain xs ys r.2
    (r.1 :: t.1, t.2)
  | _, _, c => ([], c)

/-- R121: `subChain(X, Y, b0, n)`, the words S and the borrow out of the top word. -/
def subChain : List Word → List Word → Word → List Word × Word
  | x :: xs, y :: ys, b =>
    let r := borrowSub x y b
    let t := subChain xs ys r.2
    (r.1 :: t.1, t.2)
  | _, _, b => ([], b)

/-- R122: the loop `(D_i, c) <- carrySum(~A_i, 0, c)`; NEG starts it with c = 1. -/
def negChain : List Word → Word → List Word
  | x :: xs, c =>
    let r := carrySum (~~~x) 0 c
    r.1 :: negChain xs r.2
  | [], _ => []

/-- R125: the ripple of ADDS above word 0: it stops as soon as the carry is 0, and words above the stop are not
touched (D36). -/
def carryRipple : List Word → Word → List Word
  | x :: xs, c =>
    if c = 0 then x :: xs
    else
      let r := carrySum x 0 c
      r.1 :: carryRipple xs r.2
  | [], _ => []

/-- R125: the ADDS datapath with early stop. -/
def addsDatapath (a : List Word) (s : Word) : List Word :=
  match a with
  | [] => []
  | x :: xs =>
    let r := carrySum x s 0
    r.1 :: carryRipple xs r.2

/-- R126: the ripple of SUBS above word 0. -/
def borrowRipple : List Word → Word → List Word
  | x :: xs, b =>
    if b = 0 then x :: xs
    else
      let r := borrowSub x 0 b
      r.1 :: borrowRipple xs r.2
  | [], _ => []

/-- R126: the SUBS datapath with early stop. -/
def subsDatapath (a : List Word) (s : Word) : List Word :=
  match a with
  | [] => []
  | x :: xs =>
    let r := borrowSub x s 0
    r.1 :: borrowRipple xs r.2

/-! ### Multiply -/

/-- R141: the MULS loop over A and D from carry `c`, and the final carry word. -/
def mulsChain : List Word → Word → List Word → Nat → List Word
  | x :: xs, s, d :: ds, c =>
    let t := d.toNat + x.toNat * s.toNat + c
    BitVec.ofNat 32 t :: mulsChain xs s ds (t / 2 ^ 32)
  | [], _, d :: ds, c => BitVec.ofNat 32 (d.toNat + c) :: ds
  | _, _, [], _ => []

/-- R142: "ripple the row carry upward", while the carry is not 0 and a word of D is left. -/
def rowRipple : List Word → Nat → List Word
  | d :: ds, c =>
    if c = 0 then d :: ds
    else
      let t := d.toNat + c
      BitVec.ofNat 32 t :: rowRipple ds (t / 2 ^ 32)
  | [], _ => []

/-- R142: one row of the schoolbook loop, A times one word of B, added into D from the row's own word upward. -/
def schoolbookRow : List Word → Word → List Word → Nat → List Word
  | x :: xs, y, d :: ds, c =>
    let t := d.toNat + x.toNat * y.toNat + c
    BitVec.ofNat 32 t :: schoolbookRow xs y ds (t / 2 ^ 32)
  | [], _, ds, c => rowRipple ds c
  | _ :: _, _, [], _ => []

/-- R142: all rows, from word 0 of B upward; row i leaves the words of D below i alone. -/
def schoolbook (a : List Word) : List Word → List Word → List Word
  | [], d => d
  | y :: ys, d =>
    match schoolbookRow a y d 0 with
    | [] => []
    | e :: es => e :: schoolbook a ys es

/-! ### Shifts -/

/-- R155: the value the SHL loop writes to word `i`, with `w = s div 32` and `b = s mod 32`. -/
def shlWord (a : List Word) (w b i : Nat) : Word :=
  let hi := if w ≤ i then a.getD (i - w) 0 <<< b else 0
  let lo := if b ≠ 0 ∧ w + 1 ≤ i then a.getD (i - w - 1) 0 >>> (32 - b) else 0
  hi ||| lo

/-- R155: the loop "for i = n-1 downto 0", in place; `k` words are left to do. -/
def shlLoop (w b : Nat) : Nat → List Word → List Word
  | 0, a => a
  | k + 1, a => shlLoop w b k (a.set k (shlWord a w b k))

/-- R154, R155: the SHL datapath. -/
def shlDatapath (a : List Word) (s : Nat) : List Word := shlLoop (s / 32) (s % 32) a.length a

/-- R156: the value the SHR loop writes to word `i`. -/
def shrWord (a : List Word) (w b i : Nat) : Word :=
  let lo := if i + w < a.length then a.getD (i + w) 0 >>> b else 0
  let hi := if b ≠ 0 ∧ i + w + 1 < a.length then a.getD (i + w + 1) 0 <<< (32 - b) else 0
  hi ||| lo

/-- R156: the loop "for i = 0 to n-1", in place; `k` words are left to do, the next is word `i`. -/
def shrLoop (w b : Nat) : Nat → Nat → List Word → List Word
  | 0, _, a => a
  | k + 1, i, a => shrLoop w b k (i + 1) (a.set i (shrWord a w b i))

/-- R154, R156: the SHR datapath. -/
def shrDatapath (a : List Word) (s : Nat) : List Word := shrLoop (s / 32) (s % 32) a.length 0 a

/-! ### Long division -/

/-- R176: "drop leading zero words": the effective length among the first `t` words. -/
def trimFrom (v : List Word) : Nat → Nat
  | 0 => 0
  | t + 1 => if v.getD t 0 = 0 then trimFrom v t else t + 1

/-- R176: the divisor's effective length. -/
def trim (v : List Word) : Nat := trimFrom v v.length

/-- R177, R178: division by one word, from the most- to the least-significant word of the dividend, with a running
remainder. -/
def divideSingle (d : Word) : List Word → List Word × Nat
  | [] => ([], 0)
  | x :: xs =>
    let t := divideSingle d xs
    let num := t.2 * 2 ^ 32 + x.toNat
    (BitVec.ofNat 32 (num / d.toNat) :: t.1, num % d.toNat)

/-- R179: the normalization shift, `31 - msb(B_{t-1})`. -/
def normShift (v : List Word) (t : Nat) : Nat := 31 - (msb (v.getD (t - 1) 0)).toNat

/-- R181: the correction test, at most `k` decrements, with the exit when rhat reaches the base. `v1` and `v2` are the
divisor's top and second word, `u2` the dividend word below the window's top two. -/
def correctTrial (v1 v2 u2 : Nat) : Nat → Nat → Nat → Nat
  | 0, qhat, _ => qhat
  | k + 1, qhat, rhat =>
    if 2 ^ 32 ≤ qhat ∨ rhat * 2 ^ 32 + u2 < qhat * v2 then
      if 2 ^ 32 ≤ rhat + v1 then qhat - 1 else correctTrial v1 v2 u2 k (qhat - 1) (rhat + v1)
    else qhat

/-- R180, R181: the trial digit after the correction test, for the window of `un` at `j` and the divisor `vn` of `t`
words. -/
def trialDigit (vn un : List Word) (t j : Nat) : Nat :=
  let v1 := (vn.getD (t - 1) 0).toNat
  let num := (un.getD (j + t) 0).toNat * 2 ^ 32 + (un.getD (j + t - 1) 0).toNat
  correctTrial v1 (vn.getD (t - 2) 0).toNat (un.getD (j + t - 2) 0).toNat 2 (num / v1) (num % v1)

/-- R182: multiply and subtract over the window, from carry `c` and borrow `b`; the borrow out. -/
def mulSub (q : Word) : List Word → List Word → Word → Word → List Word × Word
  | v :: vs, u :: us, c, b =>
    let p := carryMul v q c
    let r := borrowSub u p.1 b
    let t := mulSub q vs us p.2 r.2
    (r.1 :: t.1, t.2)
  | [], u :: us, c, b =>
    let r := borrowSub u c b
    (r.1 :: us, r.2)
  | _, [], _, b => ([], b)

/-- R183: add the divisor back once; the carry cancels the borrow in the top word. -/
def addBack : List Word → List Word → Word → List Word
  | v :: vs, u :: us, c =>
    let r := carrySum u v c
    r.1 :: addBack vs us r.2
  | [], u :: us, c => (u + c) :: us
  | _, [], _ => []

/-- R180 to R183: one quotient digit at position `j`, and the dividend after it. -/
def divideDigit (vn un : List Word) (t j : Nat) : Word × List Word :=
  let qhat := BitVec.ofNat 32 (trialDigit vn un t j)
  let r := mulSub qhat vn (un.drop j) 0 0
  if r.2 = 0 then (qhat, un.take j ++ r.1)
  else (qhat - 1, un.take j ++ addBack vn r.1 0)

/-- R180, R184: the digits at positions k−1 down to 0, least-significant first, and the dividend after them. -/
def divideDigits (vn : List Word) (t : Nat) : Nat → List Word → List Word × List Word
  | 0, un => ([], un)
  | k + 1, un =>
    let d := divideDigit vn un t k
    let r := divideDigits vn t k d.2
    (r.1 ++ [d.1], r.2)

/-- R179 to R185: division by a divisor of effective length `t ≥ 2`: quotient words and remainder words, n each. -/
def divideNormalized (a v : List Word) (t : Nat) : List Word × List Word :=
  let n := a.length
  let s := normShift v t
  let vn := wordsOf t (valueOf (v.take t) * 2 ^ s)
  let un := wordsOf (n + 1) (valueOf a * 2 ^ s)
  let r := divideDigits vn t (n - t + 1) un
  (r.1 ++ List.replicate (t - 1) 0, wordsOf n (valueOf (r.2.take t) >>> s))

/-- R176 to R185: the divider's datapath: none for a zero divisor (DivideByZero), else the words of quotient and
remainder. -/
def longDivide (a v : List Word) : Option (List Word × List Word) :=
  let t := trim v
  if t = 0 then none
  else if t = 1 then
    let r := divideSingle (v.getD 0 0) a
    some (r.1, wordsOf a.length r.2)
  else some (divideNormalized a v t)

end Sys2Proof.Machine
end

