-- ==== Sys2Proof/Safety.lean ====
section
/-! DEFINITION. What claims call a safe state, a safe step and the end of a run. -/
namespace Sys2Proof.Machine

open Sys2Proof

/-- R20, R57, R243: BUSY and the scratch "never hold a value between steps", and "in the model S_OVR stays 0 from
reset on". -/
def State.quiescent (s : State) : Bool :=
  !s.status.busy && !s.status.sOvr && decide (s.scratch = Scratch.empty)

/-- Memory is in canonical form and lists only bytes of DM words that exist (R21, R55). -/
def State.memoryOk (s : State) : Bool := s.mem.wf && s.mem.inDM s.cfg.memWords

/-- R251: the fault mark is clear. -/
def State.unmarked (s : State) : Bool := !s.faultMark

/-- R250: a step that stops on none of the faults. -/
def stepSafe (s : State) : Bool :=
  match step s with
  | .next _ => true
  | .fault _ => false
  | .refused _ => true

/-- R286: the end of a run: the host has performed the last operation of its program, its last command has completed
("which is BUSY = 0"), and the fault mark is clear. A host that ended on a CMD write made no access after it, so it kept
the duty of R281. -/
def State.runEnded (s : State) : Bool :=
  decide (s.host.program.length ≤ s.host.pos) && !s.status.busy && !s.faultMark

end Sys2Proof.Machine
end

