-- ==== Sys2Proof/Certificates/Slice0/Obligations.lean ====
section
/-! DEFINITION. The statements for the provers, from the numbered rules of spec/. -/

/-! ### The vocabulary of the statements -/
namespace Sys2Proof.Machine

open Sys2Proof

/-- R75: the latched word count. -/
abbrev argN (s : State) : Nat := s.latch.n.toNat

/-- The latched base of window A. -/
abbrev argA (s : State) : Nat := s.latch.addrA.toNat

/-- The latched base of window B. -/
abbrev argB (s : State) : Nat := s.latch.addrB.toNat

/-- The latched base of window D. -/
abbrev argD (s : State) : Nat := s.latch.addrD.toNat

/-- The latched base of window R. -/
abbrev argR (s : State) : Nat := s.latch.addrR.toNat

/-- R12: `MemRead(a, n)`. -/
abbrev memRead (s : State) (a n : Nat) : Nat := valueOf (s.mem.readWords a n)

/-- R55: the window `W(a, len)` lies inside DM; one of length 0 always does. -/
abbrev fits (s : State) (a len : Nat) : Prop := len = 0 ∨ a + len ≤ 2 ^ s.cfg.addrW

/-- R56: the windows `W(a, m)` and `W(b, k)` share no address. -/
abbrev apart (a m b k : Nat) : Prop := m = 0 ∨ k = 0 ∨ a + m ≤ b ∨ b + k ≤ a

/-- Every byte outside the words of `W(a, n)` reads in `t` as in `s`. -/
def sameOutside (s t : State) (a n : Nat) : Prop :=
  ∀ c, ¬ (4 * a ≤ c ∧ c < 4 * (a + n)) → t.mem.readByte c = s.mem.readByte c

/-- R242: STATUS after complete(OK). -/
abbrev okStatus (s : State) : Status := { s.status with err := .ok, busy := false }

/-- `t` is `s` after complete(OK), but for DM. -/
def onlyMemory (s t : State) : Prop := t = { s with mem := t.mem, status := okStatus s }

/-- `t` is `s` after complete(OK), but for RES0. -/
def onlyRes0 (s t : State) : Prop := t = { s with res0 := t.res0, status := okStatus s }

/-- `t` is `s` after complete(OK), but for RES0 and RES1. -/
def onlyRes01 (s t : State) : Prop := t = { s with res0 := t.res0, res1 := t.res1, status := okStatus s }

/-- The next step performs the host operation `op`. -/
abbrev ready (s : State) (op : HostOp) : Prop :=
  s.faultMark = false ∧ s.resetLine = false ∧ s.host.program[s.host.pos]? = some op

/-- R281: no command is in progress and the host owes no wait. -/
abbrev mayAccess (s : State) : Prop := s.status.busy = false ∧ s.waitDue = false

/-- R77: OP is one of the unassigned values. -/
abbrev unassigned (op : Nat) : Prop :=
  (0x08 ≤ op ∧ op ≤ 0x0F) ∨ (0x1D ≤ op ∧ op ≤ 0x1F) ∨ (0x23 ≤ op ∧ op ≤ 0x2F) ∨ (0x35 ≤ op ∧ op ≤ 0x3F) ∨
    (0x43 ≤ op ∧ op ≤ 0xFF)

/-- The host one operation further. -/
abbrev hostAfter (s : State) : HostAgent := { s.host with pos := s.host.pos + 1 }

/-- R78: the value the host has bound to a name. -/
abbrev nameValue (s : State) (x : Nat) : Option Word := SortedMap.find? s.host.names x

/-- R78: `k` is the (first) place of the label `l` in the host's program. -/
abbrev labelAt (s : State) (l k : Nat) : Prop :=
  s.host.program[k]? = some (.label l) ∧ ∀ j, j < k → s.host.program[j]? ≠ some (.label l)

/-- R78: the test of an `if … goto` line, all of whose names are bound, is true. -/
def testHolds (s : State) : HostCond → Prop
  | .eq x v => ∃ a b, nameValue s x = some a ∧ s.evalValue v = some b ∧ a = b
  | .ne x v => ∃ a b, nameValue s x = some a ∧ s.evalValue v = some b ∧ a ≠ b
  | .bit x k v => ∃ a, nameValue s x = some a ∧ a.getLsbD k = v

/-- R78: the test of an `if … goto` line, all of whose names are bound, is false. -/
def testFails (s : State) : HostCond → Prop
  | .eq x v => ∃ a b, nameValue s x = some a ∧ s.evalValue v = some b ∧ a ≠ b
  | .ne x v => ∃ a b, nameValue s x = some a ∧ s.evalValue v = some b ∧ a = b
  | .bit x k v => ∃ a, nameValue s x = some a ∧ a.getLsbD k ≠ v

end Sys2Proof.Machine

open Sys2Proof Sys2Proof.Machine

/-! ### Encoding -/

/-- R73: the word of each row of the opcode map decodes to its command. -/
def Obligations.CommandWordsDecode : Prop :=
  decode 0x00000000 = .ok .nop ∧ decode 0x00000001 = .ok .adcw ∧ decode 0x00000002 = .ok .sbbw ∧
  decode 0x00000003 = .ok .mulw ∧ decode 0x00000004 = .ok .msb ∧ decode 0x00000005 = .ok .lsb ∧
  decode 0x00000006 = .ok .popc ∧ decode 0x00000007 = .ok .fls ∧ decode 0x00000010 = .ok .neg ∧
  decode 0x00000011 = .ok .add ∧ decode 0x00000012 = .ok .sub ∧ decode 0x00000013 = .ok .adds ∧
  decode 0x00000014 = .ok .subs ∧ decode 0x00000015 = .ok .mulf ∧ decode 0x00000016 = .ok .muls ∧
  decode 0x00000017 = .ok .and ∧ decode 0x00000018 = .ok .or ∧ decode 0x00000019 = .ok .xor ∧
  decode 0x0000001A = .ok .not ∧ decode 0x0000001B = .ok .shl ∧ decode 0x0000001C = .ok .shr ∧
  decode 0x00000020 = .ok .div ∧ decode 0x00000021 = .ok .mod ∧ decode 0x00000022 = .ok .divmod ∧
  decode 0x00000030 = .ok .iszero ∧ decode 0x00000031 = .ok .eq ∧ decode 0x00000032 = .ok .ne ∧
  decode 0x00000033 = .ok .cmpu ∧ decode 0x00000034 = .ok .cmps ∧ decode 0x00000040 = .ok .fpack ∧
  decode 0x00000041 = .ok .funpack ∧ decode 0x00000042 = .ok .fextract

/-- R71, R72, R76: a word names a command exactly when it is that command's one encoding: for every command and every
32-bit word, decode and encode agree in both directions. -/
def Obligations.DecodeAndEncodeAgree : Prop :=
  ∀ (w : Word) (i : Instr), decode w = .ok i ↔ w = encode i

/-- R72: a word is rejected for its RSV field exactly when bits 31:8 are not 0, and for its OP field exactly when they
are 0 and OP is one of the unassigned values of R73; every other word names a command. -/
def Obligations.DecodeRejectsExactly : Prop :=
  ∀ w : Word,
    (decode w = .error .reservedBitsSet ↔ w.toNat / 256 ≠ 0) ∧
    (decode w = .error .unassignedOpcode ↔ w.toNat / 256 = 0 ∧ unassigned (w.toNat % 256)) ∧
    ((∃ i, decode w = .ok i) ↔ w.toNat / 256 = 0 ∧ ¬ unassigned (w.toNat % 256))

/-! ### The step -/

/-- R240, R80: where the host's next operation is a 32-bit write to CMD (offset 0x08) of a word that names command `i`,
BUSY = 0 and the host owes no wait, the step is `exec i` on the state with the arguments latched and BUSY set, and the
host one operation further. That the word is kept as the command in progress is the model's reading (log entry 3), and
that the host then owes a wait (R281) is recorded in `waitDue`, the model's own field (log entry 18). -/
def Obligations.StepRunsIssuedCommand : Prop :=
  ∀ (s : State) (v : HostValue) (w : Word) (i : Instr),
    ready s (.write .w32 (s.cfg.regBase + 0x08) v) → s.evalValue v = some w → mayAccess s → decode w = .ok i →
    step s = onNext
      (exec i { s with
        latch := s.args, command := w, status := { s.status with busy := true }, waitDue := true })
      (fun t => { t with host := { t.host with pos := t.host.pos + 1 } })

/-- R244: a command word with RSV ≠ 0 or an unassigned OP completes with ERR = 2 and S_ILL = 1 and changes nothing else
that can be read (the host's position apart). The next state it fixes also holds the latched arguments and the word as the command in
progress (the model's reading of R33 and R240, log entry 3) and the record of the host's duty (the model's own field, log
entry 18), of which R244 says nothing. -/
def Obligations.IllegalWordTouchesStatusOnly : Prop :=
  ∀ (s : State) (v : HostValue) (w : Word),
    ready s (.write .w32 (s.cfg.regBase + 0x08) v) → s.evalValue v = some w → mayAccess s →
    (w.toNat / 256 ≠ 0 ∨ unassigned (w.toNat % 256)) →
    step s = .next { s with
      status := { s.status with err := .illegal, sIll := true, busy := false }
      latch := s.args, command := w, waitDue := true, host := hostAfter s }

/-- R243: a CMD write while BUSY = 1 is dropped: S_OVR is set, and nothing else of the unit changes. The host owes a wait
after it (R281; log entry 18). -/
def Obligations.OverrunIsDropped : Prop :=
  ∀ (s : State) (v : HostValue) (w : Word),
    ready s (.write .w32 (s.cfg.regBase + 0x08) v) → s.evalValue v = some w → s.status.busy = true →
    step s = .next { s with status := { s.status with sOvr := true }, waitDue := true, host := hostAfter s }

/-- R281, R250 (CV3): while BUSY = 1, or while the host owes a wait (log entry 18), a register write other than to CMD, a
register read other than of STATUS and a DM access fault; so does a CMD write with BUSY = 0 (the one with BUSY = 1 is
dropped: R243). That a DM access faults as CV3 also at an address that does not exist is the model's choice (log entry
12). A STATUS read returns STATUS: one that returns BUSY = 0 ends the duty; behind one that returns BUSY = 1 the command
in progress completes (R281's fairness; that it does so at once is the model's, log entry 9). -/
def Obligations.BusyAccessFaults : Prop :=
  (∀ s : State, (s.status.busy = true ∨ s.waitDue = true) →
    (∀ (r : Reg) (v : HostValue) (w : Word), r ≠ .cmd → s.evalValue v = some w →
      ready s (.write .w32 (s.cfg.regBase + r.offset) v) → step s = .fault .cv3AccessWhileBusy) ∧
    (∀ (v : HostValue) (w : Word), s.status.busy = false → s.evalValue v = some w →
      ready s (.write .w32 (s.cfg.regBase + 0x08) v) → step s = .fault .cv3AccessWhileBusy) ∧
    (∀ (r : Reg) (x : Nat), r ≠ .status → ready s (.read .w32 (s.cfg.regBase + r.offset) x) →
      step s = .fault .cv3AccessWhileBusy) ∧
    (∀ (a : Nat) (v : HostValue) (w : Word), s.evalValue v = some w → ready s (.dmWrite a v) →
      step s = .fault .cv3AccessWhileBusy) ∧
    (∀ a x : Nat, ready s (.dmRead a x) → step s = .fault .cv3AccessWhileBusy)) ∧
  (∀ (s : State) (x : Nat), ready s (.read .w32 (s.cfg.regBase + 0x04) x) →
    (s.status.busy = false → ∃ t, step s = .next t ∧ nameValue t x = some s.status.word ∧
      t = { s with waitDue := false, host := { hostAfter s with names := t.host.names } }) ∧
    (s.status.busy = true → ∀ i, decode s.command = .ok i →
      step s = onNext (exec i { s with waitDue := true })
        (fun t => { t with host := { hostAfter t with names := SortedMap.insert t.host.names x s.status.word } })) ∧
    (s.status.busy = true → ∀ e, decode s.command = .error e →
      ∃ t, step s = .next t ∧ nameValue t x = some s.status.word ∧
        t = { s with
          status := { s.status with err := .illegal, sIll := true, busy := false }
          waitDue := true, host := { hostAfter s with names := t.host.names } }))

/-- R54, R250 (CV4): an access to the register block that is not 32 bits wide, or whose offset is no multiple of 4,
faults, for reads and writes alike. Two of the model's choices stand in it: such an access is CV4 also where it breaks the
duty of R281 (log entry 12), and an access belongs to the block when its first byte does, so one at offsets 61 to 63 is
CV4 (log entry 14). -/
def Obligations.NarrowOrMisalignedAccessFaults : Prop :=
  ∀ (s : State) (width : AccessWidth) (off : Nat), off < 64 → (width ≠ .w32 ∨ off % 4 ≠ 0) →
    (∀ (v : HostValue) (w : Word), s.evalValue v = some w → ready s (.write width (s.cfg.regBase + off) v) →
      step s = .fault .cv4BadRegisterAccess) ∧
    (∀ x : Nat, ready s (.read width (s.cfg.regBase + off) x) → step s = .fault .cv4BadRegisterAccess)

/-- R251: a state whose fault mark is set has no further step. -/
def Obligations.FaultMarkStopsEverything : Prop :=
  ∀ s : State, s.faultMark = true → step s = .fault .faultMarked

/-- R257: with no host operation left and BUSY = 0 the unit does nothing. -/
def Obligations.IdleUnitDoesNothing : Prop :=
  ∀ s : State, s.faultMark = false → s.resetLine = false → s.host.program.length ≤ s.host.pos →
    s.status.busy = false → step s = .next s

/-! ### Reset -/

/-- R35, R271, R272, R274: the values the spec states for reset: every register, STATUS and its fields, the fault mark; no
DM word is written. The last two clauses, the invariants of the model at reset, rest on more than the spec: the memory's
canonical form is the model's own (log entry 1), and the empty scratch is its choice (log entry 4; R35 leaves the scratch
unspecified). -/
def Obligations.ResetValues : Prop :=
  State.reset.regValue .id = 0x4D574155 ∧ State.reset.regValue .status = 0 ∧ State.reset.regValue .cmd = 0 ∧
  State.reset.regValue .n = 0 ∧ State.reset.regValue .addrA = 0 ∧ State.reset.regValue .addrB = 0 ∧
  State.reset.regValue .addrD = 0 ∧ State.reset.regValue .addrR = 0 ∧ State.reset.regValue .opa = 0 ∧
  State.reset.regValue .opb = 0 ∧ State.reset.regValue .opc = 0 ∧ State.reset.regValue .res0 = 0 ∧
  State.reset.regValue .res1 = 0 ∧ State.reset.regValue .res2 = 0 ∧ State.reset.status.busy = false ∧
  State.reset.status.err = .ok ∧ State.reset.status.sDiv0 = false ∧ State.reset.status.sIll = false ∧
  State.reset.status.sOvr = false ∧ State.reset.status.sNrange = false ∧ State.reset.faultMark = false ∧
  State.reset.mem = [] ∧ State.reset.memoryOk = true ∧ State.reset.quiescent = true

/-- R271 to R273: a reset while BUSY = 0 writes no DM word. One inside a command leaves every DM byte outside the windows
that the command writes as it was: it goes on where the command's windows keep R55 and R56, and where the command would
end with NRANGE or the word in progress names no command, so that no window is written, it leaves all of DM as it was.
Every reset leaves the registers at their reset values. That the platform's reset is a line in the state, taken before
the host's next operation and released by that step, is the model's choice (log entry 7), what a reset inside a command
does to which windows is its reading of R273 (log entry 13), and that a reset ends the host's duty is log entry 18. -/
def Obligations.PlatformResetKeepsMemory : Prop :=
  ∀ s : State, s.faultMark = false → s.resetLine = true →
    (s.status.busy = false → ∃ t, step s = .next t ∧ t.mem = s.mem) ∧
    (s.status.busy = true → ∀ e, decode s.command = .error e → ∃ t, step s = .next t ∧ t.mem = s.mem) ∧
    (s.status.busy = true → ∀ i, decode s.command = .ok i →
      (i.isDivision = true → s.cfg.divNmax < argN s → ∃ t, step s = .next t ∧ t.mem = s.mem) ∧
      ((∀ w ∈ windowsOf i s.latch, fits s w.base w.len) → overlapAllowed i s.latch = true → ∃ t, step s = .next t) ∧
      (∀ t, step s = .next t → ∀ c, (∀ w ∈ writtenBy i s.latch, ¬ (4 * w.base ≤ c ∧ c < 4 * (w.base + w.len))) →
        t.mem.readByte c = s.mem.readByte c)) ∧
    (∀ t, step s = .next t →
      t.args = Args.zero ∧ t.res0 = 0 ∧ t.res1 = 0 ∧ t.res2 = 0 ∧ t.status.word = 0 ∧ t.faultMark = false ∧
      t.resetLine = false ∧ t.waitDue = false ∧ t.cfg = s.cfg ∧ t.host = s.host)

/-! ### The register block and DM, as the host sees them -/

/-- R22, R26 to R30: a 32-bit write of a literal or of a bound name to an argument register is read back unchanged and
changes no other register; one to ID, RES0 to RES2 or a reserved slot changes nothing. DM is untouched. -/
def Obligations.RegisterWrites : Prop :=
  ∀ (s : State) (r : Reg) (v : HostValue) (w : Word), mayAccess s → s.evalValue v = some w →
    ready s (.write .w32 (s.cfg.regBase + r.offset) v) →
    (r ∈ [Reg.n, .addrA, .addrB, .addrD, .addrR, .opa, .opb, .opc] →
      ∃ t, step s = .next t ∧ t.regValue r = w ∧ (∀ q, q ≠ r → t.regValue q = s.regValue q) ∧
        t = { s with args := t.args, host := hostAfter s }) ∧
    (r ∈ [Reg.id, .res0, .res1, .res2, .rsv38, .rsv3C] → step s = .next { s with host := hostAfter s })

/-- R22, R23, R60: a 32-bit read binds the register's value to the name and changes nothing else; ID
reads 0x4D574155, and CMD and the reserved slots read 0. -/
def Obligations.RegisterReads : Prop :=
  (∀ (s : State) (r : Reg) (x : Nat), mayAccess s →
    ready s (.read .w32 (s.cfg.regBase + r.offset) x) →
    ∃ t, step s = .next t ∧ SortedMap.find? t.host.names x = some (s.regValue r) ∧
      (∀ y, y ≠ x → SortedMap.find? t.host.names y = SortedMap.find? s.host.names y) ∧
      t = { s with host := { hostAfter s with names := t.host.names } }) ∧
  (∀ s : State, s.regValue .id = 0x4D574155 ∧ s.regValue .cmd = 0 ∧ s.regValue .rsv38 = 0 ∧ s.regValue .rsv3C = 0)

/-- R24: the bits of STATUS as a read returns them; and a host write of a value (a literal or a bound name) clears the
sticky bits whose bit of the value (16 to 19) is 1, and does nothing else. -/
def Obligations.StatusLayoutAndClear : Prop :=
  (∀ st : Status, st.word.toNat =
    st.busy.toNat + 2 ^ 8 * (match st.err with | .ok => 0 | .div0 => 1 | .illegal => 2 | .nrange => 3) +
      2 ^ 16 * st.sDiv0.toNat + 2 ^ 17 * st.sIll.toNat + 2 ^ 18 * st.sOvr.toNat + 2 ^ 19 * st.sNrange.toNat) ∧
  (∀ (s : State) (v : HostValue) (w : Word), mayAccess s → s.evalValue v = some w →
    ready s (.write .w32 (s.cfg.regBase + 0x04) v) →
    step s = .next { s with
      status :=
        { s.status with
          sDiv0 := if w.getLsbD 16 then false else s.status.sDiv0
          sIll := if w.getLsbD 17 then false else s.status.sIll
          sOvr := if w.getLsbD 18 then false else s.status.sOvr
          sNrange := if w.getLsbD 19 then false else s.status.sNrange }
      host := hostAfter s })

/-- R60, R62, R67: a host write of a literal or a bound name to a DM word that exists changes that word only, and a host
read binds the word's value and changes nothing of the unit or DM. -/
def Obligations.HostMemoryAccess : Prop :=
  ∀ (s : State) (a : Nat), mayAccess s → a < 2 ^ s.cfg.addrW →
    (∀ (v : HostValue) (w : Word), s.evalValue v = some w → ready s (.dmWrite a v) →
      ∃ t, step s = .next t ∧ t.mem.readWord a = w ∧ (∀ b, b ≠ a → t.mem.readWord b = s.mem.readWord b) ∧
        t = { s with mem := t.mem, host := hostAfter s }) ∧
    (∀ x : Nat, ready s (.dmRead a x) →
      ∃ t, step s = .next t ∧ nameValue t x = some (s.mem.readWord a) ∧
        t = { s with host := { hostAfter s with names := t.host.names } })

/-- R12: `MemRead(a, n)` is the sum of the words by weight, and `MemWrite(a, n, v)` sets word i to
`(v div 2^(32i)) mod 2^32`, so that it stores `v mod 2^(32n)`, and nothing else. -/
def Obligations.MemReadAndMemWrite : Prop :=
  (∀ (s : State) (a n : Nat),
    memRead s a n = ((List.range n).map fun i => (s.mem.readWord (a + i)).toNat * 2 ^ (32 * i)).sum) ∧
  (∀ (s : State) (a n v : Nat),
    (∀ i, i < n → ((s.store ⟨a, n⟩ v).mem.readWord (a + i)).toNat = v / 2 ^ (32 * i) % 2 ^ 32) ∧
    memRead (s.store ⟨a, n⟩ v) a n = v % 2 ^ (32 * n) ∧ sameOutside s (s.store ⟨a, n⟩ v) a n)

/-! ### NOP and the primitives -/

/-- R100: NOP changes nothing but ERR (BUSY goes to 0 at completion). -/
def Obligations.NopClearsErrOnly : Prop :=
  decode 0x00000000 = .ok .nop ∧
  ∀ s : State, exec .nop s = .next { s with status := { s.status with err := .ok, busy := false } }

/-- R101 to R103: ADCW, SBBW and MULW: RES0 and RES1 from the exact sum, difference and product. -/
def Obligations.CarryPrimitives : Prop :=
  decode 0x00000001 = .ok .adcw ∧ decode 0x00000002 = .ok .sbbw ∧ decode 0x00000003 = .ok .mulw ∧
  ∀ s : State,
    (∃ t, exec .adcw s = .next t ∧ onlyRes01 s t ∧
      t.res0.toNat = (s.latch.opa.toNat + s.latch.opb.toNat + (s.latch.opc.getLsbD 0).toNat) % 2 ^ 32 ∧
      t.res1.toNat = (s.latch.opa.toNat + s.latch.opb.toNat + (s.latch.opc.getLsbD 0).toNat) / 2 ^ 32) ∧
    (∃ t, exec .sbbw s = .next t ∧ onlyRes01 s t ∧
      (t.res0.toNat : Int) =
        ((s.latch.opa.toNat : Int) - s.latch.opb.toNat - (s.latch.opc.getLsbD 0).toNat) % 2 ^ 32 ∧
      t.res1 = if s.latch.opa.toNat < s.latch.opb.toNat + (s.latch.opc.getLsbD 0).toNat then 1 else 0) ∧
    (∃ t, exec .mulw s = .next t ∧ onlyRes01 s t ∧
      t.res0.toNat = (s.latch.opa.toNat * s.latch.opb.toNat + s.latch.opc.toNat) % 2 ^ 32 ∧
      t.res1.toNat = (s.latch.opa.toNat * s.latch.opb.toNat + s.latch.opc.toNat) / 2 ^ 32)

/-- R104: MSB gives the greatest index of a bit that is 1, and 0xFFFFFFFF for 0. -/
def Obligations.MsbIsGreatestSetBit : Prop :=
  decode 0x00000004 = .ok .msb ∧
  ∀ s : State, ∃ t, exec .msb s = .next t ∧ onlyRes0 s t ∧
    (s.latch.opa = 0 → t.res0 = 0xFFFFFFFF) ∧
    (s.latch.opa ≠ 0 → t.res0.toNat < 32 ∧ s.latch.opa.getLsbD t.res0.toNat = true ∧
      ∀ i, t.res0.toNat < i → s.latch.opa.getLsbD i = false)

/-- R105: LSB gives the least index of a bit that is 1, and 0xFFFFFFFF for 0. -/
def Obligations.LsbIsLeastSetBit : Prop :=
  decode 0x00000005 = .ok .lsb ∧
  ∀ s : State, ∃ t, exec .lsb s = .next t ∧ onlyRes0 s t ∧
    (s.latch.opa = 0 → t.res0 = 0xFFFFFFFF) ∧
    (s.latch.opa ≠ 0 → s.latch.opa.getLsbD t.res0.toNat = true ∧
      ∀ i, i < t.res0.toNat → s.latch.opa.getLsbD i = false)

/-- R106: POPC counts the bits that are 1. -/
def Obligations.PopcCountsSetBits : Prop :=
  decode 0x00000006 = .ok .popc ∧
  ∀ s : State, ∃ t, exec .popc s = .next t ∧ onlyRes0 s t ∧
    t.res0.toNat = ((List.range 32).map fun i => (s.latch.opa.getLsbD i).toNat).sum

/-- R107: FLS is the 1-based position of the greatest set bit: `2^(fls-1) <= v < 2^fls`; 0 for 0. -/
def Obligations.FlsIsBitWidth : Prop :=
  decode 0x00000007 = .ok .fls ∧
  ∀ s : State, ∃ t, exec .fls s = .next t ∧ onlyRes0 s t ∧
    (s.latch.opa = 0 → t.res0 = 0) ∧
    (s.latch.opa ≠ 0 → 1 ≤ t.res0.toNat ∧ t.res0.toNat ≤ 32 ∧ 2 ^ (t.res0.toNat - 1) ≤ s.latch.opa.toNat ∧
      s.latch.opa.toNat < 2 ^ t.res0.toNat)

/-- R108: the laws of the primitives. -/
def Obligations.LawsOfThePrimitives : Prop :=
  (∀ v : Word, msb v = fls v - 1) ∧
  (∀ v : Word, (popc v).toNat + (popc (~~~v)).toNat = 32) ∧
  (∀ v : Word, v ≠ 0 → lsb v = popc ((v &&& -v) - 1)) ∧
  (∀ w a b : Word, b.toNat ≤ 1 →
    (carrySum w a b).1.toNat + 2 ^ 32 * (carrySum w a b).2.toNat = w.toNat + a.toNat + b.toNat) ∧
  (∀ w a b : Word, b.toNat ≤ 1 →
    ((borrowSub w a b).1.toNat : Int) - 2 ^ 32 * (borrowSub w a b).2.toNat = w.toNat - a.toNat - b.toNat) ∧
  (∀ w m c : Word, (carryMul w m c).1.toNat + 2 ^ 32 * (carryMul w m c).2.toNat = w.toNat * m.toNat + c.toNat) ∧
  (∀ d : Word, d ≠ 0 → 31 - (msb d).toNat = 32 - (fls d).toNat ∧ (msb d).toNat ≤ 31 ∧ (fls d).toNat ≤ 32)

/-! ### Addition and subtraction -/

/-- R120, R121, the sentences the spec marks as derived by induction: the carry chain satisfies
`sum_i S_i*2^(32i) + c*2^(32n) = X + Y + c0`, and the borrow chain `sum_i S_i*2^(32i) - b*2^(32n) = X - Y - b0`. -/
def Obligations.CarryAndBorrowChains : Prop :=
  ∀ (x y : List Word) (c : Word), x.length = y.length → c.toNat ≤ 1 →
    ((addChain x y c).1.length = x.length ∧ (addChain x y c).2.toNat ≤ 1 ∧
      valueOf (addChain x y c).1 + (addChain x y c).2.toNat * 2 ^ (32 * x.length) =
        valueOf x + valueOf y + c.toNat) ∧
    ((subChain x y c).1.length = x.length ∧ (subChain x y c).2.toNat ≤ 1 ∧
      (valueOf (subChain x y c).1 : Int) - (subChain x y c).2.toNat * 2 ^ (32 * x.length) =
        valueOf x - valueOf y - c.toNat)

/-- R122: NEG writes `(2^(32n) - a) mod 2^(32n)` to D, as its datapath does, and nothing else. -/
def Obligations.NegStoresTwosComplement : Prop :=
  decode 0x00000010 = .ok .neg ∧
  (∀ s : State, fits s (argA s) (argN s) → fits s (argD s) (argN s) →
    (argD s = argA s ∨ apart (argD s) (argN s) (argA s) (argN s)) →
    ∃ t, exec .neg s = .next t ∧
      memRead t (argD s) (argN s) = (2 ^ (32 * argN s) - memRead s (argA s) (argN s)) % 2 ^ (32 * argN s) ∧
      t.mem.readWords (argD s) (argN s) = negChain (s.mem.readWords (argA s) (argN s)) 1 ∧
      sameOutside s t (argD s) (argN s) ∧ onlyMemory s t) ∧
  (∀ s : State, fits s (argA s) (argN s) → fits s (argD s) (argN s) → argD s ≠ argA s →
    ¬ apart (argD s) (argN s) (argA s) (argN s) → exec .neg s = .fault .cv2WindowOverlap)

/-- R123: ADD writes `(a + b) mod 2^(32n)` to A, as the carry chain does, and nothing else; the carry is discarded. -/
def Obligations.AddStoresSum : Prop :=
  decode 0x00000011 = .ok .add ∧
  (∀ s : State, fits s (argA s) (argN s) → fits s (argB s) (argN s) →
    (argB s = argA s ∨ apart (argB s) (argN s) (argA s) (argN s)) →
    ∃ t, exec .add s = .next t ∧
      memRead t (argA s) (argN s) =
        (memRead s (argA s) (argN s) + memRead s (argB s) (argN s)) % 2 ^ (32 * argN s) ∧
      t.mem.readWords (argA s) (argN s) =
        (addChain (s.mem.readWords (argA s) (argN s)) (s.mem.readWords (argB s) (argN s)) 0).1 ∧
      sameOutside s t (argA s) (argN s) ∧ onlyMemory s t) ∧
  (∀ s : State, fits s (argA s) (argN s) → fits s (argB s) (argN s) → argB s ≠ argA s →
    ¬ apart (argB s) (argN s) (argA s) (argN s) → exec .add s = .fault .cv2WindowOverlap)

/-- R124: SUB writes `(a - b) mod 2^(32n)` to A, as the borrow chain does, and nothing else. -/
def Obligations.SubStoresDifference : Prop :=
  decode 0x00000012 = .ok .sub ∧
  ∀ s : State, fits s (argA s) (argN s) → fits s (argB s) (argN s) →
    (argB s = argA s ∨ apart (argB s) (argN s) (argA s) (argN s)) →
    ∃ t, exec .sub s = .next t ∧
      (memRead t (argA s) (argN s) : Int) =
        ((memRead s (argA s) (argN s) : Int) - memRead s (argB s) (argN s)) % 2 ^ (32 * argN s) ∧
      t.mem.readWords (argA s) (argN s) =
        (subChain (s.mem.readWords (argA s) (argN s)) (s.mem.readWords (argB s) (argN s)) 0).1 ∧
      sameOutside s t (argA s) (argN s) ∧ onlyMemory s t

/-- R125: ADDS writes `(a + s) mod 2^(32n)` to A; its datapath with early stop gives the same words. -/
def Obligations.AddsStoresSumWithScalar : Prop :=
  decode 0x00000013 = .ok .adds ∧
  ∀ s : State, fits s (argA s) (argN s) →
    ∃ t, exec .adds s = .next t ∧
      memRead t (argA s) (argN s) = (memRead s (argA s) (argN s) + s.latch.opa.toNat) % 2 ^ (32 * argN s) ∧
      t.mem.readWords (argA s) (argN s) = addsDatapath (s.mem.readWords (argA s) (argN s)) s.latch.opa ∧
      sameOutside s t (argA s) (argN s) ∧ onlyMemory s t

/-- R126: SUBS writes `(a - s) mod 2^(32n)` to A; its datapath with early stop gives the same words. -/
def Obligations.SubsStoresDifferenceWithScalar : Prop :=
  decode 0x00000014 = .ok .subs ∧
  ∀ s : State, fits s (argA s) (argN s) →
    ∃ t, exec .subs s = .next t ∧
      (memRead t (argA s) (argN s) : Int) =
        ((memRead s (argA s) (argN s) : Int) - s.latch.opa.toNat) % 2 ^ (32 * argN s) ∧
      t.mem.readWords (argA s) (argN s) = subsDatapath (s.mem.readWords (argA s) (argN s)) s.latch.opa ∧
      sameOutside s t (argA s) (argN s) ∧ onlyMemory s t

/-- R127: NEG in place twice gives A back; ADD and then SUB of a B apart from A gives A back. -/
def Obligations.DoubleNegationAndAddSubInverse : Prop :=
  (∀ s : State, fits s (argA s) (argN s) → argD s = argA s →
    ∃ t u, exec .neg s = .next t ∧ exec .neg t = .next u ∧
      u.mem.readWords (argA s) (argN s) = s.mem.readWords (argA s) (argN s)) ∧
  (∀ s : State, fits s (argA s) (argN s) → fits s (argB s) (argN s) →
    apart (argB s) (argN s) (argA s) (argN s) →
    ∃ t u, exec .add s = .next t ∧ exec .sub t = .next u ∧
      u.mem.readWords (argA s) (argN s) = s.mem.readWords (argA s) (argN s))

/-! ### Multiplication -/

/-- R140: MULF adds the product of A and B into the 2n words of D, modulo `2^(64n)`, and changes nothing else. -/
def Obligations.MulfAccumulatesProduct : Prop :=
  decode 0x00000015 = .ok .mulf ∧
  (∀ s : State, fits s (argA s) (argN s) → fits s (argB s) (argN s) → fits s (argD s) (2 * argN s) →
    apart (argD s) (2 * argN s) (argA s) (argN s) → apart (argD s) (2 * argN s) (argB s) (argN s) →
    ∃ t, exec .mulf s = .next t ∧
      memRead t (argD s) (2 * argN s) =
        (memRead s (argD s) (2 * argN s) + memRead s (argA s) (argN s) * memRead s (argB s) (argN s)) %
          2 ^ (64 * argN s) ∧
      sameOutside s t (argD s) (2 * argN s) ∧ onlyMemory s t) ∧
  (∀ s : State, fits s (argA s) (argN s) → fits s (argB s) (argN s) → fits s (argD s) (2 * argN s) →
    (¬ apart (argD s) (2 * argN s) (argA s) (argN s) ∨ ¬ apart (argD s) (2 * argN s) (argB s) (argN s)) →
    exec .mulf s = .fault .cv2WindowOverlap)

/-- R141: MULS adds the product of A and the scalar into the n + 1 words of D, as its datapath does, and changes nothing
else. -/
def Obligations.MulsAccumulatesScalarProduct : Prop :=
  decode 0x00000016 = .ok .muls ∧
  (∀ s : State, fits s (argA s) (argN s) → fits s (argD s) (argN s + 1) →
    (argD s = argA s ∨ apart (argD s) (argN s + 1) (argA s) (argN s)) →
    ∃ t, exec .muls s = .next t ∧
      memRead t (argD s) (argN s + 1) =
        (memRead s (argD s) (argN s + 1) + memRead s (argA s) (argN s) * s.latch.opa.toNat) %
          2 ^ (32 * (argN s + 1)) ∧
      t.mem.readWords (argD s) (argN s + 1) =
        mulsChain (s.mem.readWords (argA s) (argN s)) s.latch.opa (s.mem.readWords (argD s) (argN s + 1)) 0 ∧
      sameOutside s t (argD s) (argN s + 1) ∧ onlyMemory s t) ∧
  (∀ s : State, fits s (argA s) (argN s) → fits s (argD s) (argN s + 1) → argD s ≠ argA s →
    ¬ apart (argD s) (argN s + 1) (argA s) (argN s) → exec .muls s = .fault .cv2WindowOverlap)

/-- R142: the schoolbook loop computes R140's result: over n words of A and B and 2n words of D. -/
def Obligations.SchoolbookComputesTheProduct : Prop :=
  ∀ a b d : List Word, a.length = b.length → d.length = 2 * a.length →
    schoolbook a b d = wordsOf (2 * a.length) (valueOf d + valueOf a * valueOf b)

/-! ### Logic and shifts -/

/-- R150 to R153: AND, OR, XOR and NOT work word by word in A and change nothing else. -/
def Obligations.WordLogicInPlace : Prop :=
  decode 0x00000017 = .ok .and ∧ decode 0x00000018 = .ok .or ∧ decode 0x00000019 = .ok .xor ∧
  decode 0x0000001A = .ok .not ∧
  (∀ s : State, fits s (argA s) (argN s) → fits s (argB s) (argN s) →
    (argB s = argA s ∨ apart (argB s) (argN s) (argA s) (argN s)) →
    (∃ t, exec .and s = .next t ∧ sameOutside s t (argA s) (argN s) ∧ onlyMemory s t ∧
      ∀ i, i < argN s → t.mem.readWord (argA s + i) = s.mem.readWord (argA s + i) &&& s.mem.readWord (argB s + i)) ∧
    (∃ t, exec .or s = .next t ∧ sameOutside s t (argA s) (argN s) ∧ onlyMemory s t ∧
      ∀ i, i < argN s → t.mem.readWord (argA s + i) = s.mem.readWord (argA s + i) ||| s.mem.readWord (argB s + i)) ∧
    (∃ t, exec .xor s = .next t ∧ sameOutside s t (argA s) (argN s) ∧ onlyMemory s t ∧
      ∀ i, i < argN s → t.mem.readWord (argA s + i) = s.mem.readWord (argA s + i) ^^^ s.mem.readWord (argB s + i))) ∧
  (∀ s : State, fits s (argA s) (argN s) →
    ∃ t, exec .not s = .next t ∧ sameOutside s t (argA s) (argN s) ∧ onlyMemory s t ∧
      ∀ i, i < argN s → t.mem.readWord (argA s + i) = ~~~ s.mem.readWord (argA s + i)) ∧
  (∀ s : State, fits s (argA s) (argN s) → fits s (argB s) (argN s) → argB s ≠ argA s →
    ¬ apart (argB s) (argN s) (argA s) (argN s) →
    ∀ i ∈ [Instr.and, .or, .xor], exec i s = .fault .cv2WindowOverlap)

/-- R154, R155: SHL writes `(a << s) mod 2^(32n)` to A for every shift amount, as its descending loop does. -/
def Obligations.ShlShiftsAcrossWords : Prop :=
  decode 0x0000001B = .ok .shl ∧
  ∀ s : State, fits s (argA s) (argN s) →
    ∃ t, exec .shl s = .next t ∧
      memRead t (argA s) (argN s) = memRead s (argA s) (argN s) * 2 ^ s.latch.opa.toNat % 2 ^ (32 * argN s) ∧
      t.mem.readWords (argA s) (argN s) = shlDatapath (s.mem.readWords (argA s) (argN s)) s.latch.opa.toNat ∧
      sameOutside s t (argA s) (argN s) ∧ onlyMemory s t

/-- R154, R156: SHR writes `a div 2^s` to A for every shift amount, as its ascending loop does. -/
def Obligations.ShrShiftsAcrossWords : Prop :=
  decode 0x0000001C = .ok .shr ∧
  ∀ s : State, fits s (argA s) (argN s) →
    ∃ t, exec .shr s = .next t ∧
      memRead t (argA s) (argN s) = memRead s (argA s) (argN s) / 2 ^ s.latch.opa.toNat ∧
      t.mem.readWords (argA s) (argN s) = shrDatapath (s.mem.readWords (argA s) (argN s)) s.latch.opa.toNat ∧
      sameOutside s t (argA s) (argN s) ∧ onlyMemory s t

/-! ### Division -/

/-- R171 to R173, R188: with n ≤ DIV_NMAX and a divisor that is not 0, DIV, MOD and DIVMOD write quotient and remainder,
whatever D and R overlap of A and B, and change nothing else but the scratch, which is released (R34; that it is then
empty is log entry 4); the division identity holds. -/
def Obligations.DivisionResults : Prop :=
  ∀ s : State, argN s ≤ s.cfg.divNmax → fits s (argA s) (argN s) → fits s (argB s) (argN s) →
    memRead s (argB s) (argN s) ≠ 0 →
    (fits s (argD s) (argN s) → ∃ t, exec .div s = .next t ∧
      memRead t (argD s) (argN s) = memRead s (argA s) (argN s) / memRead s (argB s) (argN s) ∧
      sameOutside s t (argD s) (argN s) ∧
      t = { s with mem := t.mem, status := okStatus s, scratch := Scratch.empty }) ∧
    (fits s (argR s) (argN s) → ∃ t, exec .mod s = .next t ∧
      memRead t (argR s) (argN s) = memRead s (argA s) (argN s) % memRead s (argB s) (argN s) ∧
      sameOutside s t (argR s) (argN s) ∧
      t = { s with mem := t.mem, status := okStatus s, scratch := Scratch.empty }) ∧
    (fits s (argD s) (argN s) → fits s (argR s) (argN s) → apart (argD s) (argN s) (argR s) (argN s) →
      ∃ t, exec .divmod s = .next t ∧
        memRead t (argD s) (argN s) = memRead s (argA s) (argN s) / memRead s (argB s) (argN s) ∧
        memRead t (argR s) (argN s) = memRead s (argA s) (argN s) % memRead s (argB s) (argN s) ∧
        memRead t (argD s) (argN s) * memRead s (argB s) (argN s) + memRead t (argR s) (argN s) =
          memRead s (argA s) (argN s) ∧
        memRead t (argR s) (argN s) < memRead s (argB s) (argN s) ∧
        (∀ c, ¬ (4 * argD s ≤ c ∧ c < 4 * (argD s + argN s)) → ¬ (4 * argR s ≤ c ∧ c < 4 * (argR s + argN s)) →
          t.mem.readByte c = s.mem.readByte c) ∧
        t = { s with mem := t.mem, status := okStatus s, scratch := Scratch.empty })

/-- R174, R242: a division whose divisor is 0 (n = 0 counts as zero) completes with DIV0 and S_DIV0; RES0 to RES2 and the
argument registers keep their values, and so does every DM byte outside the windows the command names. What those
windows hold is free. The scratch, which no host
reads, is released (R34; that it is then empty is log entry 4), and the model's own counter of free draws may move (log
entry 8). -/
def Obligations.DivideByZeroCompletes : Prop :=
  ∀ (s : State) (i : Instr), i.isDivision = true → argN s ≤ s.cfg.divNmax →
    (∀ w ∈ windowsOf i s.latch, fits s w.base w.len) → overlapAllowed i s.latch = true →
    memRead s (argB s) (argN s) = 0 →
    ∃ t, exec i s = .next t ∧
      t = { s with
        mem := t.mem, draws := t.draws, scratch := Scratch.empty
        status := { s.status with err := .div0, sDiv0 := true, busy := false } } ∧
      ∀ c, (∀ w ∈ windowsOf i s.latch, ¬ (4 * w.base ≤ c ∧ c < 4 * (w.base + w.len))) →
        t.mem.readByte c = s.mem.readByte c

/-- R245, R246: DIV, MOD and DIVMOD with n > DIV_NMAX complete with ERR = 3 and S_NRANGE = 1 and change nothing else,
whatever their windows and whatever the divisor. -/
def Obligations.OversizeDivisionCompletes : Prop :=
  ∀ (s : State) (i : Instr), i.isDivision = true → s.cfg.divNmax < argN s →
    exec i s = .next { s with status := { s.status with err := .nrange, sNrange := true, busy := false } }

/-- R177, R178: division by one word, most- to least-significant: the words of quotient and the remainder. -/
def Obligations.SingleWordDivision : Prop :=
  ∀ (d : Word) (a : List Word), d ≠ 0 →
    (divideSingle d a).1 = wordsOf a.length (valueOf a / d.toNat) ∧ (divideSingle d a).2 = valueOf a % d.toNat

/-- R175, R176 to R185: the long-division datapath (trim, normalize, trial digit with at most two corrections, multiply
and subtract, at most one add-back, denormalize) gives the architectural quotient and remainder for every dividend and
every divisor of n words that is not 0, and none for 0. -/
def Obligations.LongDivisionRefinesDivision : Prop :=
  ∀ a v : List Word, a.length = v.length →
    (valueOf v = 0 → longDivide a v = none) ∧
    (valueOf v ≠ 0 → longDivide a v =
      some (wordsOf a.length (valueOf a / valueOf v), wordsOf a.length (valueOf a % valueOf v)))

/-! ### Comparison -/

/-- R200 to R203: ISZERO, EQ and NE write 1 or 0 to RES0 and change nothing else; the windows may overlap in any way. -/
def Obligations.ZeroAndEqualityTests : Prop :=
  decode 0x00000030 = .ok .iszero ∧ decode 0x00000031 = .ok .eq ∧ decode 0x00000032 = .ok .ne ∧
  (∀ s : State, fits s (argA s) (argN s) →
    ∃ t, exec .iszero s = .next t ∧ onlyRes0 s t ∧
      (memRead s (argA s) (argN s) = 0 → t.res0 = 1) ∧ (memRead s (argA s) (argN s) ≠ 0 → t.res0 = 0)) ∧
  (∀ s : State, fits s (argA s) (argN s) → fits s (argB s) (argN s) →
    (∃ t, exec .eq s = .next t ∧ onlyRes0 s t ∧
      ((∀ i, i < argN s → s.mem.readWord (argA s + i) = s.mem.readWord (argB s + i)) → t.res0 = 1) ∧
      ((∃ i, i < argN s ∧ s.mem.readWord (argA s + i) ≠ s.mem.readWord (argB s + i)) → t.res0 = 0)) ∧
    (∃ t, exec .ne s = .next t ∧ onlyRes0 s t ∧
      ((∀ i, i < argN s → s.mem.readWord (argA s + i) = s.mem.readWord (argB s + i)) → t.res0 = 0) ∧
      ((∃ i, i < argN s ∧ s.mem.readWord (argA s + i) ≠ s.mem.readWord (argB s + i)) → t.res0 = 1)))

/-- R204: CMPU writes to RES0 what the first unequal pair of words decides, from the most-significant word down, and 0
where all are equal; and (the sentence the rule derives from R51) this is the sign of the difference of the two windows'
values. -/
def Obligations.CmpuIsUnsignedOrder : Prop :=
  decode 0x00000033 = .ok .cmpu ∧
  ∀ s : State, fits s (argA s) (argN s) → fits s (argB s) (argN s) →
    ∃ t, exec .cmpu s = .next t ∧ onlyRes0 s t ∧
      (∀ k, k < argN s →
        (∀ i, k < i → i < argN s → s.mem.readWord (argA s + i) = s.mem.readWord (argB s + i)) →
        ((s.mem.readWord (argA s + k)).toNat < (s.mem.readWord (argB s + k)).toNat → t.res0 = 0xFFFFFFFF) ∧
        ((s.mem.readWord (argB s + k)).toNat < (s.mem.readWord (argA s + k)).toNat → t.res0 = 1)) ∧
      ((∀ i, i < argN s → s.mem.readWord (argA s + i) = s.mem.readWord (argB s + i)) → t.res0 = 0) ∧
      (memRead s (argA s) (argN s) < memRead s (argB s) (argN s) → t.res0 = 0xFFFFFFFF) ∧
      (memRead s (argA s) (argN s) = memRead s (argB s) (argN s) → t.res0 = 0) ∧
      (memRead s (argB s) (argN s) < memRead s (argA s) (argN s) → t.res0 = 1)

/-- R205: CMPS: 0 for n = 0; the negative operand is smaller where the signs differ; the unsigned compare where neither
is negative, and its inverse where both are. -/
def Obligations.CmpsFollowsTheSourcesProcedure : Prop :=
  decode 0x00000034 = .ok .cmps ∧
  ∀ s : State, fits s (argA s) (argN s) → fits s (argB s) (argN s) →
    ∃ t, exec .cmps s = .next t ∧ onlyRes0 s t ∧
      (argN s = 0 → t.res0 = 0) ∧
      (∀ sa sb : Bool, 0 < argN s → (s.mem.readWord (argA s + (argN s - 1))).getLsbD 31 = sa →
        (s.mem.readWord (argB s + (argN s - 1))).getLsbD 31 = sb →
        (sa = true → sb = false → t.res0 = 0xFFFFFFFF) ∧
        (sa = false → sb = true → t.res0 = 1) ∧
        (sa = sb → memRead s (argA s) (argN s) = memRead s (argB s) (argN s) → t.res0 = 0) ∧
        (sa = sb → memRead s (argA s) (argN s) < memRead s (argB s) (argN s) →
          t.res0 = if sa then 1 else 0xFFFFFFFF) ∧
        (sa = sb → memRead s (argB s) (argN s) < memRead s (argA s) (argN s) →
          t.res0 = if sa then 0xFFFFFFFF else 1))

/-- R205, R206: over operands of one word count, CMPU and CMPS are antisymmetric and transitive, and 0 exactly for equal
operands. -/
def Obligations.ComparisonsAreTotalOrders : Prop :=
  ∀ a b c : List Word, a.length = b.length → b.length = c.length →
    (cmpu b a = -(cmpu a b) ∧ (cmpu a b = 0 ↔ a = b) ∧
      (cmpu a b = 0xFFFFFFFF → cmpu b c = 0xFFFFFFFF → cmpu a c = 0xFFFFFFFF)) ∧
    (cmps b a = -(cmps a b) ∧ (cmps a b = 0 ↔ a = b) ∧
      (cmps a b = 0xFFFFFFFF → cmps b c = 0xFFFFFFFF → cmps a c = 0xFFFFFFFF))

/-! ### Float -/

/-- R216: FPACK: with k the bit width of the mantissa m, M its top 24 bits and E = e + k + 126 the biased exponent, the
pattern is a signed zero, infinity, a normal or a truncated subnormal. -/
def Obligations.FpackPacksTruncated : Prop :=
  decode 0x00000040 = .ok .fpack ∧
  ∀ s : State, ∃ t, exec .fpack s = .next t ∧ onlyRes0 s t ∧
    (s.latch.opa = 0 → t.res0.toNat = 2 ^ 31 * (s.latch.opc.getLsbD 0).toNat) ∧
    (∀ (k M : Nat) (E : Int), 1 ≤ k → 2 ^ (k - 1) ≤ s.latch.opa.toNat → s.latch.opa.toNat < 2 ^ k →
      M = s.latch.opa.toNat * 2 ^ 24 / 2 ^ k → E = s.latch.opb.toInt + k + 126 →
      (255 ≤ E → t.res0.toNat = 2 ^ 31 * (s.latch.opc.getLsbD 0).toNat + 0x7F800000) ∧
      (1 ≤ E → E ≤ 254 →
        t.res0.toNat = 2 ^ 31 * (s.latch.opc.getLsbD 0).toNat + 2 ^ 23 * E.toNat + (M - 2 ^ 23)) ∧
      (E ≤ 0 → t.res0.toNat = 2 ^ 31 * (s.latch.opc.getLsbD 0).toNat + M / 2 ^ (1 - E).toNat))

/-- R217: FUNPACK, by the class of the pattern: with sg bit 31, E bits 30:23 and F bits 22:0. -/
def Obligations.FunpackClassifies : Prop :=
  decode 0x00000041 = .ok .funpack ∧
  ∀ (s : State) (f sg E F : Nat), f = s.latch.opa.toNat → sg = f / 2 ^ 31 → E = f / 2 ^ 23 % 256 → F = f % 2 ^ 23 →
    ∃ t, exec .funpack s = .next t ∧
      t = { s with res0 := t.res0, res1 := t.res1, res2 := t.res2, status := okStatus s } ∧
      (E = 0 → F = 0 → t.res0 = 0 ∧ t.res1 = 0 ∧ t.res2.toNat = sg) ∧
      (E = 0 → F ≠ 0 → ∃ k : Nat, t.res0.toNat = F * 2 ^ k ∧ 2 ^ 23 ≤ t.res0.toNat ∧ t.res0.toNat < 2 ^ 24 ∧
        t.res1.toInt = -149 - (k : Int) ∧ t.res2.toNat = 2 + sg) ∧
      (1 ≤ E → E ≤ 254 → t.res0.toNat = 2 ^ 23 + F ∧ t.res1.toInt = (E : Int) - 150 ∧ t.res2.toNat = 4 + sg) ∧
      (E = 255 → F = 0 → t.res0 = 0 ∧ t.res1 = 0 ∧ t.res2.toNat = 6 + sg) ∧
      (E = 255 → F ≠ 0 → t.res0.toNat = F ∧ t.res1 = 0 ∧ t.res2.toNat = 8 + sg)

/-- R218: FEXTRACT: the top 32 significant bits of the window's value and their exponent p − 31, where p is the index of
its highest set bit; (0, 0) for the value 0. RES1 never wraps where ADDR_W ≤ 24. -/
def Obligations.FextractTakesTopBits : Prop :=
  decode 0x00000042 = .ok .fextract ∧
  ∀ s : State, fits s (argA s) (argN s) →
    ∃ t, exec .fextract s = .next t ∧ onlyRes01 s t ∧
      (memRead s (argA s) (argN s) = 0 → t.res0 = 0 ∧ t.res1 = 0) ∧
      (∀ p : Nat, 2 ^ p ≤ memRead s (argA s) (argN s) → memRead s (argA s) (argN s) < 2 ^ (p + 1) →
        (31 ≤ p → t.res0.toNat = memRead s (argA s) (argN s) / 2 ^ (p - 31)) ∧
        (p < 31 → t.res0.toNat = memRead s (argA s) (argN s) * 2 ^ (31 - p)) ∧
        t.res0.getLsbD 31 = true ∧ t.res1 = BitVec.ofInt 32 ((p : Int) - 31) ∧
        (s.cfg.addrW ≤ 24 → t.res1.toInt = (p : Int) - 31))

/-- R219, first law: for every finite pattern f, FPACK applied to RES0, RES1 and RES2 of FUNPACK(f) gives f again. -/
def Obligations.FloatRoundTrip : Prop :=
  ∀ s : State, s.latch.opa.toNat / 2 ^ 23 % 256 ≠ 255 →
    ∃ t u, exec .funpack s = .next t ∧
      exec .fpack { t with latch := { t.latch with opa := t.res0, opb := t.res1, opc := t.res2 } } = .next u ∧
      u.res0 = s.latch.opa

/-! ### Contract violations -/

/-- R55, R250 (CV1), R240: a command that names a window outside DM faults; for a division, when n ≤ DIV_NMAX. That one
whose windows break R56 too faults as CV1 is the model's order (log entry 10). -/
def Obligations.WindowOutsideDmFaults : Prop :=
  ∀ (s : State) (i : Instr) (w : Window), w ∈ windowsOf i s.latch → ¬ fits s w.base w.len →
    (i.isDivision = true → argN s ≤ s.cfg.divNmax) → exec i s = .fault .cv1WindowOutsideDM

/-- R56, R250 (CV2): what the table forbids SUB and DIVMOD faults; what it allows does not stop a command: B as A, a
division whose D and R lie over A and B, and any overlap of windows that are only read. -/
def Obligations.OverlapTable : Prop :=
  (∀ s : State, fits s (argA s) (argN s) → fits s (argB s) (argN s) →
    ((∃ t, exec .sub s = .next t) ↔ (argB s = argA s ∨ apart (argB s) (argN s) (argA s) (argN s))) ∧
    (¬ (argB s = argA s ∨ apart (argB s) (argN s) (argA s) (argN s)) → exec .sub s = .fault .cv2WindowOverlap)) ∧
  (∀ s : State, fits s (argA s) (argN s) → fits s (argB s) (argN s) → fits s (argD s) (argN s) →
    fits s (argR s) (argN s) → argN s ≤ s.cfg.divNmax →
    ((∃ t, exec .divmod s = .next t) ↔ apart (argD s) (argN s) (argR s) (argN s)) ∧
    (¬ apart (argD s) (argN s) (argR s) (argN s) → exec .divmod s = .fault .cv2WindowOverlap) ∧
    (∃ t, exec .div s = .next t) ∧ (∃ t, exec .mod s = .next t)) ∧
  (∀ s : State, ∀ i ∈ [Instr.iszero, .eq, .ne, .cmpu, .cmps, .fextract, .adds, .subs, .not, .shl, .shr],
    (∀ w ∈ windowsOf i s.latch, fits s w.base w.len) → ∃ t, exec i s = .next t)

/-! ### Frames -/

/-- R57, R29: ADD, SUB, ADDS, SUBS, AND, OR, XOR, NOT, SHL and SHR, where they go on, change DM inside window A only, and
of the registers STATUS by complete(OK) only. -/
def Obligations.FrameOfInPlaceCommands : Prop :=
  ∀ (i : Instr) (s t : State), i ∈ [Instr.add, .sub, .adds, .subs, .and, .or, .xor, .not, .shl, .shr] →
    exec i s = .next t → sameOutside s t (argA s) (argN s) ∧ onlyMemory s t

/-- R57, R29: NEG, MULF and MULS, where they go on, change DM inside their D window only (n, 2n and n + 1 words), and of
the registers STATUS by complete(OK) only. -/
def Obligations.FrameOfDestinationCommands : Prop :=
  ∀ s t : State,
    (exec .neg s = .next t → sameOutside s t (argD s) (argN s) ∧ onlyMemory s t) ∧
    (exec .mulf s = .next t → sameOutside s t (argD s) (2 * argN s) ∧ onlyMemory s t) ∧
    (exec .muls s = .next t → sameOutside s t (argD s) (argN s + 1) ∧ onlyMemory s t)

/-- R29, R57: the commands with scalar results write no DM byte, and only the result registers their rules name: NOP
none; ADCW, SBBW, MULW and FEXTRACT RES0 and RES1; FUNPACK all three; the others RES0. -/
def Obligations.FrameOfScalarCommands : Prop :=
  ∀ (i : Instr) (s t : State), exec i s = .next t →
    (i = .nop → t = { s with status := okStatus s }) ∧
    (i ∈ [Instr.msb, .lsb, .popc, .fls, .iszero, .eq, .ne, .cmpu, .cmps, .fpack] → onlyRes0 s t) ∧
    (i ∈ [Instr.adcw, .sbbw, .mulw, .fextract] → onlyRes01 s t) ∧
    (i = .funpack → t = { s with res0 := t.res0, res1 := t.res1, res2 := t.res2, status := okStatus s })

/-- R57, R174, R247: DIV, MOD and DIVMOD, where they go on, leave RES0 to RES2 and every byte outside the windows they
name; with ERR = 0 every byte outside the windows they write; with NRANGE all of DM. Besides DM and STATUS only two fields
that no host reads may change: the scratch, which is kept or released (R34; log entry 4), and the model's own counter of
free draws, by at most one (log entry 8). -/
def Obligations.FrameOfDivisions : Prop :=
  ∀ (i : Instr) (s t : State), i ∈ [Instr.div, .mod, .divmod] → exec i s = .next t →
    t = { s with mem := t.mem, status := t.status, scratch := t.scratch, draws := t.draws } ∧
    (t.scratch = s.scratch ∨ t.scratch = Scratch.empty) ∧
    (t.draws = s.draws ∨ t.status.err = .div0 ∧ t.draws = s.draws + 1) ∧
    (∀ c, (∀ w ∈ windowsOf i s.latch, ¬ (4 * w.base ≤ c ∧ c < 4 * (w.base + w.len))) →
      t.mem.readByte c = s.mem.readByte c) ∧
    (t.status.err = .ok → ∀ c, (∀ w ∈ writtenBy i s.latch, ¬ (4 * w.base ≤ c ∧ c < 4 * (w.base + w.len))) →
      t.mem.readByte c = s.mem.readByte c) ∧
    (t.status.err = .nrange → t.mem = s.mem)

/-! ### Whole-machine rules -/

/-- R242, R284: whatever the command, completion clears BUSY, sets ERR, sets the sticky bit of an error, keeps every
other sticky bit; only a division ends with DIV0 or NRANGE; and no command writes an argument register, a parameter,
anything of the host or the record of its duty. -/
def Obligations.CompletionAndArguments : Prop :=
  ∀ (i : Instr) (s t : State), exec i s = .next t →
    t.status.busy = false ∧ t.status.err ≠ .illegal ∧
    t.status.sDiv0 = (s.status.sDiv0 || (t.status.err == .div0)) ∧
    t.status.sNrange = (s.status.sNrange || (t.status.err == .nrange)) ∧
    t.status.sIll = s.status.sIll ∧ t.status.sOvr = s.status.sOvr ∧
    (t.status.err ≠ .ok → i.isDivision = true) ∧
    t.args = s.args ∧ t.cfg = s.cfg ∧ t.host = s.host ∧ t.faultMark = s.faultMark ∧ t.waitDue = s.waitDue

/-- R21, R55 (the canonical form is the model's own, log entry 1): every step keeps memory in canonical form and listing
only bytes of DM words that exist, and keeps the parameters. -/
def Obligations.StepKeepsMemory : Prop :=
  ∀ s t : State, s.memoryOk = true → step s = .next t → t.memoryOk = true ∧ t.cfg = s.cfg

/-- R20, R57, R243: from a state with BUSY = 0, S_OVR = 0 and no scratch held, every step leads to one: a command
completes in the step that accepts it, and S_OVR stays 0. That no scratch held is empty scratch is log entry 4. -/
def Obligations.StepKeepsQuiescence : Prop :=
  ∀ s t : State, s.quiescent = true → step s = .next t → t.quiescent = true

/-! ### The host -/

/-- R78, R80, R281: the host's position is the only program counter: a label passes, a `goto` and an `if … goto` whose test
holds go to the label's place, one whose test fails passes, and `wait` ends the host's duty; nothing else of the state
changes. With BUSY = 1 (log entry 9) a `wait` ends when the command in progress has completed. The model's choices: the
first place counts where a label stands twice, and a bit above 31 is 0 (log entry 15); a line with an unbound name or an
unknown label is refused (log entry 14). -/
def Obligations.HostControlFlow : Prop :=
  ∀ s : State,
    (∀ l, ready s (.label l) → step s = .next { s with host := hostAfter s }) ∧
    (∀ l k, ready s (.goto l) → labelAt s l k → step s = .next { s with host := { s.host with pos := k } }) ∧
    (∀ c l k, ready s (.gotoIf c l) → testHolds s c → labelAt s l k →
      step s = .next { s with host := { s.host with pos := k } }) ∧
    (∀ c l, ready s (.gotoIf c l) → testFails s c → step s = .next { s with host := hostAfter s }) ∧
    (ready s .wait → s.status.busy = false → step s = .next { s with waitDue := false, host := hostAfter s }) ∧
    (ready s .wait → s.status.busy = true → ∀ i, decode s.command = .ok i →
      step s = onNext (exec i { s with waitDue := true }) (fun t => { t with waitDue := false, host := hostAfter t })) ∧
    (∀ l, (ready s (.goto l) ∨ ∃ c, ready s (.gotoIf c l) ∧ testHolds s c) → HostOp.label l ∉ s.host.program →
      step s = .refused .unknownLabel) ∧
    (∀ c l, ready s (.gotoIf c l) → ¬ testHolds s c → ¬ testFails s c → step s = .refused .unboundName) ∧
    (∀ v, s.evalValue v = none →
      ((∃ width addr, ready s (.write width addr v)) ∨ ∃ a, ready s (.dmWrite a v)) → step s = .refused .unboundName)
end

