-- ==== Sys2Proof/Laws/Memory.lean ====
section
/-! SUPPORT. The laws of data memory: a read after a write, what a write leaves alone, the canonical form, and the
values of word lists. -/
namespace Sys2Proof.Machine

open Sys2Proof

/-! ### Sorted maps -/

theorem find_insert_same {α : Type} (m : List (Nat × α)) (a : Nat) (b : α) :
    SortedMap.find? (SortedMap.insert m a b) a = some b := by
  induction m with
  | nil => simp [SortedMap.insert, SortedMap.find?]
  | cons c m ih =>
    obtain ⟨k, c⟩ := c
    simp only [SortedMap.insert]
    split
    · simp [SortedMap.find?]
    · split
      · simp [SortedMap.find?]
      · next h1 h2 => simp [SortedMap.find?, ih, Ne.symm h2]

theorem find_insert_other {α : Type} (m : List (Nat × α)) {a c : Nat} (b : α) (h : c ≠ a) :
    SortedMap.find? (SortedMap.insert m a b) c = SortedMap.find? m c := by
  induction m with
  | nil => simp [SortedMap.insert, SortedMap.find?, Ne.symm h]
  | cons d m ih =>
    obtain ⟨k, d⟩ := d
    simp only [SortedMap.insert]
    split
    · simp [SortedMap.find?, Ne.symm h]
    · split
      · next h1 h2 => subst h2; simp [SortedMap.find?, Ne.symm h]
      · simp only [SortedMap.find?, ih]

theorem sorted_tail {α : Type} {c : Nat × α} {m : List (Nat × α)} (h : SortedMap.sorted (c :: m) = true) :
    SortedMap.sorted m = true := by
  cases m with
  | nil => rfl
  | cons d m =>
    obtain ⟨k, c⟩ := c
    obtain ⟨l, d⟩ := d
    simp only [SortedMap.sorted, Bool.and_eq_true] at h
    exact h.2

theorem sorted_cons {α : Type} (k : Nat) (c : α) (m : List (Nat × α)) :
    SortedMap.sorted ((k, c) :: m) = true ↔ (∀ d ∈ m.head?, k < d.1) ∧ SortedMap.sorted m = true := by
  cases m with
  | nil => simp [SortedMap.sorted]
  | cons d m =>
    obtain ⟨l, d⟩ := d
    simp [SortedMap.sorted]

theorem sorted_insert {α : Type} (m : List (Nat × α)) (a : Nat) (b : α) (h : SortedMap.sorted m = true) :
    SortedMap.sorted (SortedMap.insert m a b) = true := by
  induction m with
  | nil => simp [SortedMap.insert, SortedMap.sorted]
  | cons c m ih =>
    obtain ⟨k, c⟩ := c
    have hm := ih (sorted_tail h)
    have hk := (sorted_cons k c m).1 h
    simp only [SortedMap.insert]
    split
    · next h1 => exact (sorted_cons a b _).2 ⟨by simpa using h1, h⟩
    · split
      · next h2 => subst h2; exact (sorted_cons a b _).2 hk
      · next h1 h2 =>
        refine (sorted_cons k c _).2 ⟨?_, hm⟩
        intro d hd
        cases m with
        | nil =>
          simp only [SortedMap.insert, List.head?_cons, Option.mem_def, Option.some.injEq] at hd
          subst hd
          exact Nat.lt_of_le_of_ne (Nat.le_of_not_lt h1) (Ne.symm h2)
        | cons e m =>
          obtain ⟨l, e⟩ := e
          have hl : k < l := hk.1 (l, e) (by simp)
          simp only [SortedMap.insert] at hd
          split at hd
          · simp only [List.head?_cons, Option.mem_def, Option.some.injEq] at hd
            subst hd
            exact Nat.lt_of_le_of_ne (Nat.le_of_not_lt h1) (Ne.symm h2)
          · split at hd
            · simp only [List.head?_cons, Option.mem_def, Option.some.injEq] at hd
              subst hd
              exact Nat.lt_of_le_of_ne (Nat.le_of_not_lt h1) (Ne.symm h2)
            · simp only [List.head?_cons, Option.mem_def, Option.some.injEq] at hd
              subst hd
              exact hl

theorem all_insert {α : Type} (p : Nat × α → Bool) (m : List (Nat × α)) (a : Nat) (b : α) (h : m.all p = true)
    (hb : p (a, b) = true) : (SortedMap.insert m a b).all p = true := by
  induction m with
  | nil => simpa [SortedMap.insert] using hb
  | cons c m ih =>
    obtain ⟨k, c⟩ := c
    simp only [List.all_cons, Bool.and_eq_true] at h
    simp only [SortedMap.insert]
    split
    · simp [hb, h.1, h.2]
    · split
      · simp [hb, h.2]
      · simp [h.1, ih h.2]

/-! ### Bytes and words -/

theorem readByte_writeByte_same (m : Memory) (a : Nat) (b : Byte) : (m.writeByte a b).readByte a = b := by
  simp [Memory.readByte, Memory.writeByte, find_insert_same]

theorem readByte_writeByte_other (m : Memory) {a c : Nat} (b : Byte) (h : c ≠ a) :
    (m.writeByte a b).readByte c = m.readByte c := by
  simp [Memory.readByte, Memory.writeByte, find_insert_other m b h]

/-- A byte outside word `a` keeps its value when word `a` is written. -/
theorem readByte_writeWord_other (m : Memory) {a c : Nat} (w : Word) (h : c / 4 ≠ a) :
    (m.writeWord a w).readByte c = m.readByte c := by
  have h0 : c ≠ 4 * a := by omega
  have h1 : c ≠ 4 * a + 1 := by omega
  have h2 : c ≠ 4 * a + 2 := by omega
  have h3 : c ≠ 4 * a + 3 := by omega
  simp only [Memory.writeWord, readByte_writeByte_other _ _ h0, readByte_writeByte_other _ _ h1,
    readByte_writeByte_other _ _ h2, readByte_writeByte_other _ _ h3]

/-- The four bytes of a word, put back together. -/
theorem bytes_append (w : Word) : byteOf w 3 ++ byteOf w 2 ++ byteOf w 1 ++ byteOf w 0 = w := by
  simp only [byteOf]
  ext i hi
  simp only [BitVec.getElem_append, BitVec.getElem_extractLsb']
  split
  · simp [BitVec.getLsbD_eq_getElem hi]
  · split
    · next h1 h2 => rw [show 8 * 1 + (i - 8) = i by omega, BitVec.getLsbD_eq_getElem hi]
    · split
      · next h1 h2 h3 => rw [show 8 * 2 + (i - 8 - 8) = i by omega, BitVec.getLsbD_eq_getElem hi]
      · next h1 h2 h3 => rw [show 8 * 3 + (i - 8 - 8 - 8) = i by omega, BitVec.getLsbD_eq_getElem hi]

theorem readWord_writeWord_same (m : Memory) (a : Nat) (w : Word) : (m.writeWord a w).readWord a = w := by
  have e3 : (m.writeWord a w).readByte (4 * a + 3) = byteOf w 3 := readByte_writeByte_same _ _ _
  have e2 : (m.writeWord a w).readByte (4 * a + 2) = byteOf w 2 := by
    rw [Memory.writeWord, readByte_writeByte_other _ _ (by omega), readByte_writeByte_same]
  have e1 : (m.writeWord a w).readByte (4 * a + 1) = byteOf w 1 := by
    rw [Memory.writeWord, readByte_writeByte_other _ _ (by omega), readByte_writeByte_other _ _ (by omega),
      readByte_writeByte_same]
  have e0 : (m.writeWord a w).readByte (4 * a) = byteOf w 0 := by
    rw [Memory.writeWord, readByte_writeByte_other _ _ (by omega), readByte_writeByte_other _ _ (by omega),
      readByte_writeByte_other _ _ (by omega), readByte_writeByte_same]
  rw [Memory.readWord, e3, e2, e1, e0, bytes_append]

theorem readWord_writeWord_other (m : Memory) {a c : Nat} (w : Word) (h : c ≠ a) :
    (m.writeWord a w).readWord c = m.readWord c := by
  simp only [Memory.readWord]
  rw [readByte_writeWord_other, readByte_writeWord_other, readByte_writeWord_other, readByte_writeWord_other] <;> omega

/-! ### Windows -/

@[simp] theorem readWords_length (m : Memory) (a n : Nat) : (m.readWords a n).length = n := by
  induction n generalizing a with
  | zero => rfl
  | succ n ih => simp [Memory.readWords, ih]

theorem readWords_getElem? (m : Memory) (a n i : Nat) (h : i < n) : (m.readWords a n)[i]? = some (m.readWord (a + i)) := by
  induction n generalizing a i with
  | zero => omega
  | succ n ih =>
    cases i with
    | zero => simp [Memory.readWords]
    | succ i => simp [Memory.readWords, ih (a + 1) i (by omega), Nat.add_assoc, Nat.add_comm 1 i]

/-- A byte outside the words written keeps its value. -/
theorem readByte_writeWords_other (m : Memory) (a c : Nat) (ws : List Word) (h : c / 4 < a ∨ a + ws.length ≤ c / 4) :
    (m.writeWords a ws).readByte c = m.readByte c := by
  induction ws generalizing m a with
  | nil => rfl
  | cons w ws ih =>
    simp only [List.length_cons] at h
    rw [Memory.writeWords, ih _ _ (by omega), readByte_writeWord_other _ _ (by omega)]

/-- A word outside the words written keeps its value. -/
theorem readWord_writeWords_other (m : Memory) (a c : Nat) (ws : List Word) (h : c < a ∨ a + ws.length ≤ c) :
    (m.writeWords a ws).readWord c = m.readWord c := by
  induction ws generalizing m a with
  | nil => rfl
  | cons w ws ih =>
    simp only [List.length_cons] at h
    rw [Memory.writeWords, ih _ _ (by omega), readWord_writeWord_other _ _ (by omega)]

/-- A word written reads as what was written. -/
theorem readWord_writeWords_same (m : Memory) (a i : Nat) (ws : List Word) (h : i < ws.length) :
    (m.writeWords a ws).readWord (a + i) = ws[i] := by
  induction ws generalizing m a i with
  | nil => simp at h
  | cons w ws ih =>
    cases i with
    | zero =>
      rw [Memory.writeWords, readWord_writeWords_other _ _ _ _ (by omega)]
      simp [readWord_writeWord_same]
    | succ i =>
      rw [Memory.writeWords, show a + (i + 1) = a + 1 + i by omega, ih _ _ _ (by simpa using h)]
      simp

/-- A window written reads back as what was written. -/
theorem readWords_writeWords_same (m : Memory) (a : Nat) (ws : List Word) :
    (m.writeWords a ws).readWords a ws.length = ws := by
  induction ws generalizing m a with
  | nil => rfl
  | cons w ws ih =>
    simp only [List.length_cons, Memory.readWords, Memory.writeWords]
    rw [ih, readWord_writeWords_other _ _ _ _ (by omega), readWord_writeWord_same]

/-- A window apart from the words written keeps its words. -/
theorem readWords_writeWords_other (m : Memory) (a c n : Nat) (ws : List Word)
    (h : n = 0 ∨ ws.length = 0 ∨ c + n ≤ a ∨ a + ws.length ≤ c) :
    (m.writeWords a ws).readWords c n = m.readWords c n := by
  induction n generalizing c with
  | zero => rfl
  | succ n ih =>
    have hw : (m.writeWords a ws).readWord c = m.readWord c := by
      cases ws with
      | nil => rfl
      | cons w ws => exact readWord_writeWords_other _ _ _ _ (by simp only [List.length_cons] at h ⊢; omega)
    rw [Memory.readWords, Memory.readWords, hw, ih (c + 1) (by omega)]

/-! ### The canonical form -/

theorem writeByte_wf (m : Memory) (a : Nat) (b : Byte) (h : m.wf = true) : (m.writeByte a b).wf = true :=
  sorted_insert m a b h

theorem writeWord_wf (m : Memory) (a : Nat) (w : Word) (h : m.wf = true) : (m.writeWord a w).wf = true :=
  writeByte_wf _ _ _ (writeByte_wf _ _ _ (writeByte_wf _ _ _ (writeByte_wf _ _ _ h)))

/-- Every memory operation keeps the canonical form. -/
theorem writeWords_wf (m : Memory) (a : Nat) (ws : List Word) (h : m.wf = true) : (m.writeWords a ws).wf = true := by
  induction ws generalizing m a with
  | nil => exact h
  | cons w ws ih => exact ih _ _ (writeWord_wf m a w h)

theorem writeByte_inDM (m : Memory) (n a : Nat) (b : Byte) (h : m.inDM n = true) (ha : a < 4 * n) :
    (m.writeByte a b).inDM n = true :=
  all_insert _ m a b h (by simpa using ha)

theorem writeWord_inDM (m : Memory) (n a : Nat) (w : Word) (h : m.inDM n = true) (ha : a < n) :
    (m.writeWord a w).inDM n = true :=
  writeByte_inDM _ _ _ _ (writeByte_inDM _ _ _ _ (writeByte_inDM _ _ _ _ (writeByte_inDM _ _ _ _ h (by omega))
    (by omega)) (by omega)) (by omega)

/-- Words written inside DM leave memory listing DM bytes only. -/
theorem writeWords_inDM (m : Memory) (n a : Nat) (ws : List Word) (h : m.inDM n = true)
    (ha : ws.length = 0 ∨ a + ws.length ≤ n) : (m.writeWords a ws).inDM n = true := by
  induction ws generalizing m a with
  | nil => exact h
  | cons w ws ih =>
    simp only [List.length_cons] at ha
    exact ih _ _ (writeWord_inDM m n a w h (by omega)) (by omega)

/-! ### Values -/

@[simp] theorem wordsOf_length (n v : Nat) : (wordsOf n v).length = n := by
  induction n generalizing v with
  | zero => rfl
  | succ n ih => simp [wordsOf, ih]

theorem valueOf_lt (ws : List Word) : valueOf ws < 2 ^ (32 * ws.length) := by
  induction ws with
  | nil => simp [valueOf]
  | cons w ws ih =>
    have hw := w.isLt
    have e : 2 ^ (32 * (w :: ws).length) = 2 ^ 32 * 2 ^ (32 * ws.length) := by
      rw [← Nat.pow_add]; simp; omega
    rw [valueOf, e]
    generalize 2 ^ (32 * ws.length) = p at *
    nlinarith

/-- R12: `MemWrite` stores `v mod 2^(32n)`. -/
theorem valueOf_wordsOf (n v : Nat) : valueOf (wordsOf n v) = v % 2 ^ (32 * n) := by
  induction n generalizing v with
  | zero => simp [wordsOf, valueOf, Nat.mod_one]
  | succ n ih =>
    have e : 2 ^ (32 * (n + 1)) = 2 ^ 32 * 2 ^ (32 * n) := by rw [← Nat.pow_add]; congr 1; omega
    rw [wordsOf, valueOf, ih, BitVec.toNat_ofNat, e, Nat.mod_mul]

/-- The words of a value are determined by it. -/
theorem wordsOf_valueOf (ws : List Word) : wordsOf ws.length (valueOf ws) = ws := by
  induction ws with
  | nil => rfl
  | cons w ws ih =>
    have hw := w.isLt
    have hd : (w.toNat + 2 ^ 32 * valueOf ws) / 2 ^ 32 = valueOf ws := by omega
    rw [List.length_cons, valueOf, wordsOf, hd, ih]
    congr 1
    apply BitVec.eq_of_toNat_eq
    rw [BitVec.toNat_ofNat]
    omega

theorem valueOf_append (xs ys : List Word) : valueOf (xs ++ ys) = valueOf xs + 2 ^ (32 * xs.length) * valueOf ys := by
  induction xs with
  | nil => simp [valueOf]
  | cons x xs ih =>
    have e : 2 ^ (32 * (x :: xs).length) = 2 ^ 32 * 2 ^ (32 * xs.length) := by
      rw [← Nat.pow_add]; simp; omega
    rw [List.cons_append, valueOf, valueOf, ih, e]
    ring

end Sys2Proof.Machine
end

