-- ==== Sys2Proof/Laws/State.lean ====
section
/-! SUPPORT. One lemma per field per update of State, true by rfl, so that no proof unfolds a record update. -/
namespace Sys2Proof.Machine

open Sys2Proof

/-! ### accept -/

@[simp] theorem accept_cfg (s : State) (w : Word) :
    (s.accept w).cfg = s.cfg := rfl
@[simp] theorem accept_mem (s : State) (w : Word) :
    (s.accept w).mem = s.mem := rfl
@[simp] theorem accept_args (s : State) (w : Word) :
    (s.accept w).args = s.args := rfl
@[simp] theorem accept_res0 (s : State) (w : Word) :
    (s.accept w).res0 = s.res0 := rfl
@[simp] theorem accept_res1 (s : State) (w : Word) :
    (s.accept w).res1 = s.res1 := rfl
@[simp] theorem accept_res2 (s : State) (w : Word) :
    (s.accept w).res2 = s.res2 := rfl
@[simp] theorem accept_status (s : State) (w : Word) :
    (s.accept w).status = { s.status with busy := true } := rfl
@[simp] theorem accept_latch (s : State) (w : Word) :
    (s.accept w).latch = s.args := rfl
@[simp] theorem accept_command (s : State) (w : Word) :
    (s.accept w).command = w := rfl
@[simp] theorem accept_scratch (s : State) (w : Word) :
    (s.accept w).scratch = s.scratch := rfl
@[simp] theorem accept_draws (s : State) (w : Word) :
    (s.accept w).draws = s.draws := rfl
@[simp] theorem accept_waitDue (s : State) (w : Word) :
    (s.accept w).waitDue = true := rfl
@[simp] theorem accept_faultMark (s : State) (w : Word) :
    (s.accept w).faultMark = s.faultMark := rfl
@[simp] theorem accept_resetLine (s : State) (w : Word) :
    (s.accept w).resetLine = s.resetLine := rfl
@[simp] theorem accept_host (s : State) (w : Word) :
    (s.accept w).host = s.host := rfl

/-! ### complete -/

@[simp] theorem complete_cfg (s : State) (e : ErrCode) :
    (s.complete e).cfg = s.cfg := rfl
@[simp] theorem complete_mem (s : State) (e : ErrCode) :
    (s.complete e).mem = s.mem := rfl
@[simp] theorem complete_args (s : State) (e : ErrCode) :
    (s.complete e).args = s.args := rfl
@[simp] theorem complete_res0 (s : State) (e : ErrCode) :
    (s.complete e).res0 = s.res0 := rfl
@[simp] theorem complete_res1 (s : State) (e : ErrCode) :
    (s.complete e).res1 = s.res1 := rfl
@[simp] theorem complete_res2 (s : State) (e : ErrCode) :
    (s.complete e).res2 = s.res2 := rfl
@[simp] theorem complete_status (s : State) (e : ErrCode) :
    (s.complete e).status = s.status.complete e := rfl
@[simp] theorem complete_latch (s : State) (e : ErrCode) :
    (s.complete e).latch = s.latch := rfl
@[simp] theorem complete_command (s : State) (e : ErrCode) :
    (s.complete e).command = s.command := rfl
@[simp] theorem complete_scratch (s : State) (e : ErrCode) :
    (s.complete e).scratch = s.scratch := rfl
@[simp] theorem complete_draws (s : State) (e : ErrCode) :
    (s.complete e).draws = s.draws := rfl
@[simp] theorem complete_waitDue (s : State) (e : ErrCode) :
    (s.complete e).waitDue = s.waitDue := rfl
@[simp] theorem complete_faultMark (s : State) (e : ErrCode) :
    (s.complete e).faultMark = s.faultMark := rfl
@[simp] theorem complete_resetLine (s : State) (e : ErrCode) :
    (s.complete e).resetLine = s.resetLine := rfl
@[simp] theorem complete_host (s : State) (e : ErrCode) :
    (s.complete e).host = s.host := rfl

/-! ### overrun -/

@[simp] theorem overrun_cfg (s : State) :
    (s.overrun).cfg = s.cfg := rfl
@[simp] theorem overrun_mem (s : State) :
    (s.overrun).mem = s.mem := rfl
@[simp] theorem overrun_args (s : State) :
    (s.overrun).args = s.args := rfl
@[simp] theorem overrun_res0 (s : State) :
    (s.overrun).res0 = s.res0 := rfl
@[simp] theorem overrun_res1 (s : State) :
    (s.overrun).res1 = s.res1 := rfl
@[simp] theorem overrun_res2 (s : State) :
    (s.overrun).res2 = s.res2 := rfl
@[simp] theorem overrun_status (s : State) :
    (s.overrun).status = s.status.overrun := rfl
@[simp] theorem overrun_latch (s : State) :
    (s.overrun).latch = s.latch := rfl
@[simp] theorem overrun_command (s : State) :
    (s.overrun).command = s.command := rfl
@[simp] theorem overrun_scratch (s : State) :
    (s.overrun).scratch = s.scratch := rfl
@[simp] theorem overrun_draws (s : State) :
    (s.overrun).draws = s.draws := rfl
@[simp] theorem overrun_waitDue (s : State) :
    (s.overrun).waitDue = true := rfl
@[simp] theorem overrun_faultMark (s : State) :
    (s.overrun).faultMark = s.faultMark := rfl
@[simp] theorem overrun_resetLine (s : State) :
    (s.overrun).resetLine = s.resetLine := rfl
@[simp] theorem overrun_host (s : State) :
    (s.overrun).host = s.host := rfl

/-! ### setWaitDue -/

@[simp] theorem setWaitDue_cfg (s : State) (b : Bool) :
    (s.setWaitDue b).cfg = s.cfg := rfl
@[simp] theorem setWaitDue_mem (s : State) (b : Bool) :
    (s.setWaitDue b).mem = s.mem := rfl
@[simp] theorem setWaitDue_args (s : State) (b : Bool) :
    (s.setWaitDue b).args = s.args := rfl
@[simp] theorem setWaitDue_res0 (s : State) (b : Bool) :
    (s.setWaitDue b).res0 = s.res0 := rfl
@[simp] theorem setWaitDue_res1 (s : State) (b : Bool) :
    (s.setWaitDue b).res1 = s.res1 := rfl
@[simp] theorem setWaitDue_res2 (s : State) (b : Bool) :
    (s.setWaitDue b).res2 = s.res2 := rfl
@[simp] theorem setWaitDue_status (s : State) (b : Bool) :
    (s.setWaitDue b).status = s.status := rfl
@[simp] theorem setWaitDue_latch (s : State) (b : Bool) :
    (s.setWaitDue b).latch = s.latch := rfl
@[simp] theorem setWaitDue_command (s : State) (b : Bool) :
    (s.setWaitDue b).command = s.command := rfl
@[simp] theorem setWaitDue_scratch (s : State) (b : Bool) :
    (s.setWaitDue b).scratch = s.scratch := rfl
@[simp] theorem setWaitDue_draws (s : State) (b : Bool) :
    (s.setWaitDue b).draws = s.draws := rfl
@[simp] theorem setWaitDue_waitDue (s : State) (b : Bool) :
    (s.setWaitDue b).waitDue = b := rfl
@[simp] theorem setWaitDue_faultMark (s : State) (b : Bool) :
    (s.setWaitDue b).faultMark = s.faultMark := rfl
@[simp] theorem setWaitDue_resetLine (s : State) (b : Bool) :
    (s.setWaitDue b).resetLine = s.resetLine := rfl
@[simp] theorem setWaitDue_host (s : State) (b : Bool) :
    (s.setWaitDue b).host = s.host := rfl

/-! ### setRes0 -/

@[simp] theorem setRes0_cfg (s : State) (v : Word) :
    (s.setRes0 v).cfg = s.cfg := rfl
@[simp] theorem setRes0_mem (s : State) (v : Word) :
    (s.setRes0 v).mem = s.mem := rfl
@[simp] theorem setRes0_args (s : State) (v : Word) :
    (s.setRes0 v).args = s.args := rfl
@[simp] theorem setRes0_res0 (s : State) (v : Word) :
    (s.setRes0 v).res0 = v := rfl
@[simp] theorem setRes0_res1 (s : State) (v : Word) :
    (s.setRes0 v).res1 = s.res1 := rfl
@[simp] theorem setRes0_res2 (s : State) (v : Word) :
    (s.setRes0 v).res2 = s.res2 := rfl
@[simp] theorem setRes0_status (s : State) (v : Word) :
    (s.setRes0 v).status = s.status := rfl
@[simp] theorem setRes0_latch (s : State) (v : Word) :
    (s.setRes0 v).latch = s.latch := rfl
@[simp] theorem setRes0_command (s : State) (v : Word) :
    (s.setRes0 v).command = s.command := rfl
@[simp] theorem setRes0_scratch (s : State) (v : Word) :
    (s.setRes0 v).scratch = s.scratch := rfl
@[simp] theorem setRes0_draws (s : State) (v : Word) :
    (s.setRes0 v).draws = s.draws := rfl
@[simp] theorem setRes0_waitDue (s : State) (v : Word) :
    (s.setRes0 v).waitDue = s.waitDue := rfl
@[simp] theorem setRes0_faultMark (s : State) (v : Word) :
    (s.setRes0 v).faultMark = s.faultMark := rfl
@[simp] theorem setRes0_resetLine (s : State) (v : Word) :
    (s.setRes0 v).resetLine = s.resetLine := rfl
@[simp] theorem setRes0_host (s : State) (v : Word) :
    (s.setRes0 v).host = s.host := rfl

/-! ### setRes1 -/

@[simp] theorem setRes1_cfg (s : State) (v : Word) :
    (s.setRes1 v).cfg = s.cfg := rfl
@[simp] theorem setRes1_mem (s : State) (v : Word) :
    (s.setRes1 v).mem = s.mem := rfl
@[simp] theorem setRes1_args (s : State) (v : Word) :
    (s.setRes1 v).args = s.args := rfl
@[simp] theorem setRes1_res0 (s : State) (v : Word) :
    (s.setRes1 v).res0 = s.res0 := rfl
@[simp] theorem setRes1_res1 (s : State) (v : Word) :
    (s.setRes1 v).res1 = v := rfl
@[simp] theorem setRes1_res2 (s : State) (v : Word) :
    (s.setRes1 v).res2 = s.res2 := rfl
@[simp] theorem setRes1_status (s : State) (v : Word) :
    (s.setRes1 v).status = s.status := rfl
@[simp] theorem setRes1_latch (s : State) (v : Word) :
    (s.setRes1 v).latch = s.latch := rfl
@[simp] theorem setRes1_command (s : State) (v : Word) :
    (s.setRes1 v).command = s.command := rfl
@[simp] theorem setRes1_scratch (s : State) (v : Word) :
    (s.setRes1 v).scratch = s.scratch := rfl
@[simp] theorem setRes1_draws (s : State) (v : Word) :
    (s.setRes1 v).draws = s.draws := rfl
@[simp] theorem setRes1_waitDue (s : State) (v : Word) :
    (s.setRes1 v).waitDue = s.waitDue := rfl
@[simp] theorem setRes1_faultMark (s : State) (v : Word) :
    (s.setRes1 v).faultMark = s.faultMark := rfl
@[simp] theorem setRes1_resetLine (s : State) (v : Word) :
    (s.setRes1 v).resetLine = s.resetLine := rfl
@[simp] theorem setRes1_host (s : State) (v : Word) :
    (s.setRes1 v).host = s.host := rfl

/-! ### setRes2 -/

@[simp] theorem setRes2_cfg (s : State) (v : Word) :
    (s.setRes2 v).cfg = s.cfg := rfl
@[simp] theorem setRes2_mem (s : State) (v : Word) :
    (s.setRes2 v).mem = s.mem := rfl
@[simp] theorem setRes2_args (s : State) (v : Word) :
    (s.setRes2 v).args = s.args := rfl
@[simp] theorem setRes2_res0 (s : State) (v : Word) :
    (s.setRes2 v).res0 = s.res0 := rfl
@[simp] theorem setRes2_res1 (s : State) (v : Word) :
    (s.setRes2 v).res1 = s.res1 := rfl
@[simp] theorem setRes2_res2 (s : State) (v : Word) :
    (s.setRes2 v).res2 = v := rfl
@[simp] theorem setRes2_status (s : State) (v : Word) :
    (s.setRes2 v).status = s.status := rfl
@[simp] theorem setRes2_latch (s : State) (v : Word) :
    (s.setRes2 v).latch = s.latch := rfl
@[simp] theorem setRes2_command (s : State) (v : Word) :
    (s.setRes2 v).command = s.command := rfl
@[simp] theorem setRes2_scratch (s : State) (v : Word) :
    (s.setRes2 v).scratch = s.scratch := rfl
@[simp] theorem setRes2_draws (s : State) (v : Word) :
    (s.setRes2 v).draws = s.draws := rfl
@[simp] theorem setRes2_waitDue (s : State) (v : Word) :
    (s.setRes2 v).waitDue = s.waitDue := rfl
@[simp] theorem setRes2_faultMark (s : State) (v : Word) :
    (s.setRes2 v).faultMark = s.faultMark := rfl
@[simp] theorem setRes2_resetLine (s : State) (v : Word) :
    (s.setRes2 v).resetLine = s.resetLine := rfl
@[simp] theorem setRes2_host (s : State) (v : Word) :
    (s.setRes2 v).host = s.host := rfl

/-! ### storeWords -/

@[simp] theorem storeWords_cfg (s : State) (w : Window) (ws : List Word) :
    (s.storeWords w ws).cfg = s.cfg := rfl
@[simp] theorem storeWords_mem (s : State) (w : Window) (ws : List Word) :
    (s.storeWords w ws).mem = s.mem.writeWords w.base ws := rfl
@[simp] theorem storeWords_args (s : State) (w : Window) (ws : List Word) :
    (s.storeWords w ws).args = s.args := rfl
@[simp] theorem storeWords_res0 (s : State) (w : Window) (ws : List Word) :
    (s.storeWords w ws).res0 = s.res0 := rfl
@[simp] theorem storeWords_res1 (s : State) (w : Window) (ws : List Word) :
    (s.storeWords w ws).res1 = s.res1 := rfl
@[simp] theorem storeWords_res2 (s : State) (w : Window) (ws : List Word) :
    (s.storeWords w ws).res2 = s.res2 := rfl
@[simp] theorem storeWords_status (s : State) (w : Window) (ws : List Word) :
    (s.storeWords w ws).status = s.status := rfl
@[simp] theorem storeWords_latch (s : State) (w : Window) (ws : List Word) :
    (s.storeWords w ws).latch = s.latch := rfl
@[simp] theorem storeWords_command (s : State) (w : Window) (ws : List Word) :
    (s.storeWords w ws).command = s.command := rfl
@[simp] theorem storeWords_scratch (s : State) (w : Window) (ws : List Word) :
    (s.storeWords w ws).scratch = s.scratch := rfl
@[simp] theorem storeWords_draws (s : State) (w : Window) (ws : List Word) :
    (s.storeWords w ws).draws = s.draws := rfl
@[simp] theorem storeWords_waitDue (s : State) (w : Window) (ws : List Word) :
    (s.storeWords w ws).waitDue = s.waitDue := rfl
@[simp] theorem storeWords_faultMark (s : State) (w : Window) (ws : List Word) :
    (s.storeWords w ws).faultMark = s.faultMark := rfl
@[simp] theorem storeWords_resetLine (s : State) (w : Window) (ws : List Word) :
    (s.storeWords w ws).resetLine = s.resetLine := rfl
@[simp] theorem storeWords_host (s : State) (w : Window) (ws : List Word) :
    (s.storeWords w ws).host = s.host := rfl

/-! ### store -/

@[simp] theorem store_cfg (s : State) (w : Window) (v : Nat) :
    (s.store w v).cfg = s.cfg := rfl
@[simp] theorem store_mem (s : State) (w : Window) (v : Nat) :
    (s.store w v).mem = s.mem.writeWords w.base (wordsOf w.len v) := rfl
@[simp] theorem store_args (s : State) (w : Window) (v : Nat) :
    (s.store w v).args = s.args := rfl
@[simp] theorem store_res0 (s : State) (w : Window) (v : Nat) :
    (s.store w v).res0 = s.res0 := rfl
@[simp] theorem store_res1 (s : State) (w : Window) (v : Nat) :
    (s.store w v).res1 = s.res1 := rfl
@[simp] theorem store_res2 (s : State) (w : Window) (v : Nat) :
    (s.store w v).res2 = s.res2 := rfl
@[simp] theorem store_status (s : State) (w : Window) (v : Nat) :
    (s.store w v).status = s.status := rfl
@[simp] theorem store_latch (s : State) (w : Window) (v : Nat) :
    (s.store w v).latch = s.latch := rfl
@[simp] theorem store_command (s : State) (w : Window) (v : Nat) :
    (s.store w v).command = s.command := rfl
@[simp] theorem store_scratch (s : State) (w : Window) (v : Nat) :
    (s.store w v).scratch = s.scratch := rfl
@[simp] theorem store_draws (s : State) (w : Window) (v : Nat) :
    (s.store w v).draws = s.draws := rfl
@[simp] theorem store_waitDue (s : State) (w : Window) (v : Nat) :
    (s.store w v).waitDue = s.waitDue := rfl
@[simp] theorem store_faultMark (s : State) (w : Window) (v : Nat) :
    (s.store w v).faultMark = s.faultMark := rfl
@[simp] theorem store_resetLine (s : State) (w : Window) (v : Nat) :
    (s.store w v).resetLine = s.resetLine := rfl
@[simp] theorem store_host (s : State) (w : Window) (v : Nat) :
    (s.store w v).host = s.host := rfl

/-! ### scramble -/

@[simp] theorem scramble_cfg (s : State) (ws : List Window) :
    (s.scramble ws).cfg = s.cfg := rfl
@[simp] theorem scramble_mem (s : State) (ws : List Window) :
    (s.scramble ws).mem = ws.foldl (fun m w => m.draw s.draws w) s.mem := rfl
@[simp] theorem scramble_args (s : State) (ws : List Window) :
    (s.scramble ws).args = s.args := rfl
@[simp] theorem scramble_res0 (s : State) (ws : List Window) :
    (s.scramble ws).res0 = s.res0 := rfl
@[simp] theorem scramble_res1 (s : State) (ws : List Window) :
    (s.scramble ws).res1 = s.res1 := rfl
@[simp] theorem scramble_res2 (s : State) (ws : List Window) :
    (s.scramble ws).res2 = s.res2 := rfl
@[simp] theorem scramble_status (s : State) (ws : List Window) :
    (s.scramble ws).status = s.status := rfl
@[simp] theorem scramble_latch (s : State) (ws : List Window) :
    (s.scramble ws).latch = s.latch := rfl
@[simp] theorem scramble_command (s : State) (ws : List Window) :
    (s.scramble ws).command = s.command := rfl
@[simp] theorem scramble_scratch (s : State) (ws : List Window) :
    (s.scramble ws).scratch = s.scratch := rfl
@[simp] theorem scramble_draws (s : State) (ws : List Window) :
    (s.scramble ws).draws = s.draws + 1 := rfl
@[simp] theorem scramble_waitDue (s : State) (ws : List Window) :
    (s.scramble ws).waitDue = s.waitDue := rfl
@[simp] theorem scramble_faultMark (s : State) (ws : List Window) :
    (s.scramble ws).faultMark = s.faultMark := rfl
@[simp] theorem scramble_resetLine (s : State) (ws : List Window) :
    (s.scramble ws).resetLine = s.resetLine := rfl
@[simp] theorem scramble_host (s : State) (ws : List Window) :
    (s.scramble ws).host = s.host := rfl

/-! ### loadScratch -/

@[simp] theorem loadScratch_cfg (s : State) :
    (s.loadScratch).cfg = s.cfg := rfl
@[simp] theorem loadScratch_mem (s : State) :
    (s.loadScratch).mem = s.mem := rfl
@[simp] theorem loadScratch_args (s : State) :
    (s.loadScratch).args = s.args := rfl
@[simp] theorem loadScratch_res0 (s : State) :
    (s.loadScratch).res0 = s.res0 := rfl
@[simp] theorem loadScratch_res1 (s : State) :
    (s.loadScratch).res1 = s.res1 := rfl
@[simp] theorem loadScratch_res2 (s : State) :
    (s.loadScratch).res2 = s.res2 := rfl
@[simp] theorem loadScratch_status (s : State) :
    (s.loadScratch).status = s.status := rfl
@[simp] theorem loadScratch_latch (s : State) :
    (s.loadScratch).latch = s.latch := rfl
@[simp] theorem loadScratch_command (s : State) :
    (s.loadScratch).command = s.command := rfl
@[simp] theorem loadScratch_scratch (s : State) :
    (s.loadScratch).scratch = { dividend := s.words s.latch.winA ++ [0], divisor := s.words s.latch.winB } := rfl
@[simp] theorem loadScratch_draws (s : State) :
    (s.loadScratch).draws = s.draws := rfl
@[simp] theorem loadScratch_waitDue (s : State) :
    (s.loadScratch).waitDue = s.waitDue := rfl
@[simp] theorem loadScratch_faultMark (s : State) :
    (s.loadScratch).faultMark = s.faultMark := rfl
@[simp] theorem loadScratch_resetLine (s : State) :
    (s.loadScratch).resetLine = s.resetLine := rfl
@[simp] theorem loadScratch_host (s : State) :
    (s.loadScratch).host = s.host := rfl

/-! ### releaseScratch -/

@[simp] theorem releaseScratch_cfg (s : State) :
    (s.releaseScratch).cfg = s.cfg := rfl
@[simp] theorem releaseScratch_mem (s : State) :
    (s.releaseScratch).mem = s.mem := rfl
@[simp] theorem releaseScratch_args (s : State) :
    (s.releaseScratch).args = s.args := rfl
@[simp] theorem releaseScratch_res0 (s : State) :
    (s.releaseScratch).res0 = s.res0 := rfl
@[simp] theorem releaseScratch_res1 (s : State) :
    (s.releaseScratch).res1 = s.res1 := rfl
@[simp] theorem releaseScratch_res2 (s : State) :
    (s.releaseScratch).res2 = s.res2 := rfl
@[simp] theorem releaseScratch_status (s : State) :
    (s.releaseScratch).status = s.status := rfl
@[simp] theorem releaseScratch_latch (s : State) :
    (s.releaseScratch).latch = s.latch := rfl
@[simp] theorem releaseScratch_command (s : State) :
    (s.releaseScratch).command = s.command := rfl
@[simp] theorem releaseScratch_scratch (s : State) :
    (s.releaseScratch).scratch = Scratch.empty := rfl
@[simp] theorem releaseScratch_draws (s : State) :
    (s.releaseScratch).draws = s.draws := rfl
@[simp] theorem releaseScratch_waitDue (s : State) :
    (s.releaseScratch).waitDue = s.waitDue := rfl
@[simp] theorem releaseScratch_faultMark (s : State) :
    (s.releaseScratch).faultMark = s.faultMark := rfl
@[simp] theorem releaseScratch_resetLine (s : State) :
    (s.releaseScratch).resetLine = s.resetLine := rfl
@[simp] theorem releaseScratch_host (s : State) :
    (s.releaseScratch).host = s.host := rfl

/-! ### resetRegisters -/

@[simp] theorem resetRegisters_cfg (s : State) :
    (s.resetRegisters).cfg = s.cfg := rfl
@[simp] theorem resetRegisters_mem (s : State) :
    (s.resetRegisters).mem = s.mem := rfl
@[simp] theorem resetRegisters_args (s : State) :
    (s.resetRegisters).args = Args.zero := rfl
@[simp] theorem resetRegisters_res0 (s : State) :
    (s.resetRegisters).res0 = 0 := rfl
@[simp] theorem resetRegisters_res1 (s : State) :
    (s.resetRegisters).res1 = 0 := rfl
@[simp] theorem resetRegisters_res2 (s : State) :
    (s.resetRegisters).res2 = 0 := rfl
@[simp] theorem resetRegisters_status (s : State) :
    (s.resetRegisters).status = Status.clear := rfl
@[simp] theorem resetRegisters_latch (s : State) :
    (s.resetRegisters).latch = Args.zero := rfl
@[simp] theorem resetRegisters_command (s : State) :
    (s.resetRegisters).command = 0 := rfl
@[simp] theorem resetRegisters_scratch (s : State) :
    (s.resetRegisters).scratch = Scratch.empty := rfl
@[simp] theorem resetRegisters_draws (s : State) :
    (s.resetRegisters).draws = s.draws := rfl
@[simp] theorem resetRegisters_waitDue (s : State) :
    (s.resetRegisters).waitDue = false := rfl
@[simp] theorem resetRegisters_faultMark (s : State) :
    (s.resetRegisters).faultMark = false := rfl
@[simp] theorem resetRegisters_resetLine (s : State) :
    (s.resetRegisters).resetLine = false := rfl
@[simp] theorem resetRegisters_host (s : State) :
    (s.resetRegisters).host = s.host := rfl

/-! ### advance -/

@[simp] theorem advance_cfg (s : State) :
    (s.advance).cfg = s.cfg := rfl
@[simp] theorem advance_mem (s : State) :
    (s.advance).mem = s.mem := rfl
@[simp] theorem advance_args (s : State) :
    (s.advance).args = s.args := rfl
@[simp] theorem advance_res0 (s : State) :
    (s.advance).res0 = s.res0 := rfl
@[simp] theorem advance_res1 (s : State) :
    (s.advance).res1 = s.res1 := rfl
@[simp] theorem advance_res2 (s : State) :
    (s.advance).res2 = s.res2 := rfl
@[simp] theorem advance_status (s : State) :
    (s.advance).status = s.status := rfl
@[simp] theorem advance_latch (s : State) :
    (s.advance).latch = s.latch := rfl
@[simp] theorem advance_command (s : State) :
    (s.advance).command = s.command := rfl
@[simp] theorem advance_scratch (s : State) :
    (s.advance).scratch = s.scratch := rfl
@[simp] theorem advance_draws (s : State) :
    (s.advance).draws = s.draws := rfl
@[simp] theorem advance_waitDue (s : State) :
    (s.advance).waitDue = s.waitDue := rfl
@[simp] theorem advance_faultMark (s : State) :
    (s.advance).faultMark = s.faultMark := rfl
@[simp] theorem advance_resetLine (s : State) :
    (s.advance).resetLine = s.resetLine := rfl
@[simp] theorem advance_host (s : State) :
    (s.advance).host = { s.host with pos := s.host.pos + 1 } := rfl

/-! ### bind -/

@[simp] theorem bind_cfg (s : State) (x : Nat) (v : Word) :
    (s.bind x v).cfg = s.cfg := rfl
@[simp] theorem bind_mem (s : State) (x : Nat) (v : Word) :
    (s.bind x v).mem = s.mem := rfl
@[simp] theorem bind_args (s : State) (x : Nat) (v : Word) :
    (s.bind x v).args = s.args := rfl
@[simp] theorem bind_res0 (s : State) (x : Nat) (v : Word) :
    (s.bind x v).res0 = s.res0 := rfl
@[simp] theorem bind_res1 (s : State) (x : Nat) (v : Word) :
    (s.bind x v).res1 = s.res1 := rfl
@[simp] theorem bind_res2 (s : State) (x : Nat) (v : Word) :
    (s.bind x v).res2 = s.res2 := rfl
@[simp] theorem bind_status (s : State) (x : Nat) (v : Word) :
    (s.bind x v).status = s.status := rfl
@[simp] theorem bind_latch (s : State) (x : Nat) (v : Word) :
    (s.bind x v).latch = s.latch := rfl
@[simp] theorem bind_command (s : State) (x : Nat) (v : Word) :
    (s.bind x v).command = s.command := rfl
@[simp] theorem bind_scratch (s : State) (x : Nat) (v : Word) :
    (s.bind x v).scratch = s.scratch := rfl
@[simp] theorem bind_draws (s : State) (x : Nat) (v : Word) :
    (s.bind x v).draws = s.draws := rfl
@[simp] theorem bind_waitDue (s : State) (x : Nat) (v : Word) :
    (s.bind x v).waitDue = s.waitDue := rfl
@[simp] theorem bind_faultMark (s : State) (x : Nat) (v : Word) :
    (s.bind x v).faultMark = s.faultMark := rfl
@[simp] theorem bind_resetLine (s : State) (x : Nat) (v : Word) :
    (s.bind x v).resetLine = s.resetLine := rfl
@[simp] theorem bind_host (s : State) (x : Nat) (v : Word) :
    (s.bind x v).host = { s.host with names := SortedMap.insert s.host.names x v } := rfl

/-! ### STATUS after completion -/

@[simp] theorem status_complete_busy (st : Status) (e : ErrCode) : (st.complete e).busy = false := by cases e <;> rfl

@[simp] theorem status_complete_err (st : Status) (e : ErrCode) : (st.complete e).err = e := by cases e <;> rfl

@[simp] theorem status_complete_sOvr (st : Status) (e : ErrCode) : (st.complete e).sOvr = st.sOvr := by
  cases e <;> rfl

theorem status_complete_ok (st : Status) : st.complete .ok = { st with err := .ok, busy := false } := rfl

end Sys2Proof.Machine
end

