-- ==== Sys2Proof/Laws/Ops.lean ====
section
/-! SUPPORT. For each shared operation, once, everything it can do. -/
namespace Sys2Proof.Machine

open Sys2Proof

/-! ### Windows -/

theorem inDM_iff (p : Params) (w : Window) : w.inDM p = true ↔ w.len = 0 ∨ w.base + w.len ≤ p.memWords := by
  simp [Window.inDM]

theorem identical_iff (a b : Window) : a.identical b = true ↔ a.base = b.base := by simp [Window.identical]

theorem disjoint_iff (a b : Window) :
    a.disjoint b = true ↔ a.len = 0 ∨ b.len = 0 ∨ a.base + a.len ≤ b.base ∨ b.base + b.len ≤ a.base := by
  simp [Window.disjoint, or_assoc]

theorem window_mem_iff (w : Window) (a : Nat) : w.mem a = true ↔ w.base ≤ a ∧ a < w.base + w.len := by
  simp [Window.mem]

@[simp] theorem words_length (s : State) (w : Window) : (s.words w).length = w.len := by simp [State.words]

theorem value_lt (s : State) (w : Window) : s.value w < 2 ^ (32 * w.len) := by
  have h := valueOf_lt (s.words w)
  rwa [words_length] at h

/-! ### Stores -/

theorem words_storeWords_same (s : State) (w : Window) (ws : List Word) (h : ws.length = w.len) :
    (s.storeWords w ws).words w = ws := by
  rw [State.words, storeWords_mem, ← h, readWords_writeWords_same]

theorem words_storeWords_disjoint (s : State) (w v : Window) (ws : List Word) (h : ws.length = w.len)
    (hd : v.disjoint w = true) : (s.storeWords w ws).words v = s.words v := by
  rw [disjoint_iff] at hd
  rw [State.words, storeWords_mem, readWords_writeWords_other _ _ _ _ _ (by omega), State.words]

/-- R12: a window stored with `v` reads as `v mod 2^(32n)`. -/
theorem value_store_same (s : State) (w : Window) (v : Nat) : (s.store w v).value w = v % 2 ^ (32 * w.len) := by
  rw [State.value, State.store, words_storeWords_same _ _ _ (wordsOf_length _ _), valueOf_wordsOf]

theorem value_store_disjoint (s : State) (w u : Window) (v : Nat) (hd : u.disjoint w = true) :
    (s.store w v).value u = s.value u := by
  rw [State.value, State.store, words_storeWords_disjoint _ _ _ _ (wordsOf_length _ _) hd, State.value]

/-- A byte outside the window's words keeps its value. -/
theorem readByte_storeWords_other (s : State) (w : Window) (ws : List Word) (c : Nat) (h : ws.length = w.len)
    (hc : w.mem (c / 4) = false) : (s.storeWords w ws).mem.readByte c = s.mem.readByte c := by
  rw [storeWords_mem, readByte_writeWords_other]
  have : ¬ (w.base ≤ c / 4 ∧ c / 4 < w.base + w.len) := by
    rw [← window_mem_iff]; simp [hc]
  omega

theorem store_mem_wf (s : State) (w : Window) (v : Nat) (h : s.mem.wf = true) : (s.store w v).mem.wf = true :=
  writeWords_wf _ _ _ h

/-! ### The contract check and the size check -/

/-- A checked command goes on only where its windows keep the contract, and then it is its effect. -/
theorem checked_next {s t : State} {i : Instr} {o : Out} (h : s.checked i o = .next t) :
    (windowsOf i s.latch).all (Window.inDM s.cfg) = true ∧ overlapAllowed i s.latch = true ∧ o = .next t := by
  unfold State.checked at h
  split at h
  · next h1 =>
    split at h
    · next h2 => exact ⟨h1, h2, h⟩
    · cases h
  · cases h

theorem checked_of_contract {s : State} {i : Instr} (o : Out)
    (h1 : (windowsOf i s.latch).all (Window.inDM s.cfg) = true) (h2 : overlapAllowed i s.latch = true) :
    s.checked i o = o := by
  simp [State.checked, h1, h2]

/-- A sized command completes with NRANGE or is its effect. -/
theorem sized_next {s t : State} {o : Out} (h : s.sized o = .next t) :
    (s.cfg.divNmax < s.latch.count ∧ t = s.complete .nrange) ∨ (s.latch.count ≤ s.cfg.divNmax ∧ o = .next t) := by
  unfold State.sized at h
  split at h
  · next h1 => cases h; exact .inl ⟨h1, rfl⟩
  · next h1 => exact .inr ⟨by omega, h⟩

theorem sized_of_le {s : State} (o : Out) (h : s.latch.count ≤ s.cfg.divNmax) : s.sized o = o := by
  simp [State.sized, Nat.not_lt.2 h]

/-! ### Free draws -/

@[simp] theorem addresses_length (w : Window) : w.addresses.length = w.len := by simp [Window.addresses]

theorem draw_wf (m : Memory) (d : Nat) (w : Window) (h : m.wf = true) : (m.draw d w).wf = true := writeWords_wf _ _ _ h

theorem draw_inDM (m : Memory) (p : Params) (d : Nat) (w : Window) (h : m.inDM p.memWords = true)
    (hw : w.inDM p = true) : (m.draw d w).inDM p.memWords = true := by
  rw [inDM_iff] at hw
  exact writeWords_inDM _ _ _ _ h (by simpa using hw)

theorem readByte_draw_other (m : Memory) (d c : Nat) (w : Window) (h : w.mem (c / 4) = false) :
    (m.draw d w).readByte c = m.readByte c := by
  rw [Memory.draw, readByte_writeWords_other]
  have : ¬ (w.base ≤ c / 4 ∧ c / 4 < w.base + w.len) := by
    rw [← window_mem_iff]; simp [h]
  simp only [List.length_map, addresses_length]
  omega

/-- Scrambling windows of DM keeps the canonical form and DM's bounds, and leaves every byte outside them alone. -/
theorem scramble_memory (s : State) (ws : List Window) :
    (s.mem.wf = true → (s.scramble ws).mem.wf = true) ∧
    (s.mem.inDM s.cfg.memWords = true → ws.all (Window.inDM s.cfg) = true →
      (s.scramble ws).mem.inDM s.cfg.memWords = true) ∧
    (∀ c, ws.all (fun w => !w.mem (c / 4)) = true → (s.scramble ws).mem.readByte c = s.mem.readByte c) := by
  simp only [scramble_mem]
  generalize s.mem = m
  induction ws generalizing m with
  | nil => exact ⟨id, fun h _ => h, fun _ _ => rfl⟩
  | cons w ws ih =>
    obtain ⟨i1, i2, i3⟩ := ih (m.draw s.draws w)
    refine ⟨fun h => i1 (draw_wf m _ w h), fun h hw => ?_, fun c hc => ?_⟩
    · simp only [List.all_cons, Bool.and_eq_true] at hw
      exact i2 (draw_inDM m s.cfg _ w h hw.1) hw.2
    · simp only [List.all_cons, Bool.and_eq_true, Bool.not_eq_true'] at hc
      rw [List.foldl_cons, i3 c hc.2, readByte_draw_other _ _ _ _ hc.1]

/-! ### Division -/

/-- What a division can do: NRANGE, DIV0, or write its results. -/
theorem divide_next {s t : State} {i : Instr} {k : State → Nat → Nat → State} (h : s.divide i k = .next t) :
    (s.cfg.divNmax < s.latch.count ∧ t = s.complete .nrange) ∨
    (s.latch.count ≤ s.cfg.divNmax ∧ (windowsOf i s.latch).all (Window.inDM s.cfg) = true ∧
      overlapAllowed i s.latch = true ∧
      ((s.value s.latch.winB = 0 ∧
          t = ((s.loadScratch.scramble (windowsOf i s.latch)).releaseScratch).complete .div0) ∨
        (s.value s.latch.winB ≠ 0 ∧
          t = ((k s.loadScratch (s.value s.latch.winA) (s.value s.latch.winB)).releaseScratch).complete .ok))) := by
  rcases sized_next h with h1 | ⟨h1, h2⟩
  · exact .inl h1
  · obtain ⟨h3, h4, h5⟩ := checked_next h2
    refine .inr ⟨h1, h3, h4, ?_⟩
    have e1 : s.loadScratch.scratch.divisorValue = s.value s.latch.winB := rfl
    have e2 : s.loadScratch.scratch.dividendValue = s.value s.latch.winA := by
      rw [loadScratch_scratch, Scratch.dividendValue, valueOf_append, State.value]
      simp [valueOf]
    simp only [e1, e2] at h5
    split at h5
    · next h6 => exact .inl ⟨h6, by cases h5; rfl⟩
    · next h6 => exact .inr ⟨h6, by cases h5; rfl⟩

/-! ### The system -/

/-- A change applied to the outcome of a step keeps where the step goes on. -/
theorem onNext_next {o : Out} {f : State → State} {t : State} (h : onNext o f = .next t) :
    ∃ u, o = .next u ∧ t = f u := by
  cases o with
  | next u => exact ⟨u, rfl, by cases h; rfl⟩
  | fault r => cases h
  | refused r => cases h

@[simp] theorem onNext_of_next (s : State) (f : State → State) : onNext (.next s) f = .next (f s) := rfl

/-- R281: a host that need not wait has seen BUSY = 0. -/
theorem mustWait_eq_false {s : State} (h : s.mustWait = false) : s.status.busy = false ∧ s.waitDue = false := by
  simpa [State.mustWait] using h

/-- A jump changes the host's position only. -/
theorem jump_next {s t : State} {l : Nat} (h : s.jump l = .next t) :
    ∃ k, t = { s with host := { s.host with pos := k } } := by
  unfold State.jump at h
  split at h
  · next k _ => exact ⟨k, by cases h; rfl⟩
  · cases h

end Sys2Proof.Machine
end

