-- ==== Sys2Proof/Laws/Exec.lean ====
section
/-! SUPPORT. What a command can do, once for all 32: the inversion lemma of `exec`. -/
namespace Sys2Proof.Machine

open Sys2Proof

/-- The memory `m` differs from that of `s` by writes inside the windows `ws` only. -/
structure WritesWithin (s : State) (ws : List Window) (m : Memory) : Prop where
  wf : s.mem.wf = true → m.wf = true
  inDM : s.mem.inDM s.cfg.memWords = true → m.inDM s.cfg.memWords = true
  other : ∀ c, ws.all (fun w => !w.mem (c / 4)) = true → m.readByte c = s.mem.readByte c

theorem WritesWithin.refl (s : State) (ws : List Window) : WritesWithin s ws s.mem := ⟨id, id, fun _ _ => rfl⟩

/-- One store into a window of the list. -/
theorem WritesWithin.storeWords {s : State} {ws : List Window} {m : Memory} {w : Window} {vs : List Word}
    (h : WritesWithin s ws m) (hw : w ∈ ws) (hl : vs.length = w.len) (hd : w.inDM s.cfg = true) :
    WritesWithin s ws (m.writeWords w.base vs) := by
  refine ⟨fun h1 => writeWords_wf _ _ _ (h.wf h1), fun h1 => writeWords_inDM _ _ _ _ (h.inDM h1) ?_, fun c hc => ?_⟩
  · rw [inDM_iff] at hd; omega
  · rw [readByte_writeWords_other, h.other c hc]
    have hm : w.mem (c / 4) = false := by
      have := List.all_eq_true.1 hc w hw
      simpa using this
    have : ¬ (w.base ≤ c / 4 ∧ c / 4 < w.base + w.len) := by
      rw [← window_mem_iff]; simp [hm]
    omega

/-- What a command that goes on changes: DM inside the windows it names, RES0 to RES2, STATUS by a completion, and of
the model's own fields the draw counter and the (released) scratch. -/
structure CommandEffect (i : Instr) (s t : State) : Prop where
  cfg : t.cfg = s.cfg
  args : t.args = s.args
  latch : t.latch = s.latch
  command : t.command = s.command
  waitDue : t.waitDue = s.waitDue
  faultMark : t.faultMark = s.faultMark
  resetLine : t.resetLine = s.resetLine
  host : t.host = s.host
  status : ∃ e, t.status = s.status.complete e
  scratch : t.scratch = s.scratch ∨ t.scratch = Scratch.empty
  mem : WritesWithin s (windowsOf i s.latch) t.mem

/-- A command that writes no DM word: `u` differs from `s` in result registers only. -/
theorem effect_of_res {i : Instr} {s u : State}
    (h : u = { s with res0 := u.res0, res1 := u.res1, res2 := u.res2 }) : CommandEffect i s (u.complete .ok) := by
  rw [h]
  exact ⟨rfl, rfl, rfl, rfl, rfl, rfl, rfl, rfl, ⟨.ok, rfl⟩, .inl rfl, WritesWithin.refl s _⟩

/-- A command that stores words into one window it names. -/
theorem effect_of_storeWords {i : Instr} {s t : State} {w : Window} {vs : List Word}
    (hc : s.checked i ((s.storeWords w vs).finish) = .next t) (hw : w ∈ windowsOf i s.latch) (hl : vs.length = w.len) :
    CommandEffect i s t := by
  obtain ⟨h1, -, h3⟩ := checked_next hc
  cases h3
  exact ⟨rfl, rfl, rfl, rfl, rfl, rfl, rfl, rfl, ⟨.ok, rfl⟩, .inl rfl,
    (WritesWithin.refl s _).storeWords hw hl (List.all_eq_true.1 h1 w hw)⟩

/-- A division. -/
theorem effect_of_divide {i : Instr} {s t : State} {k : State → Nat → Nat → State} (h : s.divide i k = .next t)
    (hk : ∀ a v, (windowsOf i s.latch).all (Window.inDM s.cfg) = true →
      WritesWithin s (windowsOf i s.latch) (k s.loadScratch a v).mem ∧
        k s.loadScratch a v = { s.loadScratch with mem := (k s.loadScratch a v).mem }) :
    CommandEffect i s t := by
  rcases divide_next h with ⟨-, rfl⟩ | ⟨-, h1, -, ⟨-, rfl⟩ | ⟨-, rfl⟩⟩
  · exact ⟨rfl, rfl, rfl, rfl, rfl, rfl, rfl, rfl, ⟨.nrange, rfl⟩, .inl rfl, WritesWithin.refl s _⟩
  · obtain ⟨m1, m2, m3⟩ := scramble_memory s.loadScratch (windowsOf i s.latch)
    exact ⟨rfl, rfl, rfl, rfl, rfl, rfl, rfl, rfl, ⟨.div0, rfl⟩, .inr rfl, ⟨m1, fun h2 => m2 h2 h1, m3⟩⟩
  · obtain ⟨hm, e⟩ := hk (s.value s.latch.winA) (s.value s.latch.winB) h1
    rw [e]
    exact ⟨rfl, rfl, rfl, rfl, rfl, rfl, rfl, rfl, ⟨.ok, rfl⟩, .inr rfl, hm⟩

/-- The inversion of `exec`: whatever the command, if it goes on, this is all it changes. -/
theorem exec_next {i : Instr} {s t : State} (h : exec i s = .next t) : CommandEffect i s t := by
  cases i with
  | nop => cases h; exact effect_of_res rfl
  | adcw => cases h; exact effect_of_res rfl
  | sbbw => cases h; exact effect_of_res rfl
  | mulw => cases h; exact effect_of_res rfl
  | msb => cases h; exact effect_of_res rfl
  | lsb => cases h; exact effect_of_res rfl
  | popc => cases h; exact effect_of_res rfl
  | fls => cases h; exact effect_of_res rfl
  | neg => exact effect_of_storeWords h (by simp [windowsOf]) (wordsOf_length _ _)
  | add => exact effect_of_storeWords h (by simp [windowsOf]) (wordsOf_length _ _)
  | sub => exact effect_of_storeWords h (by simp [windowsOf]) (wordsOf_length _ _)
  | adds => exact effect_of_storeWords h (by simp [windowsOf]) (wordsOf_length _ _)
  | subs => exact effect_of_storeWords h (by simp [windowsOf]) (wordsOf_length _ _)
  | mulf => exact effect_of_storeWords h (by simp [windowsOf]) (wordsOf_length _ _)
  | muls => exact effect_of_storeWords h (by simp [windowsOf]) (wordsOf_length _ _)
  | and => exact effect_of_storeWords h (by simp [windowsOf]) (by simp [Args.winA, Args.winB])
  | or => exact effect_of_storeWords h (by simp [windowsOf]) (by simp [Args.winA, Args.winB])
  | xor => exact effect_of_storeWords h (by simp [windowsOf]) (by simp [Args.winA, Args.winB])
  | not => exact effect_of_storeWords h (by simp [windowsOf]) (by simp)
  | shl => exact effect_of_storeWords h (by simp [windowsOf]) (wordsOf_length _ _)
  | shr => exact effect_of_storeWords h (by simp [windowsOf]) (wordsOf_length _ _)
  | div =>
    refine effect_of_divide (k := fun l a v => l.store l.latch.winD (a / v)) h fun a v h1 => ⟨?_, rfl⟩
    exact (WritesWithin.refl s _).storeWords (w := s.latch.winD) (by simp [windowsOf]) (wordsOf_length _ _)
      (List.all_eq_true.1 h1 _ (by simp [windowsOf]))
  | mod =>
    refine effect_of_divide (k := fun l a v => l.store l.latch.winR (a % v)) h fun a v h1 => ⟨?_, rfl⟩
    exact (WritesWithin.refl s _).storeWords (w := s.latch.winR) (by simp [windowsOf]) (wordsOf_length _ _)
      (List.all_eq_true.1 h1 _ (by simp [windowsOf]))
  | divmod =>
    refine effect_of_divide (k := fun l a v => (l.store l.latch.winD (a / v)).store l.latch.winR (a % v)) h fun a v h1 => ⟨?_, rfl⟩
    exact ((WritesWithin.refl s _).storeWords (w := s.latch.winD) (by simp [windowsOf]) (wordsOf_length _ _)
      (List.all_eq_true.1 h1 _ (by simp [windowsOf]))).storeWords (w := s.latch.winR) (by simp [windowsOf])
      (wordsOf_length _ _) (List.all_eq_true.1 h1 _ (by simp [windowsOf]))
  | iszero => cases (checked_next h).2.2; exact effect_of_res rfl
  | eq => cases (checked_next h).2.2; exact effect_of_res rfl
  | ne => cases (checked_next h).2.2; exact effect_of_res rfl
  | cmpu => cases (checked_next h).2.2; exact effect_of_res rfl
  | cmps => cases (checked_next h).2.2; exact effect_of_res rfl
  | fpack => cases h; exact effect_of_res rfl
  | funpack => cases h; exact effect_of_res rfl
  | fextract => cases (checked_next h).2.2; exact effect_of_res rfl

end Sys2Proof.Machine
end

