-- ==== Sys2Proof/Laws/PerInstr.lean ====
section
/-! SUPPORT. Statements per command, one lemma per constructor. -/
namespace Sys2Proof.Laws

open Sys2Proof

/-- The word of a command decodes to it, its RSV field is 0, and the checks of R72 pass it. -/
def RoundTrip.Statement (i : Instr) : Prop :=
  decode (encode i) = .ok i ∧ rsvField (encode i) = 0 ∧ CmdWord.wellFormed (encode i) = true ∧ i.WellFormed = true

theorem RoundTrip.nop : RoundTrip.Statement .nop := by unfold RoundTrip.Statement; decide
theorem RoundTrip.adcw : RoundTrip.Statement .adcw := by unfold RoundTrip.Statement; decide
theorem RoundTrip.sbbw : RoundTrip.Statement .sbbw := by unfold RoundTrip.Statement; decide
theorem RoundTrip.mulw : RoundTrip.Statement .mulw := by unfold RoundTrip.Statement; decide
theorem RoundTrip.msb : RoundTrip.Statement .msb := by unfold RoundTrip.Statement; decide
theorem RoundTrip.lsb : RoundTrip.Statement .lsb := by unfold RoundTrip.Statement; decide
theorem RoundTrip.popc : RoundTrip.Statement .popc := by unfold RoundTrip.Statement; decide
theorem RoundTrip.fls : RoundTrip.Statement .fls := by unfold RoundTrip.Statement; decide
theorem RoundTrip.neg : RoundTrip.Statement .neg := by unfold RoundTrip.Statement; decide
theorem RoundTrip.add : RoundTrip.Statement .add := by unfold RoundTrip.Statement; decide
theorem RoundTrip.sub : RoundTrip.Statement .sub := by unfold RoundTrip.Statement; decide
theorem RoundTrip.adds : RoundTrip.Statement .adds := by unfold RoundTrip.Statement; decide
theorem RoundTrip.subs : RoundTrip.Statement .subs := by unfold RoundTrip.Statement; decide
theorem RoundTrip.mulf : RoundTrip.Statement .mulf := by unfold RoundTrip.Statement; decide
theorem RoundTrip.muls : RoundTrip.Statement .muls := by unfold RoundTrip.Statement; decide
theorem RoundTrip.and : RoundTrip.Statement .and := by unfold RoundTrip.Statement; decide
theorem RoundTrip.or : RoundTrip.Statement .or := by unfold RoundTrip.Statement; decide
theorem RoundTrip.xor : RoundTrip.Statement .xor := by unfold RoundTrip.Statement; decide
theorem RoundTrip.not : RoundTrip.Statement .not := by unfold RoundTrip.Statement; decide
theorem RoundTrip.shl : RoundTrip.Statement .shl := by unfold RoundTrip.Statement; decide
theorem RoundTrip.shr : RoundTrip.Statement .shr := by unfold RoundTrip.Statement; decide
theorem RoundTrip.div : RoundTrip.Statement .div := by unfold RoundTrip.Statement; decide
theorem RoundTrip.mod : RoundTrip.Statement .mod := by unfold RoundTrip.Statement; decide
theorem RoundTrip.divmod : RoundTrip.Statement .divmod := by unfold RoundTrip.Statement; decide
theorem RoundTrip.iszero : RoundTrip.Statement .iszero := by unfold RoundTrip.Statement; decide
theorem RoundTrip.eq : RoundTrip.Statement .eq := by unfold RoundTrip.Statement; decide
theorem RoundTrip.ne : RoundTrip.Statement .ne := by unfold RoundTrip.Statement; decide
theorem RoundTrip.cmpu : RoundTrip.Statement .cmpu := by unfold RoundTrip.Statement; decide
theorem RoundTrip.cmps : RoundTrip.Statement .cmps := by unfold RoundTrip.Statement; decide
theorem RoundTrip.fpack : RoundTrip.Statement .fpack := by unfold RoundTrip.Statement; decide
theorem RoundTrip.funpack : RoundTrip.Statement .funpack := by unfold RoundTrip.Statement; decide
theorem RoundTrip.fextract : RoundTrip.Statement .fextract := by unfold RoundTrip.Statement; decide

end Sys2Proof.Laws
end

