-- ==== Sys2Proof/Laws/Step.lean ====
section
/-! SUPPORT. What one step of the system can do, once: the inversion lemma of `step`. -/
namespace Sys2Proof.Machine

open Sys2Proof

/-- The command in progress either is ILLEGAL and completes so, or runs. -/
theorem runCommand_next {s t : State} (h : s.runCommand = .next t) :
    ((∃ e, decode s.command = .error e) ∧ t = s.complete .illegal) ∨
    (∃ i, decode s.command = .ok i ∧ exec i s = .next t) := by
  unfold State.runCommand at h
  split at h
  · next i h1 => exact .inr ⟨i, h1, h⟩
  · next e h1 => exact .inl ⟨⟨e, h1⟩, by cases h; rfl⟩

/-- What a host operation does to the unit and DM, but for the record of the host's duty; `u` has the host of `s`. -/
inductive HostEffect (s : State) : State → Prop where
  /-- Nothing: a read, a label, a `goto`, or a `wait` with BUSY = 0. -/
  | none : HostEffect s s
  /-- A register write other than to CMD. -/
  | register (r : Reg) (v : Word) (hr : r ≠ .cmd) (hb : s.status.busy = false) : HostEffect s (s.setReg r v)
  /-- A DM word write. -/
  | dm (a : Nat) (w : Word) (ha : a < s.cfg.memWords) (hb : s.status.busy = false) :
      HostEffect s { s with mem := s.mem.writeWord a w }
  /-- A CMD write that is dropped. -/
  | overrun (hb : s.status.busy = true) : HostEffect s s.overrun
  /-- A CMD write that is accepted. -/
  | issue (w : Word) (u : State) (hb : s.status.busy = false) (h : (s.accept w).runCommand = .next u) : HostEffect s u
  /-- A command in progress that completes. -/
  | completes (b : Bool) (u : State) (hb : s.status.busy = true) (h : (s.setWaitDue b).runCommand = .next u) :
    HostEffect s u

theorem writeReg_effect {s u : State} {r : Reg} {v : Word} (h : s.writeReg r v = .next u) : HostEffect s u := by
  unfold State.writeReg State.writeCmd at h
  split at h
  · split at h
    · next hb => cases h; exact .overrun hb
    · next hb =>
      split at h
      · cases h
      · exact .issue v u (by simpa using hb) h
  · next hr =>
    split at h
    · cases h
    · next hb => cases h; exact .register r v hr (mustWait_eq_false (by simpa using hb)).1

/-- A poll ends the duty, or completes the command in progress. -/
theorem polled_effect {s u : State} (h : s.polled = .next u) :
    ∃ v, HostEffect s v ∧ u = { v with waitDue := u.waitDue } := by
  unfold State.polled at h
  split at h
  · next hb => exact ⟨u, .completes true u hb h, rfl⟩
  · cases h; exact ⟨s, .none, rfl⟩

theorem busWrite_effect {s u : State} {width : AccessWidth} {addr : Nat} {v : Word}
    (h : s.busWrite width addr v = .next u) : HostEffect s u := by
  unfold State.busWrite at h
  split at h
  · cases h
  · split at h
    · exact writeReg_effect h
    · cases h

/-- A host operation that goes on does one of these to the unit and DM, and moves the host. -/
theorem hostOp_next {s t : State} {op : HostOp} (h : s.hostOp op = .next t) :
    ∃ u, HostEffect s u ∧ t = { u with host := t.host, waitDue := t.waitDue } := by
  cases op with
  | write width addr v =>
    simp only [State.hostOp, State.opWrite] at h
    split at h
    · obtain ⟨u, h1, rfl⟩ := onNext_next h
      exact ⟨u, busWrite_effect h1, rfl⟩
    · cases h
  | read width addr x =>
    simp only [State.hostOp, State.opRead] at h
    split at h
    · cases h
    · split at h
      · split at h
        · obtain ⟨u, h1, rfl⟩ := onNext_next h
          obtain ⟨v, h2, h3⟩ := polled_effect h1
          exact ⟨v, h2, by rw [h3]; rfl⟩
        · split at h
          · cases h
          · cases h; exact ⟨s, .none, rfl⟩
      · cases h
  | dmWrite a v =>
    simp only [State.hostOp, State.opDmWrite] at h
    split at h
    · cases h
    · split at h
      · cases h
      · next w _ hb =>
        split at h
        · next ha => cases h; exact ⟨_, .dm a w ha (mustWait_eq_false (by simpa using hb)).1, rfl⟩
        · cases h
  | dmRead a x =>
    simp only [State.hostOp, State.opDmRead] at h
    split at h
    · cases h
    · split at h
      · cases h; exact ⟨s, .none, rfl⟩
      · cases h
  | wait =>
    simp only [State.hostOp, State.opWait] at h
    obtain ⟨u, h1, rfl⟩ := onNext_next h
    obtain ⟨v, h2, h3⟩ := polled_effect h1
    exact ⟨v, h2, by rw [h3]; rfl⟩
  | label l => cases h; exact ⟨s, .none, rfl⟩
  | goto l =>
    obtain ⟨k, rfl⟩ := jump_next h
    exact ⟨s, .none, rfl⟩
  | gotoIf c l =>
    simp only [State.hostOp, State.opGotoIf] at h
    split at h
    · obtain ⟨k, rfl⟩ := jump_next h
      exact ⟨s, .none, rfl⟩
    · cases h; exact ⟨s, .none, rfl⟩
    · cases h

/-- The inversion of `step`: a step that goes on is the platform's reset, or one effect on the unit and DM and a move of
the host. -/
theorem step_next {s t : State} (h : step s = .next t) :
    s.faultMark = false ∧
      ((s.resetLine = true ∧ s.unitReset = .next t) ∨
        (s.resetLine = false ∧ ∃ u, HostEffect s u ∧ t = { u with host := t.host, waitDue := t.waitDue })) := by
  unfold step State.stepSystem at h
  split at h
  · cases h
  · next hm =>
    refine ⟨by simpa using hm, ?_⟩
    split at h
    · next hr => exact .inl ⟨hr, h⟩
    · next hr =>
      refine .inr ⟨by simpa using hr, ?_⟩
      split at h
      · exact hostOp_next h
      · split at h
        · next hb => exact ⟨t, .completes s.waitDue t hb h, rfl⟩
        · cases h; exact ⟨s, .none, rfl⟩

/-- The inversion of the platform's reset: registers reset, and DM kept but for fresh draws in the windows that the
abandoned command writes. -/
theorem unitReset_next {s t : State} (h : s.unitReset = .next t) :
    t = s.resetRegisters ∨
    ∃ i, s.status.busy = true ∧ decode s.command = .ok i ∧ (windowsOf i s.latch).all (Window.inDM s.cfg) = true ∧
      t = (s.scramble (writtenBy i s.latch)).resetRegisters := by
  unfold State.unitReset at h
  split at h
  · next hb =>
    split at h
    · cases h; exact .inl rfl
    · next i hd =>
      split at h
      · cases h; exact .inl rfl
      · obtain ⟨h1, -, h3⟩ := checked_next h
        cases h3
        exact .inr ⟨i, hb, hd, h1, rfl⟩
  · cases h; exact .inl rfl

/-- Every window a command writes is one it names. -/
theorem writtenBy_subset (i : Instr) (x : Args) {w : Window} (h : w ∈ writtenBy i x) : w ∈ windowsOf i x := by
  cases i <;> simp_all [writtenBy, windowsOf]

end Sys2Proof.Machine
end

