-- ==== Sys2Proof/Machine/HostProgram.lean ====
section
/-! DEFINITION. The assembler of 30_encoding.md R78 and the pseudo-instructions of R79, as lists of the host operations
of R80. -/
namespace Sys2Proof.Machine

open Sys2Proof

/-- R78: the keys of a command line. `shamt`, `scalar`, `mant` and `bits` are other spellings of `opa`, `exp` of `opb`,
and `cin`, `bin` and `sign` of `opc`. -/
inductive ArgKey where
  | n | a | b | d | r | opa | opb | opc
  deriving DecidableEq, Repr

/-- R78: the register a key names. -/
def ArgKey.reg : ArgKey → Reg
  | .n => .n | .a => .addrA | .b => .addrB | .d => .addrD | .r => .addrR | .opa => .opa | .opb => .opb | .opc => .opc

/-- R78, R80: the host line `wr REG, v`. -/
def lineWr (p : Params) (r : Reg) (v : HostValue) : HostOp := .write .w32 (busAddress p r) v

/-- R78, R80: the host line `rd REG -> name`. -/
def lineRd (p : Params) (r : Reg) (x : Nat) : HostOp := .read .w32 (busAddress p r) x

/-- R78: "A line assembles to one host write per key, in the order written, and then the CMD write of the mnemonic's
word, and then a `wait`." -/
def commandLine (p : Params) (i : Instr) (keys : List (ArgKey × HostValue)) : List HostOp :=
  keys.map (fun k => lineWr p k.1.reg k.2) ++ [cmdWriteOp p (encode i), .wait]

/-- R79: `ZERO a=X, n=k`. -/
def pseudoZero (p : Params) (x k : HostValue) : List HostOp := commandLine p .xor [(.a, x), (.b, x), (.n, k)]

/-- R79: `COPY d=X, a=Y, n=k`. -/
def pseudoCopy (p : Params) (x y k : HostValue) : List HostOp :=
  commandLine p .xor [(.a, x), (.b, x), (.n, k)] ++ commandLine p .or [(.a, x), (.b, y), (.n, k)]

/-- R79: `INC a=X, n=k`. -/
def pseudoInc (p : Params) (x k : HostValue) : List HostOp := commandLine p .adds [(.a, x), (.opa, .lit 1), (.n, k)]

/-- R79: `DEC a=X, n=k`. -/
def pseudoDec (p : Params) (x k : HostValue) : List HostOp := commandLine p .subs [(.a, x), (.opa, .lit 1), (.n, k)]

/-- R79: `NEGI a=X, n=k`. -/
def pseudoNegi (p : Params) (x k : HostValue) : List HostOp := commandLine p .neg [(.a, x), (.d, x), (.n, k)]

/-- R79: `MUL d=Z, a=X, b=Y, n=k`. DESIGN CHOICE, log entry 19: k is a literal, since the expansion writes 2k and the
host has no arithmetic (R78); and where 2k ≥ 2^32, for which R79 gives no rule, ZERO's n is `2k mod 2^32`. -/
def pseudoMul (p : Params) (z x y : HostValue) (k : Word) : List HostOp :=
  pseudoZero p z (.lit (2 * k)) ++ commandLine p .mulf [(.d, z), (.a, x), (.b, y), (.n, .lit k)]

/-- R79: `SHLW a=X, n=k, words=j`, where 32j < 2^32. -/
def pseudoShlw (p : Params) (x k : HostValue) (j : Word) : List HostOp :=
  commandLine p .shl [(.a, x), (.opa, .lit (32 * j)), (.n, k)]

/-- R79: `SHRW a=X, n=k, words=j`, where 32j < 2^32. -/
def pseudoShrw (p : Params) (x k : HostValue) (j : Word) : List HostOp :=
  commandLine p .shr [(.a, x), (.opa, .lit (32 * j)), (.n, k)]

/-- R79: `I2F a=X, n=k`, reading into the names `m`, `e` and `f`. -/
def pseudoI2f (p : Params) (x k : HostValue) (m e f : Nat) : List HostOp :=
  commandLine p .fextract [(.a, x), (.n, k)] ++ [lineRd p .res0 m, lineRd p .res1 e]
    ++ commandLine p .fpack [(.opa, .name m), (.opb, .name e), (.opc, .lit 0)] ++ [lineRd p .res0 f]

/-- R79: `CMP2C a=X, b=Y, m=M, n=k`, all lines with n = k. -/
def pseudoCmp2c (p : Params) (x y m k : HostValue) : List HostOp :=
  commandLine p .xor [(.a, x), (.b, m), (.n, k)] ++ commandLine p .xor [(.a, y), (.b, m), (.n, k)]
    ++ commandLine p .cmpu [(.a, x), (.b, y), (.n, k)]
    ++ commandLine p .xor [(.a, x), (.b, m), (.n, k)] ++ commandLine p .xor [(.a, y), (.b, m), (.n, k)]

end Sys2Proof.Machine
end

