-- ==== Sys2Proof/Tests/Slice0.lean ====
section
/-! SUPPORT. Tests of one step each, with results from the tables of 95_test_vectors.md (named by their row) or by hand
from a rule; and a witness for the hypotheses of every obligation that has some. -/
namespace Sys2Proof.Tests

open Sys2Proof Sys2Proof.Machine

/-! ### Builders -/

/-- Word counts and window bases. -/
def wins (n a b d r : Word) : Args := { Args.zero with n := n, addrA := a, addrB := b, addrD := d, addrR := r }

/-- Scalar operands. -/
def ops (a b c : Word) : Args := { Args.zero with opa := a, opb := b, opc := c }

/-- DM with the words listed at each base. -/
def dm (ws : List (Nat × List Word)) : Memory := ws.foldl (fun m w => m.writeWords w.1 w.2) []

/-- The reset state with these latched arguments (and argument registers) and this DM. -/
def at' (x : Args) (ws : List (Nat × List Word)) : State :=
  { State.reset with args := x, latch := x, mem := dm ws }

/-- What `f` reads of the next state; none where the machine stops. -/
def after {α : Type} (o : Out) (f : State → α) : Option α :=
  match o with
  | .next t => some (f t)
  | .fault _ => none
  | .refused _ => none

/-- The fault a step stops on. -/
def stops (o : Out) : Option Fault :=
  match o with
  | .next _ => none
  | .fault r => some r
  | .refused _ => none

/-- RES0, RES1, RES2. -/
def res (t : State) : Word × Word × Word := (t.res0, t.res1, t.res2)

/-- The reset state whose host performs `op` next. -/
def about (s : State) (op : HostOp) : State := { s with host := { program := [op], pos := 0, names := [] } }

/-- STATUS while a command is in progress. -/
def busyReset : State := { State.reset with status := { Status.clear with busy := true } }

/-- A host at `op`, with the label 7 at places 1 and 2 of its program and the name 5 bound to 2^31. -/
def flow (op : HostOp) : State :=
  { State.reset with host := { program := [op, .label 7, .label 7], pos := 0, names := [(5, 0x80000000)] } }

/-- A host that has written CMD and owes a wait. -/
def owing : State := { State.reset with waitDue := true }

/-! ### Well-formedness and decoding (R71 to R73, R77) -/

/-- R72: a RSV bit set (row 6 of 2.9). -/
theorem test_rsv_refused : CmdWord.wellFormed 0x00000101 = false ∧ decode 0x00000101 = .error .reservedBitsSet := by
  decide

/-- R72: an unassigned OP (row 4 of 2.9). -/
theorem test_op_refused : CmdWord.wellFormed 0x00000023 = false ∧ decode 0x00000023 = .error .unassignedOpcode := by
  decide

/-- R77: OP 0x80 is held back (row 7 of 2.9), and so is every neighbour of an assigned range. -/
theorem test_op_edges_refused :
    [0x08, 0x0F, 0x1D, 0x1F, 0x23, 0x2F, 0x35, 0x3F, 0x43, 0x80, 0xFF].all
      (fun w => decode w == .error .unassignedOpcode && !CmdWord.wellFormed w) = true := by decide

/-- R73: one word of every family, bit by bit: OP in bits 7:0, 24 zero bits above. -/
theorem test_family_words :
    decode 0b00000000000000000000000000000000 = .ok .nop ∧ decode 0b00000000000000000000000000000010 = .ok .sbbw ∧
    decode 0b00000000000000000000000000010001 = .ok .add ∧ decode 0b00000000000000000000000000010110 = .ok .muls ∧
    decode 0b00000000000000000000000000011001 = .ok .xor ∧ decode 0b00000000000000000000000000011100 = .ok .shr ∧
    decode 0b00000000000000000000000000100010 = .ok .divmod ∧ decode 0b00000000000000000000000000110100 = .ok .cmps ∧
    decode 0b00000000000000000000000001000001 = .ok .funpack := by decide

/-- The host's reading of a row: a word of 32 bits, and one of 8. -/
theorem test_table_word :
    decodeTableWord 32 0x22 = some .divmod ∧ decodeTableWord 8 0x22 = some .divmod ∧ decodeTableWord 32 0x122 = none := by
  decide

/-! ### NOP and primitives (2.1) -/

/-- 2.1, NOP. -/
theorem test_nop :
    after (exec .nop { State.reset with res0 := 0x11, res1 := 0x22, status := { Status.clear with err := .div0, sDiv0 := true } })
      (fun t => (t.status.word, t.res0, t.res1)) = some (0x00010000, 0x11, 0x22) := by decide

theorem test_adcw_largest : after (exec .adcw (at' (ops 0xFFFFFFFF 0xFFFFFFFF 1) [])) res = some (0xFFFFFFFF, 1, 0) := by decide
theorem test_adcw_carry_bit0 : after (exec .adcw (at' (ops 5 7 2) [])) res = some (0x0000000C, 0, 0) := by decide
theorem test_sbbw_lowest : after (exec .sbbw (at' (ops 0 0xFFFFFFFF 1) [])) res = some (0, 1, 0) := by decide
theorem test_sbbw_borrow_in : after (exec .sbbw (at' (ops 5 5 1) [])) res = some (0xFFFFFFFF, 1, 0) := by decide
theorem test_mulw_largest : after (exec .mulw (at' (ops 0xFFFFFFFF 0xFFFFFFFF 0xFFFFFFFF) [])) res = some (0, 0xFFFFFFFF, 0) := by
  decide
theorem test_mulw_carry_word : after (exec .mulw (at' (ops 2 0x80000000 0xFFFFFFFF) [])) res = some (0xFFFFFFFF, 1, 0) := by
  decide
theorem test_msb : after (exec .msb (at' (ops 0x00010100 0 0) [])) res = some (0x10, 0, 0) := by decide
theorem test_msb_zero : after (exec .msb (at' (ops 0 0 0) [])) res = some (0xFFFFFFFF, 0, 0) := by decide
theorem test_lsb : after (exec .lsb (at' (ops 0x00010100 0 0) [])) res = some (0x08, 0, 0) := by decide
theorem test_lsb_zero : after (exec .lsb (at' (ops 0 0 0) [])) res = some (0xFFFFFFFF, 0, 0) := by decide
theorem test_popc : after (exec .popc (at' (ops 0xF0F0F0F0 0 0) [])) res = some (0x10, 0, 0) := by decide
theorem test_popc_all : after (exec .popc (at' (ops 0xFFFFFFFF 0 0) [])) res = some (0x20, 0, 0) := by decide
theorem test_fls : after (exec .fls (at' (ops 0x00010100 0 0) [])) res = some (0x11, 0, 0) := by decide
theorem test_fls_zero : after (exec .fls (at' (ops 0 0 0) [])) res = some (0, 0, 0) := by decide

/-! ### Add and subtract (2.2) -/

/-- V6 -/
theorem test_neg : after (exec .neg (at' (wins 3 0 0 0x20 0) [(0, [0, 1, 0])]))
    (fun t => t.mem.readWords 0x20 3) = some [0, 0xFFFFFFFF, 0xFFFFFFFF] := by decide
/-- V2 -/
theorem test_neg_in_place : after (exec .neg (at' (wins 1 0 0 0 0) [(0, [1])]))
    (fun t => t.mem.readWords 0 1) = some [0xFFFFFFFF] := by decide
/-- V9 -/
theorem test_add : after (exec .add (at' (wins 3 0 0x10 0 0)
      [(0, [0x80000000, 0x80000000, 0x80000000]), (0x10, [0x80000000, 0x80000000, 0x80000000])]))
    (fun t => t.mem.readWords 0 3) = some [0, 1, 1] := by decide
/-- V20 -/
theorem test_add_itself : after (exec .add (at' (wins 2 0 0 0 0) [(0, [0x80000001, 3])]))
    (fun t => t.mem.readWords 0 2) = some [2, 7] := by decide
/-- V10 -/
theorem test_sub : after (exec .sub (at' (wins 2 0 0x10 0 0) [(0, [0, 1]), (0x10, [1, 0])]))
    (fun t => (t.mem.readWords 0 2, t.mem.readWords 0x10 2)) = some ([0xFFFFFFFF, 0], [1, 0]) := by decide
/-- V11 -/
theorem test_sub_wraps : after (exec .sub (at' (wins 2 0 0x10 0 0) [(0, [0, 0]), (0x10, [1, 0])]))
    (fun t => t.mem.readWords 0 2) = some [0xFFFFFFFF, 0xFFFFFFFF] := by decide
/-- V13 -/
theorem test_adds : after (exec .adds (at' { wins 3 0 0 0 0 with opa := 1 } [(0, [0xFFFFFFFF, 0xFFFFFFFF, 7])]))
    (fun t => t.mem.readWords 0 3) = some [0, 0, 8] := by decide
/-- V16 -/
theorem test_adds_one_carry : after (exec .adds (at' { wins 2 0 0 0 0 with opa := 0x80000000 } [(0, [0x80000000, 3])]))
    (fun t => t.mem.readWords 0 2) = some [0, 4] := by decide
/-- V17 -/
theorem test_subs : after (exec .subs (at' { wins 2 0 0 0 0 with opa := 1 } [(0, [0, 1])]))
    (fun t => t.mem.readWords 0 2) = some [0xFFFFFFFF, 0] := by decide
/-- V19 -/
theorem test_subs_wraps : after (exec .subs (at' { wins 1 0 0 0 0 with opa := 0xFFFFFFFF } [(0, [3])]))
    (fun t => t.mem.readWords 0 1) = some [4] := by decide

/-! ### Multiply (2.3) -/

/-- M4: accumulates. -/
theorem test_mulf : after (exec .mulf (at' (wins 2 0 0x10 0x20 0) [(0, [3, 0]), (0x10, [5, 0]), (0x20, [1, 2, 3, 4])]))
    (fun t => t.mem.readWords 0x20 4) = some [0x10, 2, 3, 4] := by decide
/-- M5: the carry out is discarded. -/
theorem test_mulf_wraps : after (exec .mulf (at' (wins 1 0 0x10 0x20 0)
      [(0, [0xFFFFFFFF]), (0x10, [0xFFFFFFFF]), (0x20, [0xFFFFFFFF, 0xFFFFFFFF])]))
    (fun t => t.mem.readWords 0x20 2) = some [0, 0xFFFFFFFE] := by decide
/-- M7 -/
theorem test_muls : after (exec .muls (at' { wins 2 0 0 0x20 0 with opa := 3 } [(0, [5, 7]), (0x20, [1, 1, 1])]))
    (fun t => t.mem.readWords 0x20 3) = some [0x10, 0x16, 1] := by decide
/-- M10: in place. -/
theorem test_muls_in_place : after (exec .muls (at' { wins 2 0 0 0 0 with opa := 0xA } [(0, [2, 3, 0])]))
    (fun t => t.mem.readWords 0 3) = some [0x16, 0x21, 0] := by decide

/-! ### Logic and shift (2.4) -/

/-- L5 -/
theorem test_and : after (exec .and (at' (wins 2 0 0x10 0 0) [(0, [0xFFFFFFFF, 0x0000FFFF]), (0x10, [0x12345678, 0x9ABCDEF0])]))
    (fun t => t.mem.readWords 0 2) = some [0x12345678, 0x0000DEF0] := by decide
/-- L2 -/
theorem test_or : after (exec .or (at' (wins 1 0 0x10 0 0) [(0, [0xFF00FF00]), (0x10, [0x0FF00FF0])]))
    (fun t => t.mem.readWords 0 1) = some [0xFFF0FFF0] := by decide
/-- L3 -/
theorem test_xor : after (exec .xor (at' (wins 1 0 0x10 0 0) [(0, [0xFF00FF00]), (0x10, [0x0FF00FF0])]))
    (fun t => t.mem.readWords 0 1) = some [0xF0F0F0F0] := by decide
/-- L4: ADDR_B is not read. -/
theorem test_not : after (exec .not (at' (wins 2 0 0xFFFFFFFF 0 0) [(0, [0, 0x12345678])]))
    (fun t => t.mem.readWords 0 2) = some [0xFFFFFFFF, 0xEDCBA987] := by decide
/-- 2.4, s = 36 -/
theorem test_shl : after (exec .shl (at' { wins 2 0 0 0 0 with opa := 36 } [(0, [0x89ABCDEF, 0x01234567])]))
    (fun t => t.mem.readWords 0 2) = some [0, 0x9ABCDEF0] := by decide
/-- 2.4, s = 4294967295 -/
theorem test_shl_all : after (exec .shl (at' { wins 2 0 0 0 0 with opa := 0xFFFFFFFF } [(0, [0x89ABCDEF, 0x01234567])]))
    (fun t => t.mem.readWords 0 2) = some [0, 0] := by decide
/-- 2.4, s = 31 -/
theorem test_shr : after (exec .shr (at' { wins 2 0 0 0 0 with opa := 31 } [(0, [0x89ABCDEF, 0x01234567])]))
    (fun t => t.mem.readWords 0 2) = some [0x02468ACF, 0] := by decide
/-- H7 -/
theorem test_shr_crosses : after (exec .shr (at' { wins 3 0 0 0 0 with opa := 1 } [(0, [0x80000001, 0x80000001, 0x80000001])]))
    (fun t => t.mem.readWords 0 3) = some [0xC0000000, 0xC0000000, 0x40000000] := by decide

/-! ### Divide (2.5) -/

/-- Q16: D is B. -/
theorem test_div : after (exec .div (at' (wins 2 0 0x10 0x10 0) [(0, [0x64, 0]), (0x10, [7, 0])]))
    (fun t => (t.mem.readWords 0 2, t.mem.readWords 0x10 2)) = some ([0x64, 0], [0xE, 0]) := by decide
/-- Q18: n = 0. -/
theorem test_div_zero_words : after (exec .div { at' (wins 0 0 0 0 0) [] with res0 := 0x1234 })
    (fun t => (t.status.word, t.mem, t.res0)) = some (0x00010100, [], 0x1234) := by decide
/-- Q15: in place. -/
theorem test_mod : after (exec .mod (at' (wins 2 0 0x10 0 0) [(0, [0, 1]), (0x10, [3, 0])]))
    (fun t => (t.mem.readWords 0 2, t.status.word)) = some ([1, 0], 0) := by decide
/-- Q20: NRANGE comes before the window check. -/
theorem test_mod_too_long : after (exec .mod (at' (wins 257 0xFFFF 0xFFFF 0 0xFFFF) [(0, [1])]))
    (fun t => (t.status.word, t.mem.readWord 0)) = some (0x00080300, 1) := by decide
/-- Q11 -/
theorem test_divmod : after (exec .divmod (at' (wins 3 0 0x10 0x20 0x30)
      [(0, [0x80000001, 0x3082BA8D, 0x80000001]), (0x10, [0x6247755F, 0x44888DA0, 0])]))
    (fun t => (t.mem.readWords 0x20 3, t.mem.readWords 0x30 3)) =
      some ([0xDE21BA9D, 1, 0], [0xCBA6FEBE, 0x38AF3F6B, 0]) := by decide
/-- Q14: DIV0; a word outside the windows keeps its value. -/
theorem test_divmod_by_zero : after (exec .divmod (at' (wins 2 0 0x10 0x20 0x30) [(0, [0, 1, 9]), (0x10, [0, 0])]))
    (fun t => (t.status.word, t.mem.readWord 2, t.draws)) = some (0x00010100, 9, 1) := by decide

/-- Q13, the datapath with an add-back (R183). -/
theorem test_long_division :
    longDivide [0, 0, 0x80000000, 0x7FFFFFFF] [0xD0D11C3C, 0, 0xFFFFFFFF, 0] =
      some ([0x7FFFFFFF, 0, 0, 0], [0xD0D11C3C, 0x979771E2, 0xFFFFFFFE, 0]) := by decide

/-! ### Compare (2.7) -/

/-- K8 -/
theorem test_iszero : after (exec .iszero (at' (wins 2 0 0 0 0) [(0, [0, 0x80000000])])) res = some (0, 0, 0) := by decide
/-- K12 -/
theorem test_iszero_empty : after (exec .iszero (at' (wins 0 0 0 0 0) [])) res = some (1, 0, 0) := by decide
/-- K7 -/
theorem test_eq : after (exec .eq (at' (wins 2 0 0x10 0 0) [(0, [1, 2]), (0x10, [1, 3])])) res = some (0, 0, 0) := by decide
/-- K7 -/
theorem test_ne : after (exec .ne (at' (wins 2 0 0x10 0 0) [(0, [1, 2]), (0x10, [1, 3])])) res = some (1, 0, 0) := by decide
/-- K6 -/
theorem test_cmpu : after (exec .cmpu (at' (wins 2 0 0x10 0 0) [(0, [0xFFFFFFFF, 0]), (0x10, [0, 1])])) res =
    some (0xFFFFFFFF, 0, 0) := by decide
/-- K11 -/
theorem test_cmpu_low_word : after (exec .cmpu (at' (wins 2 0 0x10 0 0) [(0, [5, 0xFFFFFFFF]), (0x10, [3, 0xFFFFFFFF])])) res =
    some (1, 0, 0) := by decide
/-- K1: both negative. -/
theorem test_cmps_negative : after (exec .cmps (at' (wins 1 0 0x10 0 0) [(0, [0xFFFFFFFF]), (0x10, [0xFFFFFFFE])])) res =
    some (0xFFFFFFFF, 0, 0) := by decide
/-- K4: the signs differ. -/
theorem test_cmps_signs : after (exec .cmps (at' (wins 1 0 0x10 0 0) [(0, [1]), (0x10, [0xFFFFFFFF])])) res =
    some (1, 0, 0) := by decide

/-! ### Float (2.8) -/

/-- F6 -/
theorem test_fpack_truncates : after (exec .fpack (at' (ops 0xFFFFFFFF 0 0) [])) res = some (0x4F7FFFFF, 0, 0) := by decide
/-- F17 -/
theorem test_fpack_subnormal : after (exec .fpack (at' (ops 0x00FFFFFF 0xFFFFFF6A 0) [])) res = some (0x007FFFFF, 0, 0) := by
  decide
/-- U7 -/
theorem test_funpack_subnormal : after (exec .funpack (at' (ops 0x007FFFFF 0 0) [])) res =
    some (0x00FFFFFE, 0xFFFFFF6A, 2) := by decide
/-- U13 -/
theorem test_funpack_nan : after (exec .funpack (at' (ops 0xFFC00000 0 0) [])) res = some (0x00400000, 0, 9) := by decide
/-- X6 -/
theorem test_fextract : after (exec .fextract (at' (wins 1 0 0 0 0) [(0, [0x075BCD15])])) res =
    some (0xEB79A2A0, 0xFFFFFFFB, 0) := by decide
/-- X8 -/
theorem test_fextract_long : after (exec .fextract (at' (wins 3 0 0 0 0) [(0, [1, 0, 1])])) res =
    some (0x80000000, 0x21, 0) := by decide

/-! ### Contract violations (2.9, E1 to E11) -/

theorem test_e1 : stops (exec .add (at' (wins 2 0xFFFF 0 0 0) [])) = some .cv1WindowOutsideDM := by decide
theorem test_e2 : stops (exec .add (at' (wins 1 0xFFFF 0 0 0) [(0, [1]), (0xFFFF, [2])])) = none := by decide
theorem test_e5 : stops (exec .mulf (at' (wins 2 0 0x10 1 0) [])) = some .cv2WindowOverlap := by decide
theorem test_e6 : stops (exec .mulf (at' (wins 2 0 0 2 0) [(0, [1, 1, 0, 0, 0, 0])])) = none := by decide
theorem test_e7 : stops (exec .muls (at' (wins 2 0 0 1 0) [])) = some .cv2WindowOverlap := by decide
theorem test_e9 : stops (exec .add (at' (wins 0 0xFFFF 0xFFFF 0 0) [])) = none := by decide
theorem test_e10 : stops (step (about State.reset (.read .w16 0x00 0))) = some .cv4BadRegisterAccess ∧
    stops (step (about State.reset (.write .w32 0x02 (.lit 0)))) = some .cv4BadRegisterAccess := by decide
theorem test_e11 : stops (step (about busyReset (.dmRead 0 0))) = some .cv3AccessWhileBusy := by decide

/-! ### The system -/

/-- Rows 1 to 3 of 2.9: ID reads its constant. -/
theorem test_read_id : after (step (about State.reset (.read .w32 0x00 7))) (fun t => t.host.names) =
    some [(7, 0x4D574155)] := by decide

/-- Row 9 of 2.9. -/
theorem test_clear_sill :
    after (step (about { State.reset with status := { Status.clear with err := .illegal, sIll := true } }
      (.write .w32 0x04 (.lit 0x00020000)))) (fun t => t.status.word) = some 0x00000200 := by decide

/-- Row 7 of 2.9. -/
theorem test_illegal_word : after (step (about State.reset (.write .w32 0x08 (.lit 0x80)))) (fun t => t.status.word) =
    some 0x00020200 := by decide

/-- Row 5 of 2.9: a CMD write latches the argument registers and runs ADCW. -/
theorem test_issue : after (step (about { State.reset with args := ops 5 7 0 } (.write .w32 0x08 (.lit 1))))
    (fun t => (t.res0, t.status.word, t.host.pos)) = some (0xC, 0, 1) := by decide

/-- R243: overrun. -/
theorem test_overrun : after (step (about busyReset (.write .w32 0x08 (.lit 1)))) (fun t => t.status.word) =
    some 0x00040001 := by decide

/-- R281: after a CMD write a host that reads DM without a STATUS read breaks its duty; a STATUS read ends it. -/
theorem test_no_wait :
    after (step (about State.reset (.write .w32 0x08 (.lit 0)))) (fun t => t.waitDue) = some true ∧
    stops (step (about owing (.dmRead 0 1))) = some .cv3AccessWhileBusy ∧
    stops (step (about owing (.write .w32 0x08 (.lit 0)))) = some .cv3AccessWhileBusy ∧
    after (step (about owing (.read .w32 0x04 1))) (fun t => (t.waitDue, t.host.names)) = some (false, [(1, 0)]) := by decide

/-- R281: a STATUS read at BUSY = 1 (word 1) leaves the command completed, so the next read returns BUSY = 0. -/
theorem test_poll :
    after (step (about busyReset (.read .w32 0x04 1))) (fun t => (t.host.names, t.status.word, t.waitDue)) =
      some ([(1, 1)], 0, true) := by decide

/-- R52: byte k of a word is bits 8k+7 : 8k. -/
theorem test_byte_order : (dm [(1, [0x11223344])]).readByte 4 = 0x44 ∧ (dm [(1, [0x11223344])]).readByte 7 = 0x11 := by decide

/-- R78: `if name[k] == v goto L`. -/
theorem test_goto_if :
    after (step { State.reset with host := { program := [.gotoIf (.bit 3 8 true) 1, .wait, .label 1], pos := 0, names := [(3, 0x100)] } })
      (fun t => t.host.pos) = some 2 := by decide

/-- R79: `ZERO a=X, n=k` is three writes, the word 0x19 and a wait. -/
theorem test_pseudo_zero : pseudoZero Params.suggested (.lit 5) (.lit 2) =
    [.write .w32 0x10 (.lit 5), .write .w32 0x14 (.lit 5), .write .w32 0x0C (.lit 2), .write .w32 0x08 (.lit 0x19), .wait] := by
  decide

/-- A word placed by `withFetchWord` is what the next step issues, from reset: NOP, DIV (DIV0, since N = 0). -/
theorem test_fetch_word :
    after (step (State.reset.withFetchWord 32 0x00)) (fun t => (t.command, t.status.word)) = some (0x00, 0) ∧
    after (step (State.reset.withFetchWord 32 0x20)) (fun t => (t.command, t.status.word)) = some (0x20, 0x00010100) := by decide

/-! ### Witnesses: a state and operands that meet each statement's hypotheses, every clause at a boundary -/

/-- A state with one window's worth of DM written: A, B, D and R apart, two words each. -/
def apart4 : State := at' (wins 2 0 0x10 0x20 0x30) [(0, [7, 0]), (0x10, [3, 0]), (0x20, [0, 0]), (0x30, [0, 0])]

/-- The last window of DM, of one word, for A; B, D and R at 0. -/
def atTop : State := at' (wins 1 0xFFFF 0 0 0) [(0, [3]), (0xFFFF, [7])]

/-- Windows of no word, outside DM. -/
def empty : State := at' (wins 0 0xFFFFFFFF 0xFFFFFFFF 0xFFFFFFFF 0xFFFFFFFF) []

/-- A and its partners overlap in one word. -/
def crossed : State := at' (wins 2 0 1 1 0) []

/-- `op` is ready, in the reset state and while BUSY = 1. -/
theorem witness_StepRunsIssuedCommand :
    ready (about State.reset (.write .w32 (0 + 0x08) (.lit 0x42))) (.write .w32 (State.reset.cfg.regBase + 0x08) (.lit 0x42)) ∧
    State.reset.evalValue (.lit 0x42) = some 0x42 ∧ mayAccess State.reset ∧ decode 0x42 = .ok .fextract := by decide

/-- A host whose next operation writes a bound name to CMD. -/
def named : State := { State.reset with host := { program := [.wait, .write .w32 0x08 (.name 5)], pos := 1, names := [(5, 0)] } }

theorem witness_StepRunsIssuedCommand_name :
    ready named (.write .w32 (named.cfg.regBase + 0x08) (.name 5)) ∧ named.evalValue (.name 5) = some 0 ∧
    mayAccess named ∧ decode 0 = .ok .nop := by decide

theorem witness_IllegalWordTouchesStatusOnly_rsv :
    ready (about State.reset (.write .w32 8 (.lit 0x100))) (.write .w32 (State.reset.cfg.regBase + 0x08) (.lit 0x100)) ∧
    State.reset.evalValue (.lit 0x100) = some 0x100 ∧ mayAccess State.reset ∧ (0x100 : Word).toNat / 256 ≠ 0 := by decide

theorem witness_IllegalWordTouchesStatusOnly_op :
    ready (about State.reset (.write .w32 8 (.lit 0x08))) (.write .w32 (State.reset.cfg.regBase + 0x08) (.lit 0x08)) ∧
    unassigned ((0x08 : Word).toNat % 256) ∧ unassigned ((0xFF : Word).toNat % 256) ∧ ¬ unassigned ((0x42 : Word).toNat % 256) := by
  decide

theorem witness_OverrunIsDropped :
    ready (about busyReset (.write .w32 8 (.lit 0))) (.write .w32 (busyReset.cfg.regBase + 0x08) (.lit 0)) ∧
    busyReset.status.busy = true ∧ busyReset.evalValue (.lit 0) = some 0 := by decide

/-- Each clause with BUSY = 1, the CMD write with a wait owed, and the STATUS read in every case. -/
theorem witness_BusyAccessFaults :
    busyReset.status.busy = true ∧ owing.waitDue = true ∧ owing.status.busy = false ∧
    (Reg.status ≠ .cmd ∧ ready (about busyReset (.write .w32 4 (.lit 0))) (.write .w32 (busyReset.cfg.regBase + Reg.status.offset) (.lit 0))) ∧
    ready (about owing (.write .w32 8 (.lit 0))) (.write .w32 (owing.cfg.regBase + 0x08) (.lit 0)) ∧
    (Reg.rsv3C ≠ .status ∧ ready (about busyReset (.read .w32 0x3C 1)) (.read .w32 (busyReset.cfg.regBase + Reg.rsv3C.offset) 1)) ∧
    ready (about busyReset (.dmWrite 0xFFFF (.lit 1))) (.dmWrite 0xFFFF (.lit 1)) ∧
    ready (about owing (.dmRead 0 1)) (.dmRead 0 1) ∧
    (ready (about owing (.read .w32 4 1)) (.read .w32 (owing.cfg.regBase + 0x04) 1)) ∧
    (ready (about busyReset (.read .w32 4 1)) (.read .w32 (busyReset.cfg.regBase + 0x04) 1) ∧ decode busyReset.command = .ok .nop) ∧
    (decode ({ busyReset with command := 0xFF } : State).command = .error .unassignedOpcode) := by decide

theorem witness_NarrowOrMisalignedAccessFaults :
    (0 < 64 ∧ (AccessWidth.w8 ≠ .w32 ∨ 0 % 4 ≠ 0) ∧
      ready (about State.reset (.write .w8 0 (.lit 1))) (.write .w8 (State.reset.cfg.regBase + 0) (.lit 1)) ∧
      State.reset.evalValue (.lit 1) = some 1) ∧
    (63 < 64 ∧ (AccessWidth.w32 ≠ .w32 ∨ 63 % 4 ≠ 0) ∧
      ready (about State.reset (.read .w32 63 1)) (.read .w32 (State.reset.cfg.regBase + 63) 1)) := by decide

theorem witness_FaultMarkStopsEverything : ({ State.reset with faultMark := true } : State).faultMark = true := by decide

theorem witness_IdleUnitDoesNothing :
    State.reset.faultMark = false ∧ State.reset.resetLine = false ∧ State.reset.host.program.length ≤ State.reset.host.pos ∧
    State.reset.status.busy = false := by decide

/-- Reset between commands; inside a DIV whose D window is W(0x20, 2); inside one too long; and inside an illegal word. -/
theorem witness_PlatformResetKeepsMemory :
    (apart4.faultMark = false ∧ ({ apart4 with resetLine := true } : State).resetLine = true ∧ apart4.status.busy = false) ∧
    (decode 0x20 = .ok .div ∧ (∀ w ∈ windowsOf .div apart4.latch, fits apart4 w.base w.len) ∧
      overlapAllowed .div apart4.latch = true ∧ (∀ w ∈ writtenBy .div apart4.latch, ¬ (4 * w.base ≤ 0 ∧ 0 < 4 * (w.base + w.len))) ∧
      after (step { apart4 with resetLine := true, command := 0x20, status := busyReset.status })
        (fun t => (t.mem.readWord 0, t.status.word, t.draws)) = some (7, 0, 1)) ∧
    (Instr.isDivision .div = true ∧ (at' (wins 257 0 0 0 0) []).cfg.divNmax < argN (at' (wins 257 0 0 0 0) [])) ∧
    (busyReset.status.busy = true ∧ decode 0x23 = .error .unassignedOpcode) := by decide

theorem witness_RegisterWrites :
    (Reg.n ∈ [Reg.n, .addrA, .addrB, .addrD, .addrR, .opa, .opb, .opc] ∧
      ready (about State.reset (.write .w32 0x0C (.lit 9))) (.write .w32 (State.reset.cfg.regBase + Reg.n.offset) (.lit 9))) ∧
    (Reg.rsv3C ∈ [Reg.id, .res0, .res1, .res2, .rsv38, .rsv3C] ∧
      ready (about State.reset (.write .w32 0x3C (.lit 9))) (.write .w32 (State.reset.cfg.regBase + Reg.rsv3C.offset) (.lit 9))) ∧
    (ready (flow (.write .w32 0x28 (.name 5))) (.write .w32 (State.reset.cfg.regBase + Reg.opc.offset) (.name 5)) ∧
      (flow .wait).evalValue (.name 5) = some 0x80000000 ∧ mayAccess (flow .wait)) ∧
    mayAccess State.reset := by decide

theorem witness_RegisterReads :
    ready (about State.reset (.read .w32 0x34 2)) (.read .w32 (State.reset.cfg.regBase + Reg.res2.offset) 2) ∧
    mayAccess State.reset := by decide

theorem witness_StatusLayoutAndClear :
    ready (about State.reset (.write .w32 4 (.lit 0x000F0000))) (.write .w32 (State.reset.cfg.regBase + 0x04) (.lit 0x000F0000)) ∧
    mayAccess State.reset ∧ State.reset.evalValue (.lit 0x000F0000) = some 0x000F0000 := by decide

theorem witness_HostMemoryAccess :
    0xFFFF < 2 ^ State.reset.cfg.addrW ∧ ready (about State.reset (.dmWrite 0xFFFF (.lit 1))) (.dmWrite 0xFFFF (.lit 1)) ∧
    ready (about State.reset (.dmRead 0xFFFF 1)) (.dmRead 0xFFFF 1) ∧ mayAccess State.reset ∧
    State.reset.evalValue (.lit 1) = some 1 := by decide

/-- Tests that hold and fail, of every form; a jump's place; an unknown label and an unbound name. -/
theorem witness_HostControlFlow :
    ready (flow (.label 1)) (.label 1) ∧
    (ready (flow (.goto 7)) (.goto 7) ∧ (flow (.goto 7)).host.program[1]? = some (.label 7) ∧
      (∀ j, j < 1 → (flow (.goto 7)).host.program[j]? ≠ some (.label 7))) ∧
    (ready (flow (.gotoIf (.bit 5 31 true) 7)) (.gotoIf (.bit 5 31 true) 7) ∧ testHolds (flow .wait) (.bit 5 31 true)) ∧
    testHolds (flow .wait) (.eq 5 (.name 5)) ∧ testHolds (flow .wait) (.ne 5 (.lit 0)) ∧
    testFails (flow .wait) (.bit 5 0 true) ∧ testFails (flow .wait) (.eq 5 (.lit 0)) ∧ testFails (flow .wait) (.ne 5 (.name 5)) ∧
    (ready (flow .wait) .wait ∧ (flow .wait).status.busy = false) ∧
    (ready (about busyReset .wait) .wait ∧ busyReset.status.busy = true ∧ decode busyReset.command = .ok .nop) ∧
    (ready (flow (.goto 8)) (.goto 8) ∧ HostOp.label 8 ∉ (flow (.goto 8)).host.program) ∧
    ((flow .wait).evalValue (.name 6) = none ∧ ready (flow (.dmWrite 0 (.name 6))) (.dmWrite 0 (.name 6))) := by
  refine ⟨by decide, ⟨by decide, by decide, by decide⟩, ⟨by decide, _, rfl, by decide⟩, ⟨_, _, rfl, rfl, rfl⟩,
    ⟨_, _, rfl, rfl, by decide⟩, ⟨_, rfl, by decide⟩, ⟨_, _, rfl, rfl, by decide⟩, ⟨_, _, rfl, rfl, rfl⟩, by decide,
    by decide, ⟨by decide, by decide⟩, by decide⟩

/-- A test of a name that nothing has bound neither holds nor fails. -/
theorem witness_HostControlFlow_unbound :
    ready (flow (.gotoIf (.bit 6 0 true) 7)) (.gotoIf (.bit 6 0 true) 7) ∧
    ¬ testHolds (flow .wait) (.bit 6 0 true) ∧ ¬ testFails (flow .wait) (.bit 6 0 true) := by
  refine ⟨by decide, ?_, ?_⟩ <;>
  · rintro ⟨a, h, -⟩
    exact absurd h (by simp [nameValue, flow, SortedMap.find?])

/-- The two clauses of each bit-scan. -/
theorem witness_bit_scans : (at' (ops 0 0 0) []).latch.opa = 0 ∧ (at' (ops 0x80000000 0 0) []).latch.opa ≠ 0 := by decide

theorem witness_LawsOfThePrimitives : (1 : Word).toNat ≤ 1 ∧ (0x80000000 : Word) ≠ 0 := by decide

theorem witness_CarryAndBorrowChains :
    ([0xFFFFFFFF, 1] : List Word).length = ([1, 0] : List Word).length ∧ (1 : Word).toNat ≤ 1 := by decide

/-- NEG: D is A at the top of DM; D apart from A; windows of no word; and a D that crosses A. -/
theorem witness_NegStoresTwosComplement :
    (fits (at' (wins 1 0xFFFF 0 0xFFFF 0) [(0xFFFF, [7])]) 0xFFFF 1 ∧
      argD (at' (wins 1 0xFFFF 0 0xFFFF 0) []) = argA (at' (wins 1 0xFFFF 0 0xFFFF 0) [])) ∧
    (fits apart4 (argA apart4) (argN apart4) ∧ fits apart4 (argD apart4) (argN apart4) ∧
      apart (argD apart4) (argN apart4) (argA apart4) (argN apart4)) ∧
    (fits empty (argA empty) (argN empty) ∧ apart (argD empty) (argN empty) (argA empty) (argN empty)) ∧
    (fits crossed (argA crossed) (argN crossed) ∧ fits crossed (argD crossed) (argN crossed) ∧ argD crossed ≠ argA crossed ∧
      ¬ apart (argD crossed) (argN crossed) (argA crossed) (argN crossed)) := by decide

/-- ADD, SUB, AND, OR, XOR: B apart from A (A at the top of DM), B as A, and a B that crosses A. -/
theorem witness_two_operands :
    (fits atTop (argA atTop) (argN atTop) ∧ fits atTop (argB atTop) (argN atTop) ∧
      apart (argB atTop) (argN atTop) (argA atTop) (argN atTop)) ∧
    argB (at' (wins 2 4 4 0 0) []) = argA (at' (wins 2 4 4 0 0) []) ∧
    (fits crossed (argA crossed) (argN crossed) ∧ fits crossed (argB crossed) (argN crossed) ∧ argB crossed ≠ argA crossed ∧
      ¬ apart (argB crossed) (argN crossed) (argA crossed) (argN crossed)) := by decide

/-- ADDS, SUBS, NOT, SHL, SHR, ISZERO, FEXTRACT: window A at the top of DM, and one of no word. -/
theorem witness_one_window : fits atTop (argA atTop) (argN atTop) ∧ fits empty (argA empty) (argN empty) := by decide

theorem witness_DoubleNegationAndAddSubInverse :
    (fits State.reset (argA State.reset) (argN State.reset) ∧ argD State.reset = argA State.reset) ∧
    (fits apart4 (argA apart4) (argN apart4) ∧ fits apart4 (argB apart4) (argN apart4) ∧
      apart (argB apart4) (argN apart4) (argA apart4) (argN apart4)) := by decide

/-- MULF: D of 4 words apart from A and B; and a D that crosses A. -/
theorem witness_MulfAccumulatesProduct :
    (fits apart4 (argA apart4) (argN apart4) ∧ fits apart4 (argB apart4) (argN apart4) ∧ fits apart4 (argD apart4) (2 * argN apart4) ∧
      apart (argD apart4) (2 * argN apart4) (argA apart4) (argN apart4) ∧
      apart (argD apart4) (2 * argN apart4) (argB apart4) (argN apart4)) ∧
    (fits crossed (argD crossed) (2 * argN crossed) ∧
      (¬ apart (argD crossed) (2 * argN crossed) (argA crossed) (argN crossed) ∨
        ¬ apart (argD crossed) (2 * argN crossed) (argB crossed) (argN crossed))) := by decide

/-- MULS: D as A, D apart from A, n = 0, and a D that crosses A. -/
theorem witness_MulsAccumulatesScalarProduct :
    (fits State.reset (argA State.reset) (argN State.reset) ∧ fits State.reset (argD State.reset) (argN State.reset + 1) ∧
      argD State.reset = argA State.reset) ∧
    (fits apart4 (argA apart4) (argN apart4) ∧ fits apart4 (argD apart4) (argN apart4 + 1) ∧
      apart (argD apart4) (argN apart4 + 1) (argA apart4) (argN apart4)) ∧
    (fits crossed (argA crossed) (argN crossed) ∧ fits crossed (argD crossed) (argN crossed + 1) ∧ argD crossed ≠ argA crossed ∧
      ¬ apart (argD crossed) (argN crossed + 1) (argA crossed) (argN crossed)) := by decide

theorem witness_SchoolbookComputesTheProduct :
    ([1, 2] : List Word).length = ([3, 4] : List Word).length ∧
    ([0, 0, 0, 0] : List Word).length = 2 * ([1, 2] : List Word).length := by decide

/-- A divisor that is not 0, and R apart from D. -/
theorem witness_DivisionResults :
    argN apart4 ≤ apart4.cfg.divNmax ∧ fits apart4 (argA apart4) (argN apart4) ∧ fits apart4 (argB apart4) (argN apart4) ∧
    memRead apart4 (argB apart4) (argN apart4) ≠ 0 ∧ fits apart4 (argD apart4) (argN apart4) ∧
    fits apart4 (argR apart4) (argN apart4) ∧ apart (argD apart4) (argN apart4) (argR apart4) (argN apart4) := by decide

/-- n = 0, and a divisor window of zeros. -/
theorem witness_DivideByZeroCompletes :
    (Instr.isDivision .div = true ∧ argN empty ≤ empty.cfg.divNmax ∧ (∀ w ∈ windowsOf .div empty.latch, fits empty w.base w.len) ∧
      overlapAllowed .div empty.latch = true ∧ memRead empty (argB empty) (argN empty) = 0) ∧
    (Instr.isDivision .divmod = true ∧ memRead { apart4 with mem := dm [(0x10, [0, 0])] } (argB apart4) (argN apart4) = 0 ∧
      (∀ w ∈ windowsOf .divmod apart4.latch, fits apart4 w.base w.len) ∧ overlapAllowed .divmod apart4.latch = true) := by decide

theorem witness_OversizeDivisionCompletes :
    Instr.isDivision .mod = true ∧ (at' (wins 257 0 0 0 0) []).cfg.divNmax < argN (at' (wins 257 0 0 0 0) []) := by decide

theorem witness_SingleWordDivision : (1 : Word) ≠ 0 := by decide

/-- Both clauses of the datapath's statement. -/
theorem witness_LongDivisionRefinesDivision :
    ([1, 2] : List Word).length = ([0, 0] : List Word).length ∧ valueOf [0, 0] = 0 ∧ valueOf [0, 1] ≠ 0 := by decide

/-- ISZERO's two clauses, and EQ and NE's. -/
theorem witness_ZeroAndEqualityTests :
    memRead empty (argA empty) (argN empty) = 0 ∧ memRead apart4 (argA apart4) (argN apart4) ≠ 0 ∧
    (∀ i, i < argN empty → empty.mem.readWord (argA empty + i) = empty.mem.readWord (argB empty + i)) ∧
    (0 < argN apart4 ∧ apart4.mem.readWord (argA apart4 + 0) ≠ apart4.mem.readWord (argB apart4 + 0)) := by
  refine ⟨by decide, by decide, fun i hi => absurd hi (by simp [argN, empty, at', wins]), by decide⟩

/-- CMPU's clauses: the values' order, and the first unequal pair. -/
theorem witness_CmpuIsUnsignedOrder :
    memRead apart4 (argB apart4) (argN apart4) < memRead apart4 (argA apart4) (argN apart4) ∧
    memRead empty (argA empty) (argN empty) = memRead empty (argB empty) (argN empty) ∧
    memRead atTop (argB atTop) (argN atTop) < memRead atTop (argA atTop) (argN atTop) ∧
    (let s := at' (wins 1 0 1 0 0) [(0, [1, 2])]
     memRead s (argA s) (argN s) < memRead s (argB s) (argN s)) ∧
    (let s := at' (wins 2 0 2 0 0) [(0, [5, 0xFFFFFFFF, 3, 0xFFFFFFFF])]
     0 < argN s ∧ (∀ i, 0 < i → i < 2 → s.mem.readWord (argA s + i) = s.mem.readWord (argB s + i)) ∧
       (s.mem.readWord (argB s + 0)).toNat < (s.mem.readWord (argA s + 0)).toNat) := by
  refine ⟨by decide, by decide, by decide, by decide, by decide, fun i h0 h2 => ?_, by decide⟩
  obtain rfl : i = 1 := by omega
  decide

/-- CMPS's clauses: n = 0; signs that differ, both ways; equal signs with each order. -/
theorem witness_CmpsFollowsTheSourcesProcedure :
    argN empty = 0 ∧
    (let s := at' (wins 1 0 1 0 0) [(0, [0x80000000, 0x7FFFFFFF])]
     0 < argN s ∧ (s.mem.readWord (argA s + (argN s - 1))).getLsbD 31 = true ∧
       (s.mem.readWord (argB s + (argN s - 1))).getLsbD 31 = false) ∧
    (let s := at' (wins 1 0 1 0 0) [(0, [0x7FFFFFFF, 0x80000000])]
     (s.mem.readWord (argA s + (argN s - 1))).getLsbD 31 = false ∧ (s.mem.readWord (argB s + (argN s - 1))).getLsbD 31 = true) ∧
    (let s := at' (wins 1 0 1 0 0) [(0, [0x80000000, 0xFFFFFFFF])]
     (s.mem.readWord (argA s + (argN s - 1))).getLsbD 31 = true ∧ (s.mem.readWord (argB s + (argN s - 1))).getLsbD 31 = true ∧
       memRead s (argA s) (argN s) < memRead s (argB s) (argN s)) ∧
    (let s := at' (wins 1 0 1 0 0) [(0, [0xFFFFFFFF, 0x80000000])]
     memRead s (argB s) (argN s) < memRead s (argA s) (argN s)) := by decide

/-- Both orders' chains, and equal operands. -/
theorem witness_ComparisonsAreTotalOrders :
    cmpu [0] [1] = 0xFFFFFFFF ∧ cmpu [1] [0xFFFFFFFF] = 0xFFFFFFFF ∧ cmps [0xFFFFFFFF] [0x80000000] = 0xFFFFFFFF ∧
    cmps [0x80000000] [0] = 0xFFFFFFFF ∧ cmpu [5] [5] = 0 := by decide

/-- FPACK: m = 0; and m = 1, for which k = 1 and M = 2^23, with E = 255, 254, 1 and 0. -/
theorem witness_FpackPacksTruncated :
    (at' (ops 0 5 1) []).latch.opa = 0 ∧
    [(128, 255), (127, 254), (0xFFFFFF82, 1), (0xFFFFFF81, 0)].all (fun (e : Word × Int) =>
      let s := at' (ops 1 e.1 1) []
      decide (1 ≤ 1 ∧ 2 ^ (1 - 1) ≤ s.latch.opa.toNat ∧ s.latch.opa.toNat < 2 ^ 1 ∧
        2 ^ 23 = s.latch.opa.toNat * 2 ^ 24 / 2 ^ 1 ∧ e.2 = s.latch.opb.toInt + (1 : Nat) + 126)) = true := by decide

/-- FUNPACK: a pattern of each class, in a state that holds it. -/
theorem witness_FunpackClassifies :
    (let f := (at' (ops 0x80000000 0 0) []).latch.opa.toNat
     f / 2 ^ 23 % 256 = 0 ∧ f % 2 ^ 23 = 0) ∧
    (let f := (at' (ops 0x00000001 0 0) []).latch.opa.toNat
     f / 2 ^ 23 % 256 = 0 ∧ f % 2 ^ 23 ≠ 0) ∧
    (let f := (at' (ops 0x00800000 0 0) []).latch.opa.toNat
     1 = f / 2 ^ 23 % 256) ∧
    (let f := (at' (ops 0x7F7FFFFF 0 0) []).latch.opa.toNat
     1 ≤ f / 2 ^ 23 % 256 ∧ f / 2 ^ 23 % 256 = 254) ∧
    (let f := (at' (ops 0x7F800000 0 0) []).latch.opa.toNat
     f / 2 ^ 23 % 256 = 255 ∧ f % 2 ^ 23 = 0) ∧
    (let f := (at' (ops 0x7F800001 0 0) []).latch.opa.toNat
     f / 2 ^ 23 % 256 = 255 ∧ f % 2 ^ 23 ≠ 0) := by decide

/-- FEXTRACT: the value 0; p = 31 and p = 2. -/
theorem witness_FextractTakesTopBits :
    memRead empty (argA empty) (argN empty) = 0 ∧
    (let s := at' (wins 1 0 0 0 0) [(0, [0x80000000])]
     2 ^ 31 ≤ memRead s (argA s) (argN s) ∧ memRead s (argA s) (argN s) < 2 ^ (31 + 1)) ∧
    (2 ^ 2 ≤ memRead apart4 (argA apart4) (argN apart4) ∧ memRead apart4 (argA apart4) (argN apart4) < 2 ^ (2 + 1)) ∧
    apart4.cfg.addrW ≤ 24 := by decide

theorem witness_FloatRoundTrip : (at' (ops 0x7F7FFFFF 0 0) []).latch.opa.toNat / 2 ^ 23 % 256 ≠ 255 := by decide

/-- A window one word too long for DM; for a division, with n ≤ DIV_NMAX. -/
theorem witness_WindowOutsideDmFaults :
    (let s := at' (wins 2 0xFFFF 0 0 0) []
     s.latch.winA ∈ windowsOf .div s.latch ∧ ¬ fits s s.latch.winA.base s.latch.winA.len ∧
       (Instr.isDivision .div = true → argN s ≤ s.cfg.divNmax)) := by decide

/-- DIVMOD with R over the last word of D; with D and R over A and B; and windows that are only read, overlapping. -/
theorem witness_OverlapTable :
    (let s := at' (wins 2 0 0x10 0x20 0x21) []
     fits s (argA s) (argN s) ∧ fits s (argB s) (argN s) ∧ fits s (argD s) (argN s) ∧ fits s (argR s) (argN s) ∧
       argN s ≤ s.cfg.divNmax ∧ ¬ apart (argD s) (argN s) (argR s) (argN s)) ∧
    (let s := at' (wins 2 0 2 0 2) []
     fits s (argA s) (argN s) ∧ apart (argD s) (argN s) (argR s) (argN s)) ∧
    (∀ w ∈ windowsOf .cmps crossed.latch, fits crossed w.base w.len) := by decide

/-- Each command of the statement goes on at `apart4`. -/
theorem witness_FrameOfInPlaceCommands :
    [Instr.add, .sub, .adds, .subs, .and, .or, .xor, .not, .shl, .shr].all
      (fun i => after (exec i apart4) (fun _ => true) == some true) = true := by decide

theorem witness_FrameOfDestinationCommands :
    [Instr.neg, .mulf, .muls].all (fun i => after (exec i apart4) (fun _ => true) == some true) = true := by decide

theorem witness_FrameOfScalarCommands :
    [Instr.nop, .msb, .lsb, .popc, .fls, .iszero, .eq, .ne, .cmpu, .cmps, .fpack, .adcw, .sbbw, .mulw, .fextract, .funpack].all
      (fun i => after (exec i apart4) (fun _ => true) == some true) = true := by decide

/-- Divisions that end with OK, DIV0 and NRANGE. -/
theorem witness_FrameOfDivisions :
    [Instr.div, .mod, .divmod].all (fun i =>
      after (exec i apart4) (fun t => t.status.err) == some .ok &&
      after (exec i empty) (fun t => t.status.err) == some .div0 &&
      after (exec i (at' (wins 257 0 0 0 0) [])) (fun t => t.status.err) == some .nrange) = true := by decide

/-- A command that ends with OK, and one that ends with an error. -/
theorem witness_CompletionAndArguments :
    (∃ t, exec .nop State.reset = .next t) ∧ after (exec .div empty) (fun t => t.status.err) = some .div0 :=
  ⟨⟨_, rfl⟩, by decide⟩

/-- The invariants hold at reset, and in a state with DM written, from which a step goes on. -/
theorem witness_StepKeepsMemory :
    State.reset.memoryOk = true ∧ apart4.memoryOk = true ∧
    after (step (apart4.withFetchWord 32 0x22)) (fun t => t.memoryOk) = some true := by decide

theorem witness_StepKeepsQuiescence :
    State.reset.quiescent = true ∧ apart4.quiescent = true ∧
    after (step (apart4.withFetchWord 32 0x22)) (fun t => t.quiescent) = some true := by decide

end Sys2Proof.Tests
end

/-! ### R12: MemRead and MemWrite -/
namespace Sys2Proof.Machine

/-- R12: the value of a window, word by word. -/
theorem memRead_eq_sum (s : State) (a n : Nat) :
    memRead s a n = ((List.range n).map fun i => (s.mem.readWord (a + i)).toNat * 2 ^ (32 * i)).sum := by
  induction n generalizing a with
  | zero => rfl
  | succ n ih =>
    have hterm (i : Nat) : (s.mem.readWord (a + (i + 1))).toNat * 2 ^ (32 * (i + 1)) =
        2 ^ 32 * ((s.mem.readWord (a + 1 + i)).toNat * 2 ^ (32 * i)) := by
      rw [show a + (i + 1) = a + 1 + i by omega, Nat.mul_succ, Nat.pow_add]
      ring
    calc memRead s a (n + 1)
        = (s.mem.readWord a).toNat + 2 ^ 32 * memRead s (a + 1) n := rfl
      _ = ((List.range (n + 1)).map fun i => (s.mem.readWord (a + i)).toNat * 2 ^ (32 * i)).sum := by
        rw [ih, ← List.sum_map_mul_left, List.range_succ_eq_map]
        simp [Function.comp_def, hterm]

/-- Word `i` of the words of `v` is `v div 2^(32i)`, cut to a word. -/
theorem wordsOf_getElem (n v i : Nat) (h : i < (wordsOf n v).length) :
    (wordsOf n v)[i] = BitVec.ofNat 32 (v / 2 ^ (32 * i)) := by
  induction n generalizing v i with
  | zero => simp at h
  | succ n ih =>
    cases i with
    | zero => simp [wordsOf]
    | succ i =>
      have hdiv : v / 2 ^ 32 / 2 ^ (32 * i) = v / 2 ^ (32 * (i + 1)) := by
        rw [Nat.div_div_eq_div_mul, ← Nat.pow_add, Nat.mul_succ, Nat.add_comm]
      simp only [wordsOf, List.getElem_cons_succ, ih, hdiv]

/-- R12: a store sets word `i` of its window to `(v div 2^(32i)) mod 2^32`. -/
theorem readWord_store_same (s : State) (w : Window) (v i : Nat) (h : i < w.len) :
    ((s.store w v).mem.readWord (w.base + i)).toNat = v / 2 ^ (32 * i) % 2 ^ 32 := by
  rw [store_mem, readWord_writeWords_same _ _ _ _ (by rwa [wordsOf_length]), wordsOf_getElem, BitVec.toNat_ofNat]

/-- R12: a store changes no byte outside its window. -/
theorem sameOutside_store (s : State) (w : Window) (v : Nat) : sameOutside s (s.store w v) w.base w.len := by
  intro c hc
  have hout : c / 4 < w.base ∨ w.base + (wordsOf w.len v).length ≤ c / 4 := by
    rw [wordsOf_length]
    omega
  rw [store_mem, readByte_writeWords_other _ _ _ _ hout]

/-- Settles O17: the sum by induction on the word count; a store, from its word rule, its value and its frame. -/
theorem memReadAndMemWrite : Obligations.MemReadAndMemWrite :=
  ⟨memRead_eq_sum, fun s a n v =>
    ⟨readWord_store_same s ⟨a, n⟩ v, value_store_same s ⟨a, n⟩ v, sameOutside_store s ⟨a, n⟩ v⟩⟩

end Sys2Proof.Machine

/-! ### R21, R55: memory and the parameters, kept by every step -/
namespace Sys2Proof.Machine

@[simp] theorem setReg_cfg (s : State) (r : Reg) (v : Word) : (s.setReg r v).cfg = s.cfg := by cases r <;> rfl

@[simp] theorem setReg_mem (s : State) (r : Reg) (v : Word) : (s.setReg r v).mem = s.mem := by cases r <;> rfl

@[simp] theorem setReg_scratch (s : State) (r : Reg) (v : Word) : (s.setReg r v).scratch = s.scratch := by
  cases r <;> rfl

/-- `t` has the parameters of `s`, and memory in canonical form and inside DM where `s` has. -/
structure KeepsMemory (s t : State) : Prop where
  cfg : t.cfg = s.cfg
  memoryOk : s.memoryOk = true → t.memoryOk = true

theorem memoryOk_iff (s : State) : s.memoryOk = true ↔ s.mem.wf = true ∧ s.mem.inDM s.cfg.memWords = true := by
  simp [State.memoryOk]

theorem KeepsMemory.of_mem_eq {s t : State} (hcfg : t.cfg = s.cfg) (hmem : t.mem = s.mem) : KeepsMemory s t :=
  ⟨hcfg, by simp [State.memoryOk, hcfg, hmem]⟩

/-- Writes inside windows of DM keep memory. -/
theorem WritesWithin.keepsMemory {s t : State} {ws : List Window} (h : WritesWithin s ws t.mem) (hcfg : t.cfg = s.cfg) :
    KeepsMemory s t := by
  refine ⟨hcfg, fun hs => ?_⟩
  obtain ⟨hwf, hin⟩ := (memoryOk_iff s).1 hs
  exact (memoryOk_iff t).2 ⟨h.wf hwf, hcfg ▸ h.inDM hin⟩

/-- R67: a host write to a DM word that exists keeps memory. -/
theorem writeWord_keepsMemory (s : State) {a : Nat} (w : Word) (ha : a < s.cfg.memWords) :
    KeepsMemory s { s with mem := s.mem.writeWord a w } := by
  refine ⟨rfl, fun hs => ?_⟩
  obtain ⟨hwf, hin⟩ := (memoryOk_iff s).1 hs
  exact (memoryOk_iff _).2 ⟨writeWord_wf _ a w hwf, writeWord_inDM _ _ a w hin ha⟩

theorem runCommand_keepsMemory {s t : State} (h : s.runCommand = .next t) : KeepsMemory s t := by
  rcases runCommand_next h with ⟨-, rfl⟩ | ⟨i, -, hi⟩
  · exact .of_mem_eq rfl rfl
  · exact (exec_next hi).mem.keepsMemory (exec_next hi).cfg

theorem hostEffect_keepsMemory {s u : State} (h : HostEffect s u) : KeepsMemory s u := by
  cases h with
  | none => exact .of_mem_eq rfl rfl
  | register r v => exact .of_mem_eq (setReg_cfg s r v) (setReg_mem s r v)
  | dm a w ha => exact writeWord_keepsMemory s w ha
  | overrun => exact .of_mem_eq rfl rfl
  | issue w _ _ h =>
    have hk := runCommand_keepsMemory h
    exact ⟨hk.cfg, hk.memoryOk⟩
  | completes b _ _ h =>
    have hk := runCommand_keepsMemory h
    exact ⟨hk.cfg, hk.memoryOk⟩

/-- R273: the draws of a reset lie in windows of the abandoned command, which lie in DM. -/
theorem unitReset_keepsMemory {s t : State} (h : s.unitReset = .next t) : KeepsMemory s t := by
  rcases unitReset_next h with rfl | ⟨i, -, -, hall, rfl⟩
  · exact .of_mem_eq rfl rfl
  · obtain ⟨hwf, hin, -⟩ := scramble_memory s (writtenBy i s.latch)
    have hwritten : (writtenBy i s.latch).all (Window.inDM s.cfg) = true :=
      List.all_eq_true.2 fun w hw => List.all_eq_true.1 hall w (writtenBy_subset i _ hw)
    refine ⟨rfl, fun hs => ?_⟩
    obtain ⟨h1, h2⟩ := (memoryOk_iff s).1 hs
    exact (memoryOk_iff _).2 ⟨hwf h1, hin h2 hwritten⟩

theorem step_keepsMemory {s t : State} (h : step s = .next t) : KeepsMemory s t := by
  obtain ⟨-, ⟨-, hreset⟩ | ⟨-, u, hu, ht⟩⟩ := step_next h
  · exact unitReset_keepsMemory hreset
  · have hk := hostEffect_keepsMemory hu
    rw [ht]
    exact ⟨hk.cfg, hk.memoryOk⟩

/-- Settles O58: every effect of a step, by the inversion of `step`, writes inside DM or not at all. -/
theorem stepKeepsMemory : Obligations.StepKeepsMemory :=
  fun _ _ hs h => ⟨(step_keepsMemory h).memoryOk hs, (step_keepsMemory h).cfg⟩

/-! ### R20, R57, R243: quiescence, kept by every step -/

theorem quiescent_iff (s : State) :
    s.quiescent = true ↔ s.status.busy = false ∧ s.status.sOvr = false ∧ s.scratch = Scratch.empty := by
  simp [State.quiescent, and_assoc]

/-- R24: a register write leaves BUSY alone. -/
@[simp] theorem setReg_busy (s : State) (r : Reg) (v : Word) : (s.setReg r v).status.busy = s.status.busy := by
  cases r <;> rfl

/-- R24: a register write sets no sticky bit. -/
theorem setReg_sOvr {s : State} (r : Reg) (v : Word) (h : s.status.sOvr = false) :
    (s.setReg r v).status.sOvr = false := by
  cases r <;> simp [State.setReg, Status.writeOneToClear, h]

/-- R57: a command that runs with S_OVR = 0 and no scratch held completes, and leaves them so. -/
theorem runCommand_quiescent {s t : State} (h : s.runCommand = .next t) (hovr : s.status.sOvr = false)
    (hscr : s.scratch = Scratch.empty) : t.quiescent = true := by
  rw [quiescent_iff]
  rcases runCommand_next h with ⟨-, rfl⟩ | ⟨i, -, hi⟩
  · simp [hovr, hscr]
  · obtain ⟨e, hst⟩ := (exec_next hi).status
    have hsc : t.scratch = Scratch.empty := (exec_next hi).scratch.elim (·.trans hscr) id
    simp [hst, hovr, hsc]

theorem hostEffect_quiescent {s u : State} (h : HostEffect s u) (hs : s.quiescent = true) : u.quiescent = true := by
  obtain ⟨hbusy, hovr, hscr⟩ := (quiescent_iff s).1 hs
  cases h with
  | none => exact hs
  | register r v => exact (quiescent_iff _).2 ⟨by simpa using hbusy, setReg_sOvr r v hovr, by simpa using hscr⟩
  | dm => exact hs
  | overrun hb => simp [hbusy] at hb
  | issue w _ _ h => exact runCommand_quiescent h hovr hscr
  | completes b _ hb => simp [hbusy] at hb

theorem unitReset_quiescent {s t : State} (h : s.unitReset = .next t) : t.quiescent = true := by
  rcases unitReset_next h with rfl | ⟨i, -, -, -, rfl⟩ <;> rfl

/-- Settles O59: from BUSY = 0 the effects of a step leave BUSY and S_OVR alone or run a command to its completion. -/
theorem stepKeepsQuiescence : Obligations.StepKeepsQuiescence := by
  intro s t hs h
  obtain ⟨-, ⟨-, hreset⟩ | ⟨-, u, hu, ht⟩⟩ := step_next h
  · exact unitReset_quiescent hreset
  · have hq := hostEffect_quiescent hu hs
    rw [ht]
    exact hq

/-! ### R29, R57: the frames of the commands with scalar results -/

theorem finish_next {u t : State} (h : u.finish = .next t) : t = u.complete .ok := by
  cases h
  rfl

theorem checked_finish_next {s u t : State} {i : Instr} (h : s.checked i u.finish = .next t) : t = u.complete .ok :=
  finish_next (checked_next h).2.2

/-- R104 to R107, R201 to R205, R216: a command with one result sets RES0 and completes. -/
theorem exec_next_of_res0 {i : Instr} {s t : State} (h : exec i s = .next t)
    (hi : i ∈ [Instr.msb, .lsb, .popc, .fls, .iszero, .eq, .ne, .cmpu, .cmps, .fpack]) :
    ∃ v, t = (s.setRes0 v).complete .ok := by
  simp only [List.mem_cons, List.not_mem_nil, or_false] at hi
  rcases hi with rfl | rfl | rfl | rfl | rfl | rfl | rfl | rfl | rfl | rfl
  · exact ⟨_, finish_next h⟩
  · exact ⟨_, finish_next h⟩
  · exact ⟨_, finish_next h⟩
  · exact ⟨_, finish_next h⟩
  · exact ⟨_, checked_finish_next h⟩
  · exact ⟨_, checked_finish_next h⟩
  · exact ⟨_, checked_finish_next h⟩
  · exact ⟨_, checked_finish_next h⟩
  · exact ⟨_, checked_finish_next h⟩
  · exact ⟨_, finish_next h⟩

/-- R101 to R103, R218: a command with two results sets RES0 and RES1 and completes. -/
theorem exec_next_of_res01 {i : Instr} {s t : State} (h : exec i s = .next t)
    (hi : i ∈ [Instr.adcw, .sbbw, .mulw, .fextract]) : ∃ v w, t = ((s.setRes0 v).setRes1 w).complete .ok := by
  simp only [List.mem_cons, List.not_mem_nil, or_false] at hi
  rcases hi with rfl | rfl | rfl | rfl
  · exact ⟨_, _, finish_next h⟩
  · exact ⟨_, _, finish_next h⟩
  · exact ⟨_, _, finish_next h⟩
  · exact ⟨_, _, checked_finish_next h⟩

/-- Settles O55: each such command is a few result-register updates and a completion, which touch no other field. -/
theorem frameOfScalarCommands : Obligations.FrameOfScalarCommands := by
  intro i s t h
  refine ⟨?_, fun hi => ?_, fun hi => ?_, ?_⟩
  · rintro rfl
    exact finish_next h
  · obtain ⟨v, rfl⟩ := exec_next_of_res0 h hi
    rfl
  · obtain ⟨v, w, rfl⟩ := exec_next_of_res01 h hi
    rfl
  · rintro rfl
    rw [finish_next h]
    rfl

/-! ### R35: reset -/

/-- R35: STATUS reads 0 after reset. -/
theorem status_word_clear : Status.clear.word = 0 := by decide

/-- Settles O11: each value is a field of the one reset state, STATUS through its word. -/
theorem resetValues : Obligations.ResetValues :=
  ⟨rfl, status_word_clear, by decide⟩

/-! ### R22, R54: the host's access to a register of the block -/

theorem step_of_ready {s : State} {op : HostOp} (h : ready s op) : step s = s.hostOp op := by
  obtain ⟨hmark, hline, hop⟩ := h
  simp [step, State.stepSystem, hmark, hline, hop]

theorem ofOffset_offset (r : Reg) : Reg.ofOffset r.offset = some r := by cases r <;> rfl

theorem offset_lt (r : Reg) : r.offset < 64 := by cases r <;> decide

theorem busOffset_reg (p : Params) (r : Reg) : busOffset p (p.regBase + r.offset) = some r.offset := by
  simp [busOffset, offset_lt]

theorem mustWait_of_mayAccess {s : State} (h : mayAccess s) : s.mustWait = false := by
  simp [State.mustWait, h.1, h.2]

/-- R22: a 32-bit write at a register's bus address is a write to that register. -/
theorem busWrite_reg (s : State) (r : Reg) (v : Word) :
    s.busWrite .w32 (s.cfg.regBase + r.offset) v = s.writeReg r v := by
  simp [State.busWrite, busOffset_reg, ofOffset_offset]

/-- R22: the step of a register write, other than to CMD, by a host that owes no wait. -/
theorem step_write_reg {s : State} {r : Reg} {v : HostValue} {w : Word} (hmay : mayAccess s)
    (hv : s.evalValue v = some w) (hready : ready s (.write .w32 (s.cfg.regBase + r.offset) v)) (hr : r ≠ .cmd) :
    step s = .next (s.setReg r w).advance := by
  rw [step_of_ready hready]
  simp [State.hostOp, State.opWrite, hv, busWrite_reg, State.writeReg, hr, mustWait_of_mayAccess hmay]

/-- R281: a poll at BUSY = 0 by a host that owes no wait changes nothing. -/
theorem polled_of_mayAccess {s : State} (h : mayAccess s) : s.polled = .next s := by
  obtain ⟨hbusy, hdue⟩ := h
  rw [State.polled, if_neg (by simp [hbusy]), ← hdue]
  rfl

/-- R22, R60: the step of a register read, STATUS too, by a host that owes no wait. -/
theorem step_read_reg {s : State} {r : Reg} {x : Nat} (hmay : mayAccess s)
    (hready : ready s (.read .w32 (s.cfg.regBase + r.offset) x)) :
    step s = .next (s.bind x (s.regValue r)).advance := by
  rw [step_of_ready hready]
  simp only [State.hostOp, State.opRead, busOffset_reg, ofOffset_offset]
  split
  · next hr => subst hr; rw [polled_of_mayAccess hmay]; rfl
  · rw [if_neg (by simp [mustWait_of_mayAccess hmay])]

/-! ### R22, R26 to R30: register writes and reads -/

@[simp] theorem regValue_advance (s : State) (r : Reg) : s.advance.regValue r = s.regValue r := by cases r <;> rfl

/-- R26 to R28: a write to an argument register changes the argument registers only. -/
theorem setReg_argument (s : State) {r : Reg} (v : Word)
    (hr : r ∈ [Reg.n, .addrA, .addrB, .addrD, .addrR, .opa, .opb, .opc]) :
    s.setReg r v = { s with args := (s.setReg r v).args } ∧ (s.setReg r v).regValue r = v := by
  fin_cases hr <;> exact ⟨rfl, rfl⟩

/-- R23, R29, R30: a write to ID, a result register or a reserved slot is ignored. -/
theorem setReg_ignored (s : State) {r : Reg} (v : Word) (hr : r ∈ [Reg.id, .res0, .res1, .res2, .rsv38, .rsv3C]) :
    s.setReg r v = s := by
  fin_cases hr <;> rfl

/-- R22: a write to one register is not seen in another. -/
theorem regValue_setReg_other (s : State) {r q : Reg} (v : Word) (h : q ≠ r) :
    (s.setReg r v).regValue q = s.regValue q := by
  cases r <;> cases q <;> simp [State.setReg, State.regValue] at h ⊢

/-- Settles O13: the step is `setReg` and a move of the host; each register by the rule for its kind. -/
theorem registerWrites : Obligations.RegisterWrites := by
  intro s r v w hmay hv hready
  refine ⟨fun hr => ?_, fun hr => ?_⟩
  · have hcmd : r ≠ .cmd := by rintro rfl; simp at hr
    obtain ⟨hframe, hsame⟩ := setReg_argument s w hr
    refine ⟨_, step_write_reg hmay hv hready hcmd, by simpa using hsame, fun q hq => ?_, ?_⟩
    · rw [regValue_advance, regValue_setReg_other s w hq]
    · rw [hframe]
      rfl
  · have hcmd : r ≠ .cmd := by rintro rfl; simp at hr
    rw [step_write_reg hmay hv hready hcmd, setReg_ignored s w hr]
    rfl

/-- Settles O14: the step binds the register's value and moves the host. -/
theorem registerReads : Obligations.RegisterReads := by
  refine ⟨fun s r x hmay hready => ?_, fun s => ⟨rfl, rfl, rfl, rfl⟩⟩
  exact ⟨_, step_read_reg hmay hready, find_insert_same _ x _, fun y hy => find_insert_other _ _ hy, rfl⟩

/-! ### R24: STATUS -/

@[simp] theorem flagBit_toNat (b : Bool) : (flagBit b).toNat = b.toNat := by cases b <;> rfl

/-- The number of two bit strings, one above the other. -/
theorem toNat_append_eq_add {m n : Nat} (x : BitVec m) (y : BitVec n) :
    (x ++ y).toNat = 2 ^ n * x.toNat + y.toNat := by
  rw [BitVec.toNat_append, Nat.shiftLeft_eq, Nat.mul_comm, Nat.two_pow_add_eq_or_of_lt y.isLt]

/-- R24: STATUS as the sum of its fields, each at its place. -/
theorem status_word_toNat (st : Status) :
    st.word.toNat = st.busy.toNat + 2 ^ 8 * st.err.bits.toNat + 2 ^ 16 * st.sDiv0.toNat + 2 ^ 17 * st.sIll.toNat +
      2 ^ 18 * st.sOvr.toNat + 2 ^ 19 * st.sNrange.toNat := by
  simp only [Status.word, toNat_append_eq_add, flagBit_toNat, BitVec.ofNat_eq_ofNat, BitVec.toNat_ofNat]
  omega

/-- R24: what a write of 1s does to a sticky bit. -/
theorem sticky_and_not_eq_ite (b c : Bool) : (b && !c) = if c then false else b := by cases c <;> simp

/-- Settles O15: the layout by its fields' places; the write is `setReg` at STATUS. -/
theorem statusLayoutAndClear : Obligations.StatusLayoutAndClear := by
  refine ⟨fun st => ?_, fun s v w hmay hv hready => ?_⟩
  · rw [status_word_toNat]
    cases st.err <;> rfl
  · rw [step_write_reg (r := .status) hmay hv hready (by decide)]
    simp only [State.setReg, Status.writeOneToClear, sticky_and_not_eq_ite]
    rfl

end Sys2Proof.Machine

/-! ### R57: the frames of the commands that write windows -/
namespace Sys2Proof.Machine

/-- R12: words stored over a whole window change no byte outside it. -/
theorem sameOutside_storeWords (s : State) (w : Window) (vs : List Word) (hl : vs.length = w.len) :
    sameOutside s (s.storeWords w vs) w.base w.len := by
  intro c hc
  have hout : w.mem (c / 4) = false := by
    rw [← Bool.not_eq_true, window_mem_iff]
    omega
  exact readByte_storeWords_other s w vs c hl hout

/-- R57, R29: a checked command that stores over one window and completes changes that window and STATUS only. -/
theorem frame_of_checked_storeWords {i : Instr} {s t : State} {w : Window} {vs : List Word}
    (h : s.checked i (s.storeWords w vs).finish = .next t) (hl : vs.length = w.len) :
    sameOutside s t w.base w.len ∧ onlyMemory s t := by
  rw [checked_finish_next h]
  exact ⟨sameOutside_storeWords s w vs hl, rfl⟩

/-- R123 to R126, R150 to R156: an in-place command is its contract check and a store over the whole of window A. -/
theorem exec_inPlace_eq {i : Instr} (s : State)
    (hi : i ∈ [Instr.add, .sub, .adds, .subs, .and, .or, .xor, .not, .shl, .shr]) :
    ∃ vs : List Word, vs.length = s.latch.winA.len ∧
      exec i s = s.checked i (s.storeWords s.latch.winA vs).finish := by
  have hB : s.latch.winB.len = s.latch.winA.len := rfl
  simp only [List.mem_cons, List.not_mem_nil, or_false] at hi
  rcases hi with rfl | rfl | rfl | rfl | rfl | rfl | rfl | rfl | rfl | rfl
  · exact ⟨_, wordsOf_length _ _, rfl⟩
  · exact ⟨_, wordsOf_length _ _, rfl⟩
  · exact ⟨_, wordsOf_length _ _, rfl⟩
  · exact ⟨_, wordsOf_length _ _, rfl⟩
  · exact ⟨_, by simp [hB], rfl⟩
  · exact ⟨_, by simp [hB], rfl⟩
  · exact ⟨_, by simp [hB], rfl⟩
  · exact ⟨_, by simp, rfl⟩
  · exact ⟨_, wordsOf_length _ _, rfl⟩
  · exact ⟨_, wordsOf_length _ _, rfl⟩

/-- Settles O53: each in-place command is one store over window A. -/
theorem frameOfInPlaceCommands : Obligations.FrameOfInPlaceCommands := by
  intro i s t hi h
  obtain ⟨vs, hl, heq⟩ := exec_inPlace_eq s hi
  exact frame_of_checked_storeWords (w := s.latch.winA) (heq ▸ h) hl

/-- Settles O54: NEG, MULF and MULS are one store over their D window each. -/
theorem frameOfDestinationCommands : Obligations.FrameOfDestinationCommands :=
  fun s _ =>
    ⟨fun h => frame_of_checked_storeWords (w := s.latch.winD) h (wordsOf_length _ _),
      fun h => frame_of_checked_storeWords (w := s.latch.winD2) h (wordsOf_length _ _),
      fun h => frame_of_checked_storeWords (w := s.latch.winD1) h (wordsOf_length _ _)⟩

/-! ### R57, R174, R247: the frames of the divisions -/

/-- A byte outside the windows of the list keeps its value. -/
theorem WritesWithin.readByte_outside {s : State} {ws : List Window} {m : Memory} (h : WritesWithin s ws m) {c : Nat}
    (hc : ∀ w ∈ ws, ¬ (4 * w.base ≤ c ∧ c < 4 * (w.base + w.len))) : m.readByte c = s.mem.readByte c := by
  refine h.other c (List.all_eq_true.2 fun w hw => ?_)
  have hout := hc w hw
  rw [Bool.not_eq_true', ← Bool.not_eq_true, window_mem_iff]
  omega

/-- The three ends of a division that goes on (R171 to R174, R245): NRANGE, DIV0 with free draws in every window it
names, and its results in the windows it writes. -/
inductive DivisionEnd (i : Instr) (s : State) : State → Prop where
  | oversize : DivisionEnd i s (s.complete .nrange)
  | byZero : DivisionEnd i s (((s.loadScratch.scramble (windowsOf i s.latch)).releaseScratch).complete .div0)
  | results (m : Memory) (hm : WritesWithin s (writtenBy i s.latch) m) :
      DivisionEnd i s ((({ s.loadScratch with mem := m } : State).releaseScratch).complete .ok)

/-- A division whose results `k` only writes words into the windows of R74 ends in one of the three ways. -/
theorem divisionEnd_of_divide {i : Instr} {s t : State} {k : State → Nat → Nat → State} (h : s.divide i k = .next t)
    (hk : ∀ a v, (∀ w ∈ writtenBy i s.latch, w.inDM s.cfg = true) →
      ∃ m, WritesWithin s (writtenBy i s.latch) m ∧ k s.loadScratch a v = { s.loadScratch with mem := m }) :
    DivisionEnd i s t := by
  rcases divide_next h with ⟨-, rfl⟩ | ⟨-, hall, -, ⟨-, rfl⟩ | ⟨-, rfl⟩⟩
  · exact .oversize
  · exact .byZero
  · obtain ⟨m, hm, heq⟩ := hk (s.value s.latch.winA) (s.value s.latch.winB) fun w hw =>
      List.all_eq_true.1 hall w (writtenBy_subset i _ hw)
    rw [heq]
    exact .results m hm

/-- R171 to R173: DIV, MOD and DIVMOD store their results into the windows of R74 only. -/
theorem exec_division_next {i : Instr} {s t : State} (hi : i ∈ [Instr.div, .mod, .divmod]) (h : exec i s = .next t) :
    DivisionEnd i s t := by
  have hrefl := WritesWithin.refl s (writtenBy i s.latch)
  simp only [List.mem_cons, List.not_mem_nil, or_false] at hi
  rcases hi with rfl | rfl | rfl
  · rw [exec, execDiv] at h
    refine divisionEnd_of_divide h fun a v hin => ⟨_, ?_, rfl⟩
    have hD : s.latch.winD ∈ writtenBy .div s.latch := by simp [writtenBy]
    exact hrefl.storeWords hD (wordsOf_length _ _) (hin _ hD)
  · rw [exec, execMod] at h
    refine divisionEnd_of_divide h fun a v hin => ⟨_, ?_, rfl⟩
    have hR : s.latch.winR ∈ writtenBy .mod s.latch := by simp [writtenBy]
    exact hrefl.storeWords hR (wordsOf_length _ _) (hin _ hR)
  · rw [exec, execDivmod] at h
    refine divisionEnd_of_divide h fun a v hin => ⟨_, ?_, rfl⟩
    have hD : s.latch.winD ∈ writtenBy .divmod s.latch := by simp [writtenBy]
    have hR : s.latch.winR ∈ writtenBy .divmod s.latch := by simp [writtenBy]
    exact (hrefl.storeWords hD (wordsOf_length _ _) (hin _ hD)).storeWords hR (wordsOf_length _ _) (hin _ hR)

/-- Settles O56: the bytes outside every window by the inversion of `exec`, the rest by the division's three ends. -/
theorem frameOfDivisions : Obligations.FrameOfDivisions := by
  intro i s t hi h
  have hnamed : ∀ c, (∀ w ∈ windowsOf i s.latch, ¬ (4 * w.base ≤ c ∧ c < 4 * (w.base + w.len))) →
      t.mem.readByte c = s.mem.readByte c := fun _ => (exec_next h).mem.readByte_outside
  cases exec_division_next hi h with
  | oversize => exact ⟨rfl, .inl rfl, .inl rfl, hnamed, fun _ _ _ => rfl, fun _ => rfl⟩
  | byZero => exact ⟨rfl, .inr rfl, .inr ⟨rfl, rfl⟩, hnamed, nofun, nofun⟩
  | results m hm => exact ⟨rfl, .inr rfl, .inl rfl, hnamed, fun _ _ => hm.readByte_outside, nofun⟩

/-! ### R54: register accesses that break CV4 -/

theorem busOffset_of_lt (p : Params) {off : Nat} (h : off < 64) : busOffset p (p.regBase + off) = some off := by
  simp [busOffset, h]

/-- R22: the registers stand at the multiples of 4. -/
theorem ofOffset_eq_none {off : Nat} (h : off % 4 ≠ 0) : Reg.ofOffset off = none := by
  unfold Reg.ofOffset
  split <;> simp at h ⊢

/-- R54: a register access that is not 32 bits wide, or at no register's offset, faults. -/
theorem badAccess_faults {s : State} {width : AccessWidth} {off : Nat} (hoff : off < 64)
    (hbad : width ≠ .w32 ∨ off % 4 ≠ 0) :
    (∀ v, s.busWrite width (s.cfg.regBase + off) v = .fault .cv4BadRegisterAccess) ∧
    (∀ x, s.opRead width (s.cfg.regBase + off) x = .fault .cv4BadRegisterAccess) := by
  simp only [State.busWrite, State.opRead, busOffset_of_lt s.cfg hoff]
  rcases hbad with hwidth | halign
  · cases width with
    | w8 => exact ⟨fun _ => rfl, fun _ => rfl⟩
    | w16 => exact ⟨fun _ => rfl, fun _ => rfl⟩
    | w32 => exact absurd rfl hwidth
  · simp [ofOffset_eq_none halign]

/-- Settles O8: width and offset are looked at before anything else of the access. -/
theorem narrowOrMisalignedAccessFaults : Obligations.NarrowOrMisalignedAccessFaults := by
  intro s width off hoff hbad
  obtain ⟨hwrite, hread⟩ := badAccess_faults (s := s) hoff hbad
  refine ⟨fun v w hv hready => ?_, fun x hready => ?_⟩
  · rw [step_of_ready hready]
    simp only [State.hostOp, State.opWrite, hv, hwrite, onNext]
  · rw [step_of_ready hready]
    exact hread x

/-! ### R60, R62, R67: the host's access to DM -/

theorem step_dmWrite {s : State} {a : Nat} {v : HostValue} {w : Word} (hmay : mayAccess s) (ha : a < s.cfg.memWords)
    (hv : s.evalValue v = some w) (hready : ready s (.dmWrite a v)) :
    step s = .next ({ s with mem := s.mem.writeWord a w } : State).advance := by
  rw [step_of_ready hready]
  simp [State.hostOp, State.opDmWrite, hv, mustWait_of_mayAccess hmay, ha]

theorem step_dmRead {s : State} {a x : Nat} (hmay : mayAccess s) (ha : a < s.cfg.memWords)
    (hready : ready s (.dmRead a x)) : step s = .next (s.bind x (s.mem.readWord a)).advance := by
  rw [step_of_ready hready]
  simp [State.hostOp, State.opDmRead, mustWait_of_mayAccess hmay, ha]

/-- Settles O16: a host write is one word write, a host read one binding. -/
theorem hostMemoryAccess : Obligations.HostMemoryAccess := by
  intro s a hmay ha
  refine ⟨fun v w hv hready => ?_, fun x hready => ?_⟩
  · exact ⟨_, step_dmWrite hmay ha hv hready, readWord_writeWord_same _ a w,
      fun b hb => readWord_writeWord_other _ w hb, rfl⟩
  · exact ⟨_, step_dmRead hmay ha hready, find_insert_same _ x _, rfl⟩

/-! ### R55, R56, R240: the contract check of a command -/

/-- A division of a legal size is its contract check and then goes on. -/
theorem divide_eq_checked {i : Instr} {s : State} (k : State → Nat → Nat → State)
    (hsize : s.latch.count ≤ s.cfg.divNmax) : ∃ t, s.divide i k = s.checked i (.next t) := by
  rw [State.divide, sized_of_le _ hsize]
  by_cases hzero : s.loadScratch.scratch.divisorValue = 0
  · exact ⟨_, by rw [if_pos hzero]; rfl⟩
  · exact ⟨_, by rw [if_neg hzero]; rfl⟩

/-- R240: a command within its word-count limit is its contract check and then goes on. -/
theorem exec_eq_checked (i : Instr) (s : State) (hsize : i.isDivision = true → argN s ≤ s.cfg.divNmax) :
    ∃ t, exec i s = s.checked i (.next t) := by
  cases i with
  | div =>
    rw [exec, execDiv]
    exact divide_eq_checked _ (hsize rfl)
  | mod =>
    rw [exec, execMod]
    exact divide_eq_checked _ (hsize rfl)
  | divmod =>
    rw [exec, execDivmod]
    exact divide_eq_checked _ (hsize rfl)
  | _ => exact ⟨_, rfl⟩

theorem windows_inDM_iff (i : Instr) (s : State) :
    (windowsOf i s.latch).all (Window.inDM s.cfg) = true ↔ ∀ w ∈ windowsOf i s.latch, fits s w.base w.len := by
  simp only [List.all_eq_true, inDM_iff]
  rfl

/-- Settles O51: the contract check is the first thing such a command does, and it looks at every window. -/
theorem windowOutsideDmFaults : Obligations.WindowOutsideDmFaults := by
  intro s i w hw hout hsize
  obtain ⟨t, heq⟩ := exec_eq_checked i s hsize
  have hall : ¬ (windowsOf i s.latch).all (Window.inDM s.cfg) = true := fun h =>
    hout ((windows_inDM_iff i s).1 h w hw)
  rw [heq, State.checked, if_neg hall]

section
variable {i : Instr} {s : State} (hsize : i.isDivision = true → argN s ≤ s.cfg.divNmax)
  (hfit : ∀ w ∈ windowsOf i s.latch, fits s w.base w.len)
include hsize hfit

/-- R56: a command whose windows lie in DM goes on where their overlaps are allowed. -/
theorem exec_goes_on (hov : overlapAllowed i s.latch = true) : ∃ t, exec i s = .next t := by
  obtain ⟨t, heq⟩ := exec_eq_checked i s hsize
  exact ⟨t, by rw [heq, checked_of_contract _ ((windows_inDM_iff i s).2 hfit) hov]⟩

/-- R56: a command whose windows lie in DM faults where their overlaps are not allowed. -/
theorem exec_cv2 (hov : ¬ overlapAllowed i s.latch = true) : exec i s = .fault .cv2WindowOverlap := by
  obtain ⟨t, heq⟩ := exec_eq_checked i s hsize
  rw [heq, State.checked, if_pos ((windows_inDM_iff i s).2 hfit), if_neg hov]

/-- R56: what the table says of a command whose windows lie in DM, where `P` is the command's entry of the table. -/
theorem exec_overlap {P : Prop} (hP : overlapAllowed i s.latch = true ↔ P) :
    ((∃ t, exec i s = .next t) ↔ P) ∧ (¬ P → exec i s = .fault .cv2WindowOverlap) := by
  rw [← hP]
  refine ⟨⟨fun ⟨t, ht⟩ => ?_, exec_goes_on hsize hfit⟩, exec_cv2 hsize hfit⟩
  by_contra hov
  cases ht.symm.trans (exec_cv2 hsize hfit hov)

end

theorem overlapAllowed_sub_iff (s : State) : overlapAllowed .sub s.latch = true ↔
    argB s = argA s ∨ apart (argB s) (argN s) (argA s) (argN s) := by
  rw [overlapAllowed, Bool.or_eq_true, identical_iff, disjoint_iff]
  rfl

theorem overlapAllowed_divmod_iff (s : State) : overlapAllowed .divmod s.latch = true ↔
    apart (argD s) (argN s) (argR s) (argN s) :=
  disjoint_iff s.latch.winD s.latch.winR

/-- Settles O52: each line of the table through the contract check. -/
theorem overlapTable : Obligations.OverlapTable := by
  refine ⟨fun s hA hB => ?_, fun s hA hB hD hR hn => ?_, fun s i hi hfit => ?_⟩
  · exact exec_overlap (by simp [Instr.isDivision]) (by simpa [windowsOf] using ⟨hA, hB⟩) (overlapAllowed_sub_iff s)
  · have hdivmod := exec_overlap (i := .divmod) (fun _ => hn) (by simpa [windowsOf] using ⟨hA, hB, hD, hR⟩)
      (overlapAllowed_divmod_iff s)
    exact ⟨hdivmod.1, hdivmod.2,
      exec_goes_on (fun _ => hn) (by simpa [windowsOf] using ⟨hA, hB, hD⟩) rfl,
      exec_goes_on (fun _ => hn) (by simpa [windowsOf] using ⟨hA, hB, hR⟩) rfl⟩
  · have hdiv : i.isDivision = false := by fin_cases hi <;> rfl
    have hov : overlapAllowed i s.latch = true := by fin_cases hi <;> rfl
    exact exec_goes_on (by simp [hdiv]) hfit hov

end Sys2Proof.Machine

/-! ### R71 to R73: the fields of a command word and the opcode map -/
namespace Sys2Proof

/-- R71: a command word is its RSV field above its OP field. -/
theorem rsvField_append_opField (w : Word) : rsvField w ++ opField w = w :=
  BitVec.extractLsb'_append_extractLsb' (len := 8) (w := 24)

/-- R71: RSV, bits 31:8, as a number. -/
theorem rsvField_toNat (w : Word) : (rsvField w).toNat = w.toNat / 256 := by
  rw [rsvField, BitVec.extractLsb'_toNat, Nat.shiftRight_eq_div_pow]
  omega

/-- R71: OP, bits 7:0, as a number. -/
theorem opField_toNat (w : Word) : (opField w).toNat = w.toNat % 256 := by
  simp [opField]

theorem rsvField_eq_zero_iff (w : Word) : rsvField w = 0#24 ↔ w.toNat / 256 = 0 := by
  rw [← rsvField_toNat, BitVec.toNat_eq]
  rfl

/-- R71: a word is a command's encoding exactly when its fields are 0 and the command's OP value. -/
theorem eq_encode_iff (w : Word) (i : Instr) : w = encode i ↔ rsvField w = 0#24 ∧ opField w = i.opcode := by
  constructor
  · rintro rfl
    exact ⟨BitVec.extractLsb'_append_eq_left, BitVec.extractLsb'_append_eq_right⟩
  · rintro ⟨hrsv, hop⟩
    rw [← rsvField_append_opField w, hrsv, hop]
    rfl

/-- R73: each row of the opcode map holds its command's OP value. -/
theorem fst_eq_opcode_of_mem_opcodes : ∀ p ∈ opcodes, p.1 = p.2.opcode := by decide

theorem lookup_opcode (i : Instr) : opcodes.lookup i.opcode = some i := by cases i <;> rfl

/-- R73: the opcode map holds an OP value for a command exactly when it is the command's. -/
theorem lookup_opcodes_eq_some_iff (op : BitVec 8) (i : Instr) : opcodes.lookup op = some i ↔ op = i.opcode := by
  constructor
  · intro h
    obtain ⟨before, after, hrows, -⟩ := List.lookup_eq_some_iff.1 h
    exact fst_eq_opcode_of_mem_opcodes (op, i) (by simp [hrows])
  · rintro rfl
    exact lookup_opcode i

/-- R73: the OP values the opcode map leaves out are the unassigned ones. -/
theorem lookup_opcodes_eq_none_iff (op : BitVec 8) : opcodes.lookup op = none ↔ Machine.unassigned op.toNat := by
  simp only [opcodes, opcodesPrimitive, opcodesArith, opcodesLogic, opcodesRest, List.cons_append,
    List.nil_append, List.lookup_eq_none_iff, List.forall_mem_cons, List.not_mem_nil, IsEmpty.forall_iff, implies_true,
    and_true, bne_iff_ne, ne_eq, BitVec.toNat_eq, BitVec.toNat_ofNat, BitVec.ofNat_eq_ofNat, Nat.reducePow,
    Nat.reduceMod, Nat.zero_mod, Nat.one_mod]
  omega

/-! ### R72: the three outcomes of the decoder -/

theorem decode_of_rsvField_ne_zero {w : Word} (hrsv : rsvField w ≠ 0#24) : decode w = .error .reservedBitsSet :=
  if_neg hrsv

theorem decode_of_lookup_eq_none {w : Word} (hrsv : rsvField w = 0#24) (hop : opcodes.lookup (opField w) = none) :
    decode w = .error .unassignedOpcode := by
  rw [decode, hop]
  exact if_pos hrsv

theorem decode_of_lookup_eq_some {w : Word} {i : Instr} (hrsv : rsvField w = 0#24)
    (hop : opcodes.lookup (opField w) = some i) : decode w = .ok i := by
  rw [decode, hop]
  exact if_pos hrsv

/-- Settles O2: both sides say that RSV is 0 and OP is the command's, the decoder through the opcode map. -/
theorem decodeAndEncodeAgree : Obligations.DecodeAndEncodeAgree := by
  intro w i
  rw [eq_encode_iff, ← lookup_opcodes_eq_some_iff]
  by_cases hrsv : rsvField w = 0#24
  · cases hop : opcodes.lookup (opField w) with
    | none => simp [decode_of_lookup_eq_none hrsv hop]
    | some j => simp [decode_of_lookup_eq_some hrsv hop, hrsv]
  · simp [decode_of_rsvField_ne_zero hrsv, hrsv]

/-- Settles O3: the three clauses are the three outcomes of the decoder. -/
theorem decodeRejectsExactly : Obligations.DecodeRejectsExactly := by
  intro w
  rw [ne_eq, ← rsvField_eq_zero_iff, ← opField_toNat, ← lookup_opcodes_eq_none_iff]
  by_cases hrsv : rsvField w = 0#24
  · cases hop : opcodes.lookup (opField w) with
    | none => simp [decode_of_lookup_eq_none hrsv hop, hrsv]
    | some i => simp [decode_of_lookup_eq_some hrsv hop, hrsv]
  · simp [decode_of_rsvField_ne_zero hrsv, hrsv]

theorem decode_encode (i : Instr) : decode (encode i) = .ok i := (decodeAndEncodeAgree _ i).2 rfl

/-- Settles O1: each word is the encoding of its row's command. -/
theorem commandWordsDecode : Obligations.CommandWordsDecode :=
  ⟨decode_encode .nop, decode_encode .adcw, decode_encode .sbbw, decode_encode .mulw, decode_encode .msb,
    decode_encode .lsb, decode_encode .popc, decode_encode .fls, decode_encode .neg, decode_encode .add,
    decode_encode .sub, decode_encode .adds, decode_encode .subs, decode_encode .mulf, decode_encode .muls,
    decode_encode .and, decode_encode .or, decode_encode .xor, decode_encode .not, decode_encode .shl,
    decode_encode .shr, decode_encode .div, decode_encode .mod, decode_encode .divmod, decode_encode .iszero,
    decode_encode .eq, decode_encode .ne, decode_encode .cmpu, decode_encode .cmps, decode_encode .fpack,
    decode_encode .funpack, decode_encode .fextract⟩

end Sys2Proof

/-! ### R70, R240: the host's CMD write -/
namespace Sys2Proof.Machine

/-- R240 steps 3 to 7: a command in progress that decodes runs. -/
theorem runCommand_of_decode {s : State} {i : Instr} (h : decode s.command = .ok i) : s.runCommand = exec i s := by
  rw [State.runCommand, h]

/-- R70: the step of a CMD write is the unit's part of it and a move of the host. -/
theorem step_writeCmd {s : State} {v : HostValue} {w : Word}
    (hready : ready s (.write .w32 (s.cfg.regBase + 0x08) v)) (hv : s.evalValue v = some w) :
    step s = onNext (s.writeCmd w) State.advance := by
  have hbus : s.busWrite .w32 (s.cfg.regBase + 0x08) w = s.writeCmd w := busWrite_reg s .cmd w
  rw [step_of_ready hready]
  simp only [State.hostOp, State.opWrite, hv, hbus]

/-- R240 steps 1 and 2: the unit accepts a CMD write with BUSY = 0 and no wait owed. -/
theorem writeCmd_of_mayAccess {s : State} (w : Word) (hmay : mayAccess s) :
    s.writeCmd w = (s.accept w).runCommand := by
  obtain ⟨hbusy, hdue⟩ := hmay
  simp [State.writeCmd, hbusy, hdue]

/-- Settles O4: the write is accepted, and the accepted word decodes and runs. -/
theorem stepRunsIssuedCommand : Obligations.StepRunsIssuedCommand := by
  intro s v w i hready hv hmay hdec
  have hrun : (s.accept w).runCommand = exec i (s.accept w) := runCommand_of_decode hdec
  rw [step_writeCmd hready hv, writeCmd_of_mayAccess w hmay, hrun]
  rfl

/-! ### R78, R80: labels and jumps -/

/-- R78: a label's place is the first index at which it stands. -/
theorem findLabel_eq_idxOf? (l : Nat) (ops : List HostOp) (k : Nat) :
    findLabel l ops k = (ops.idxOf? (.label l)).map (· + k) := by
  induction ops generalizing k with
  | nil => rfl
  | cons op ops ih =>
    rw [findLabel, ih, List.idxOf?_cons]
    by_cases hop : op = .label l
    · simp [hop]
    · simp [hop, Function.comp_def, Nat.add_assoc, Nat.add_comm 1]

theorem idxOf?_eq_some_of_labelAt {s : State} {l k : Nat} (h : labelAt s l k) :
    s.host.program.idxOf? (.label l) = some k := by
  obtain ⟨hat, hbefore⟩ := h
  obtain ⟨hk, hop⟩ := List.getElem?_eq_some_iff.1 hat
  refine List.idxOf?_eq_some_iff.2 ⟨hk, hop, fun j hj hop' => hbefore j hj ?_⟩
  rw [← hop', List.getElem?_eq_getElem]

/-- R78: a jump to a label goes to its place. -/
theorem jump_of_labelAt {s : State} {l k : Nat} (h : labelAt s l k) :
    s.jump l = .next { s with host := { s.host with pos := k } } := by
  simp [State.jump, findLabel_eq_idxOf?, idxOf?_eq_some_of_labelAt h]

/-- R78: a jump to a label that the program does not hold has no meaning. -/
theorem jump_of_not_mem {s : State} {l : Nat} (h : HostOp.label l ∉ s.host.program) :
    s.jump l = .refused .unknownLabel := by
  simp [State.jump, findLabel_eq_idxOf?, List.idxOf?_eq_none_iff.2 h]

/-! ### R78: the tests of `if … goto` -/

/-- R78: `evalCond` answers as the test does, and answers only where it holds or fails. -/
theorem evalCond_iff (s : State) (c : HostCond) :
    (s.evalCond c = some true ↔ testHolds s c) ∧ (s.evalCond c = some false ↔ testFails s c) := by
  cases c with
  | eq x v =>
    cases hx : nameValue s x with
    | none => simp [State.evalCond, testHolds, testFails, hx]
    | some a => cases hv : s.evalValue v with
      | none => simp [State.evalCond, testHolds, testFails, hx, hv]
      | some b => simp [State.evalCond, testHolds, testFails, hx, hv, eq_comm (a := a)]
  | ne x v =>
    cases hx : nameValue s x with
    | none => simp [State.evalCond, testHolds, testFails, hx]
    | some a => cases hv : s.evalValue v with
      | none => simp [State.evalCond, testHolds, testFails, hx, hv]
      | some b => simp [State.evalCond, testHolds, testFails, hx, hv, eq_comm (a := a)]
  | bit x k v => cases hx : nameValue s x <;> simp [State.evalCond, testHolds, testFails, hx]

/-- R78: a test that neither holds nor fails uses a name that nothing has bound. -/
theorem evalCond_eq_none {s : State} {c : HostCond} (hholds : ¬ testHolds s c) (hfails : ¬ testFails s c) :
    s.evalCond c = none := by
  obtain ⟨htrue, hfalse⟩ := evalCond_iff s c
  cases hc : s.evalCond c with
  | none => rfl
  | some b => cases b with
    | true => exact absurd (htrue.1 hc) hholds
    | false => exact absurd (hfalse.1 hc) hfails

/-! ### R78, R80, R281: the host's control flow -/

/-- R78: an `if … goto` whose test holds is the jump. -/
theorem step_gotoIf_of_testHolds {s : State} {c : HostCond} {l : Nat} (hready : ready s (.gotoIf c l))
    (hc : testHolds s c) : step s = s.jump l := by
  rw [step_of_ready hready]
  simp only [State.hostOp, State.opGotoIf, (evalCond_iff s c).1.2 hc]

theorem step_gotoIf_of_testFails {s : State} {c : HostCond} {l : Nat} (hready : ready s (.gotoIf c l))
    (hc : testFails s c) : step s = .next s.advance := by
  rw [step_of_ready hready]
  simp only [State.hostOp, State.opGotoIf, (evalCond_iff s c).2.2 hc]

/-- R78: the step of an `if … goto` whose test uses an unbound name. -/
theorem step_gotoIf_of_unbound {s : State} {c : HostCond} {l : Nat} (hready : ready s (.gotoIf c l))
    (hholds : ¬ testHolds s c) (hfails : ¬ testFails s c) : step s = .refused .unboundName := by
  rw [step_of_ready hready]
  simp only [State.hostOp, State.opGotoIf, evalCond_eq_none hholds hfails]

/-- R281: a `wait` at BUSY = 0 is one poll, which ends the duty. -/
theorem step_wait_of_idle {s : State} (hready : ready s .wait) (hbusy : s.status.busy = false) :
    step s = .next (s.setWaitDue false).advance := by
  rw [step_of_ready hready]
  simp [State.hostOp, State.opWait, State.polled, hbusy, State.setWaitDue]

/-- R281: a `wait` at BUSY = 1 ends when the command in progress has completed. -/
theorem step_wait_of_busy {s : State} {i : Instr} (hready : ready s .wait) (hbusy : s.status.busy = true)
    (hdec : decode s.command = .ok i) :
    step s = onNext (exec i (s.setWaitDue true)) fun t => (t.setWaitDue false).advance := by
  have hrun : (s.setWaitDue true).runCommand = exec i (s.setWaitDue true) := runCommand_of_decode hdec
  rw [step_of_ready hready]
  simp only [State.hostOp, State.opWait, State.polled, hbusy, if_true, hrun]

/-- Settles O60: the step of each control line, clause by clause. -/
theorem hostControlFlow : Obligations.HostControlFlow := by
  intro s
  refine ⟨fun l hready => step_of_ready hready, fun l k hready hl => ?_, fun c l k hready hc hl => ?_,
    fun c l hready hc => step_gotoIf_of_testFails hready hc, fun hready hbusy => step_wait_of_idle hready hbusy,
    fun hready hbusy i hdec => step_wait_of_busy hready hbusy hdec, ?_,
    fun c l hready => step_gotoIf_of_unbound hready, ?_⟩
  · exact (step_of_ready hready).trans (jump_of_labelAt hl)
  · exact (step_gotoIf_of_testHolds hready hc).trans (jump_of_labelAt hl)
  · rintro l (hready | ⟨c, hready, hc⟩) hl
    · exact (step_of_ready hready).trans (jump_of_not_mem hl)
    · exact (step_gotoIf_of_testHolds hready hc).trans (jump_of_not_mem hl)
  · rintro v hv (⟨width, addr, hready⟩ | ⟨a, hready⟩)
    · rw [step_of_ready hready, State.hostOp, State.opWrite, hv]
    · rw [step_of_ready hready, State.hostOp, State.opDmWrite, hv]

end Sys2Proof.Machine

/-! ### R101 to R103: the carry primitives as numbers -/
namespace Sys2Proof.Machine

/-- R75: the carry-in or borrow-in is bit 0 of OPC. -/
theorem opcBit_toNat (x : Args) : x.opcBit.toNat = (x.opc.getLsbD 0).toNat := by
  have hbit : x.opcBit = (BitVec.ofBool (x.opc.getLsbD 0)).setWidth 32 := BitVec.and_one_eq_setWidth_ofBool_getLsbD
  rw [hbit]
  cases x.opc.getLsbD 0 <;> rfl

theorem carrySum_fst_toNat (w a c : Word) : (carrySum w a c).1.toNat = (w.toNat + a.toNat + c.toNat) % 2 ^ 32 :=
  BitVec.toNat_ofNat _ _

theorem carrySum_snd_toNat (w a c : Word) : (carrySum w a c).2.toNat = (w.toNat + a.toNat + c.toNat) / 2 ^ 32 := by
  rw [carrySum, BitVec.toNat_ofNat]
  omega

theorem borrowSub_fst_toNat (w b c : Word) :
    ((borrowSub w b c).1.toNat : Int) = ((w.toNat : Int) - b.toNat - c.toNat) % 2 ^ 32 := by
  rw [borrowSub, BitVec.toNat_ofInt]
  omega

/-- R102: the borrow out says that the true difference is below 0. -/
theorem borrowSub_snd (w b c : Word) :
    (borrowSub w b c).2 = if w.toNat < b.toNat + c.toNat then 1 else 0 := by
  have hneg : ((w.toNat : Int) - b.toNat - c.toNat < 0) ↔ w.toNat < b.toNat + c.toNat := by omega
  simp only [borrowSub, truthWord, hneg, decide_eq_true_eq]

/-- R103: a product of words and a carry word fit two words. -/
theorem mul_add_lt_two_words (w m c : Word) : w.toNat * m.toNat + c.toNat < 2 ^ 32 * 2 ^ 32 := by
  have hprod : w.toNat * m.toNat ≤ (2 ^ 32 - 1) * (2 ^ 32 - 1) :=
    Nat.mul_le_mul (Nat.le_sub_one_of_lt w.isLt) (Nat.le_sub_one_of_lt m.isLt)
  omega

theorem carryMul_fst_toNat (w m c : Word) : (carryMul w m c).1.toNat = (w.toNat * m.toNat + c.toNat) % 2 ^ 32 :=
  BitVec.toNat_ofNat _ _

theorem carryMul_snd_toNat (w m c : Word) : (carryMul w m c).2.toNat = (w.toNat * m.toNat + c.toNat) / 2 ^ 32 := by
  rw [carryMul, BitVec.toNat_ofNat, Nat.mod_eq_of_lt (Nat.div_lt_of_lt_mul (mul_add_lt_two_words w m c))]

/-! ### R108: the results of a carry primitive make up its exact result -/

theorem carrySum_value (w a c : Word) :
    (carrySum w a c).1.toNat + 2 ^ 32 * (carrySum w a c).2.toNat = w.toNat + a.toNat + c.toNat := by
  rw [carrySum_fst_toNat, carrySum_snd_toNat, Nat.mod_add_div]

theorem carryMul_value (w m c : Word) :
    (carryMul w m c).1.toNat + 2 ^ 32 * (carryMul w m c).2.toNat = w.toNat * m.toNat + c.toNat := by
  rw [carryMul_fst_toNat, carryMul_snd_toNat, Nat.mod_add_div]

/-- R108: with a borrow-in of one bit, one borrow out makes up for the wrapped difference. -/
theorem borrowSub_value (w a c : Word) (hc : c.toNat ≤ 1) :
    ((borrowSub w a c).1.toNat : Int) - 2 ^ 32 * (borrowSub w a c).2.toNat = w.toNat - a.toNat - c.toNat := by
  rw [borrowSub_fst_toNat, borrowSub_snd]
  split
  · rw [show (1 : Word).toNat = 1 from rfl]
    omega
  · rw [show (0 : Word).toNat = 0 from rfl]
    omega

/-! ### R104 to R107: the bits of a word that are 1 -/

theorem mem_setBits_iff (v : Word) (i : Nat) : i ∈ setBits v ↔ v.getLsbD i = true := by
  simpa [setBits] using BitVec.lt_of_getLsbD

theorem setBits_pairwise_lt (v : Word) : (setBits v).Pairwise (· < ·) := List.pairwise_lt_range.filter _

theorem setBits_ne_nil {v : Word} (hv : v ≠ 0) : setBits v ≠ [] := by
  intro hnil
  refine hv (BitVec.zero_iff_eq_false.2 fun i => ?_)
  rw [← Bool.not_eq_true, ← mem_setBits_iff, hnil]
  exact List.not_mem_nil

theorem setBits_length_le (v : Word) : (setBits v).length ≤ 32 := List.length_filter_le _ (List.range 32)

theorem msb_toNat {v : Word} {i : Nat} (h : (setBits v).getLast? = some i) : (msb v).toNat = i := by
  have hlt : i < 32 := BitVec.lt_of_getLsbD ((mem_setBits_iff v i).1 (List.mem_of_getLast? h))
  rw [msb, h, BitVec.toNat_ofNat, Nat.mod_eq_of_lt (by omega)]

theorem lsb_toNat {v : Word} {i : Nat} (h : (setBits v).head? = some i) : (lsb v).toNat = i := by
  have hlt : i < 32 := BitVec.lt_of_getLsbD ((mem_setBits_iff v i).1 (List.mem_of_head? h))
  rw [lsb, h, BitVec.toNat_ofNat, Nat.mod_eq_of_lt (by omega)]

theorem popc_toNat (v : Word) : (popc v).toNat = (setBits v).length := by
  have hle := setBits_length_le v
  rw [popc, BitVec.toNat_ofNat, Nat.mod_eq_of_lt (by omega)]

/-- R104: the last of the rising indices is the greatest. -/
theorem msb_isGreatest {v : Word} (hv : v ≠ 0) :
    v.getLsbD (msb v).toNat = true ∧ ∀ i, (msb v).toNat < i → v.getLsbD i = false := by
  obtain ⟨k, hlast⟩ : ∃ k, (setBits v).getLast? = some k := ⟨_, List.getLast?_eq_some_getLast (setBits_ne_nil hv)⟩
  obtain ⟨below, hbits⟩ := List.getLast?_eq_some_iff.1 hlast
  rw [msb_toNat hlast]
  refine ⟨(mem_setBits_iff v k).1 (List.mem_of_getLast? hlast), fun i hi => ?_⟩
  have hsorted := setBits_pairwise_lt v
  rw [hbits, List.pairwise_append] at hsorted
  obtain ⟨-, -, hlt⟩ := hsorted
  rw [← Bool.not_eq_true, ← mem_setBits_iff, hbits]
  intro hmem
  rcases List.mem_append.1 hmem with hbelow | hk
  · exact absurd (hlt i hbelow k (List.mem_singleton_self k)) (by omega)
  · exact absurd (List.mem_singleton.1 hk) (by omega)

/-- R105: the first of the rising indices is the least. -/
theorem lsb_isLeast {v : Word} (hv : v ≠ 0) :
    v.getLsbD (lsb v).toNat = true ∧ ∀ i, i < (lsb v).toNat → v.getLsbD i = false := by
  obtain ⟨k, hhead⟩ : ∃ k, (setBits v).head? = some k := ⟨_, List.head?_eq_some_head (setBits_ne_nil hv)⟩
  rw [lsb_toNat hhead]
  rw [setBits, List.head?_filter, List.find?_range_eq_some] at hhead
  obtain ⟨hbit, -, hbelow⟩ := hhead
  exact ⟨hbit, fun i hi => by simpa using hbelow i hi⟩

theorem msb_lt {v : Word} (hv : v ≠ 0) : (msb v).toNat < 32 := BitVec.lt_of_getLsbD (msb_isGreatest hv).1

theorem lsb_lt {v : Word} (hv : v ≠ 0) : (lsb v).toNat < 32 := BitVec.lt_of_getLsbD (lsb_isLeast hv).1

theorem fls_toNat {v : Word} (hv : v ≠ 0) : (fls v).toNat = (msb v).toNat + 1 := by
  have hlt := msb_lt hv
  rw [fls, if_neg hv, BitVec.toNat_add, show (1 : Word).toNat = 1 from rfl, Nat.mod_eq_of_lt (by omega)]

/-- R104: the greatest set bit bounds the value of a word from both sides. -/
theorem toNat_bounds_of_msb {v : Word} (hv : v ≠ 0) :
    2 ^ (msb v).toNat ≤ v.toNat ∧ v.toNat < 2 ^ ((msb v).toNat + 1) := by
  obtain ⟨hbit, habove⟩ := msb_isGreatest hv
  exact ⟨Nat.ge_two_pow_of_testBit hbit, Nat.lt_pow_two_of_testBit _ habove⟩

/-- The number of entries of a list that pass a test, as a sum of truth values. -/
theorem length_filter_eq_sum_toNat {α : Type} (p : α → Bool) (l : List α) :
    (l.filter p).length = (l.map fun x => (p x).toNat).sum := by
  induction l with
  | nil => rfl
  | cons x l ih => cases hx : p x <;> simp [hx, ih, Nat.add_comm]

/-! ### R108: the laws of the bit-scans -/

theorem msb_eq_fls_sub_one (v : Word) : msb v = fls v - 1 := by
  by_cases hv : v = 0
  · subst hv
    decide
  · rw [fls, if_neg hv, BitVec.add_sub_cancel]

/-- R108: each of the 32 bits is 1 in a word or in its complement. -/
theorem popc_add_popc_not (v : Word) : (popc v).toNat + (popc (~~~v)).toNat = 32 := by
  have hnot : setBits (~~~v) = (List.range 32).filter fun i => !v.getLsbD i := by
    refine List.filter_congr fun i hi => ?_
    simp [List.mem_range.1 hi]
  rw [popc_toNat, popc_toNat, hnot, setBits, ← List.length_eq_length_filter_add, List.length_range]

/-- R108: a word and its negation share the least set bit and no other. -/
theorem and_neg_eq_twoPow {v : Word} {k : Nat} (hbit : v.getLsbD k = true) (hbelow : ∀ i, i < k → v.getLsbD i = false) :
    v &&& -v = BitVec.twoPow 32 k := by
  have hk : k < 32 := BitVec.lt_of_getLsbD hbit
  refine BitVec.eq_of_getLsbD_eq fun i hi => ?_
  rw [BitVec.getLsbD_and, BitVec.getLsbD_neg, BitVec.getLsbD_twoPow]
  rcases Nat.lt_trichotomy i k with hlt | rfl | hgt
  · simp [hbelow i hlt, Nat.ne_of_gt hlt]
  · have hnone : ¬ ∃ j < i, v.getLsbD j = true := fun ⟨j, hj, hj'⟩ => by simp [hbelow j hj] at hj'
    simp [hbit, hnone, hi]
  · have hsome : ∃ j < i, v.getLsbD j = true := ⟨k, hgt, hbit⟩
    simp [hsome, hi, Nat.ne_of_lt hgt]

/-- R108: the bits of `2^k - 1` are those below bit `k`. -/
theorem setBits_twoPow_sub_one {k : Nat} (hk : k < 32) : setBits (BitVec.twoPow 32 k - 1) = List.range k := by
  have hpow : 2 ^ k < 2 ^ 32 := Nat.pow_lt_pow_right (by decide) hk
  have hvalue : (BitVec.twoPow 32 k - 1).toNat = 2 ^ k - 1 := by
    have hpos : 0 < 2 ^ k := Nat.two_pow_pos k
    have htwo : (BitVec.twoPow 32 k).toNat = 2 ^ k := by rw [BitVec.toNat_twoPow, Nat.mod_eq_of_lt hpow]
    bv_omega
  calc setBits (BitVec.twoPow 32 k - 1)
      = (List.range 32).filter (· < k) := by
        simp only [setBits, BitVec.getLsbD, hvalue, Nat.testBit_two_pow_sub_one]
    _ = List.range k := by
        rw [← List.Ico.zero_bot, List.Ico.filter_lt, Nat.min_eq_right (Nat.le_of_lt hk), List.Ico.zero_bot]

theorem lsb_eq_popc {v : Word} (hv : v ≠ 0) : lsb v = popc ((v &&& -v) - 1) := by
  obtain ⟨hbit, hbelow⟩ := lsb_isLeast hv
  apply BitVec.eq_of_toNat_eq
  rw [and_neg_eq_twoPow hbit hbelow, popc_toNat, setBits_twoPow_sub_one (lsb_lt hv), List.length_range]

/-! ### R100 to R108: the primitives -/

/-- Settles O24: each law of the carry primitives from their values, each law of the bit-scans from the set bits. -/
theorem lawsOfThePrimitives : Obligations.LawsOfThePrimitives := by
  refine ⟨msb_eq_fls_sub_one, popc_add_popc_not, fun v hv => lsb_eq_popc hv, fun w a b _ => carrySum_value w a b,
    borrowSub_value, carryMul_value, fun d hd => ?_⟩
  have hlt := msb_lt hd
  rw [fls_toNat hd]
  omega

/-- Settles O18: NOP is a completion. -/
theorem nopClearsErrOnly : Obligations.NopClearsErrOnly := ⟨decode_encode .nop, fun _ => rfl⟩

/-- Settles O19: each command sets RES0 and RES1 to the two results of its primitive. -/
theorem carryPrimitives : Obligations.CarryPrimitives := by
  refine ⟨decode_encode .adcw, decode_encode .sbbw, decode_encode .mulw, fun s => ?_⟩
  rw [← opcBit_toNat]
  exact ⟨⟨_, rfl, rfl, carrySum_fst_toNat _ _ _, carrySum_snd_toNat _ _ _⟩,
    ⟨_, rfl, rfl, borrowSub_fst_toNat _ _ _, borrowSub_snd _ _ _⟩,
    ⟨_, rfl, rfl, carryMul_fst_toNat _ _ _, carryMul_snd_toNat _ _ _⟩⟩

/-- Settles O20: RES0 is the greatest of the set bits. -/
theorem msbIsGreatestSetBit : Obligations.MsbIsGreatestSetBit := by
  refine ⟨decode_encode .msb, fun s => ⟨_, rfl, rfl, fun hzero => ?_, fun hne => ⟨msb_lt hne, msb_isGreatest hne⟩⟩⟩
  exact (congrArg msb hzero).trans (by decide)

/-- Settles O21: RES0 is the least of the set bits. -/
theorem lsbIsLeastSetBit : Obligations.LsbIsLeastSetBit := by
  refine ⟨decode_encode .lsb, fun s => ⟨_, rfl, rfl, fun hzero => ?_, lsb_isLeast⟩⟩
  exact (congrArg lsb hzero).trans (by decide)

/-- Settles O22: RES0 is the number of set bits, counted bit by bit. -/
theorem popcCountsSetBits : Obligations.PopcCountsSetBits :=
  ⟨decode_encode .popc, fun _ => ⟨_, rfl, rfl, (popc_toNat _).trans (length_filter_eq_sum_toNat _ _)⟩⟩

/-- Settles O23: RES0 is one more than the greatest set bit, which bounds the value. -/
theorem flsIsBitWidth : Obligations.FlsIsBitWidth := by
  refine ⟨decode_encode .fls, fun s => ⟨_, rfl, rfl, fun hzero => if_pos hzero, fun hne => ?_⟩⟩
  change 1 ≤ (fls s.latch.opa).toNat ∧ (fls s.latch.opa).toNat ≤ 32 ∧
    2 ^ ((fls s.latch.opa).toNat - 1) ≤ s.latch.opa.toNat ∧ s.latch.opa.toNat < 2 ^ (fls s.latch.opa).toNat
  obtain ⟨hlow, hhigh⟩ := toNat_bounds_of_msb hne
  rw [fls_toNat hne]
  exact ⟨Nat.le_add_left _ _, msb_lt hne, hlow, hhigh⟩

end Sys2Proof.Machine

/-! ### R120, R121: the carry and borrow chains -/
namespace Sys2Proof.Machine

theorem pow_words_succ {R : Type} [CommSemiring R] (n : Nat) : (2 : R) ^ (32 * (n + 1)) = 2 ^ 32 * 2 ^ (32 * n) := by
  rw [← pow_add, Nat.mul_succ, Nat.add_comm]

/-- R101: a carry-in of one bit gives a carry out of one bit. -/
theorem carrySum_snd_le (w a : Word) {c : Word} (hc : c.toNat ≤ 1) : (carrySum w a c).2.toNat ≤ 1 := by
  rw [carrySum_snd_toNat]
  omega

theorem borrowSub_snd_le (w b c : Word) : (borrowSub w b c).2.toNat ≤ 1 := by
  rw [borrowSub_snd]
  split <;> decide

theorem addChain_length {x y : List Word} (c : Word) (h : x.length = y.length) :
    (addChain x y c).1.length = x.length := by
  induction x generalizing y c with
  | nil => simp [addChain]
  | cons x xs ih => cases y with
    | nil => simp at h
    | cons y ys => simp [addChain, ih _ (Nat.succ.inj h)]

theorem subChain_length {x y : List Word} (b : Word) (h : x.length = y.length) :
    (subChain x y b).1.length = x.length := by
  induction x generalizing y b with
  | nil => simp [subChain]
  | cons x xs ih => cases y with
    | nil => simp at h
    | cons y ys => simp [subChain, ih _ (Nat.succ.inj h)]

theorem addChain_carry_le (x y : List Word) {c : Word} (hc : c.toNat ≤ 1) : (addChain x y c).2.toNat ≤ 1 := by
  induction x generalizing y c with
  | nil => simpa [addChain] using hc
  | cons x xs ih => cases y with
    | nil => simpa [addChain] using hc
    | cons y ys => exact ih ys (carrySum_snd_le x y hc)

theorem subChain_borrow_le (x y : List Word) {b : Word} (hb : b.toNat ≤ 1) : (subChain x y b).2.toNat ≤ 1 := by
  induction x generalizing y b with
  | nil => simpa [subChain] using hb
  | cons x xs ih => cases y with
    | nil => simpa [subChain] using hb
    | cons y ys => exact ih ys (borrowSub_snd_le x y b)

/-- R120: the words of the chain and its carry out make up the exact sum. -/
theorem addChain_value {x y : List Word} (c : Word) (h : x.length = y.length) :
    valueOf (addChain x y c).1 + (addChain x y c).2.toNat * 2 ^ (32 * x.length) =
      valueOf x + valueOf y + c.toNat := by
  induction x generalizing y c with
  | nil => cases y with
    | nil => simp [addChain, valueOf]
    | cons y ys => simp at h
  | cons x xs ih => cases y with
    | nil => simp at h
    | cons y ys =>
      have hword := carrySum_value x y c
      have hrest := ih (carrySum x y c).2 (Nat.succ.inj h)
      simp only [addChain, valueOf, List.length_cons, pow_words_succ]
      linear_combination hword + 2 ^ 32 * hrest

/-- R121: the words of the chain less its borrow out make up the exact difference. -/
theorem subChain_value {x y : List Word} {b : Word} (h : x.length = y.length) (hb : b.toNat ≤ 1) :
    (valueOf (subChain x y b).1 : Int) - (subChain x y b).2.toNat * 2 ^ (32 * x.length) =
      valueOf x - valueOf y - b.toNat := by
  induction x generalizing y b with
  | nil => cases y with
    | nil => simp [subChain, valueOf]
    | cons y ys => simp at h
  | cons x xs ih => cases y with
    | nil => simp at h
    | cons y ys =>
      have hword := borrowSub_value x y b hb
      have hrest := ih (Nat.succ.inj h) (borrowSub_snd_le x y b)
      simp only [subChain, valueOf, List.length_cons, pow_words_succ, Nat.cast_add, Nat.cast_mul, Nat.cast_pow,
        Nat.cast_ofNat]
      linear_combination hword + 2 ^ 32 * hrest

/-- Settles O25: by induction on the words, each with the law of its carry primitive (R108). -/
theorem carryAndBorrowChains : Obligations.CarryAndBorrowChains := fun x y c hlen hc =>
  ⟨⟨addChain_length c hlen, addChain_carry_le x y hc, addChain_value c hlen⟩,
    subChain_length c hlen, subChain_borrow_le x y hc, subChain_value hlen hc⟩

/-! ### R120, R121: the words of a chain as a value modulo `2^(32n)` -/

theorem valueOf_addChain {x y : List Word} (c : Word) (h : x.length = y.length) :
    valueOf (addChain x y c).1 = (valueOf x + valueOf y + c.toNat) % 2 ^ (32 * x.length) := by
  have hlt := valueOf_lt (addChain x y c).1
  rw [addChain_length c h] at hlt
  rw [← addChain_value c h, Nat.add_mul_mod_self_right, Nat.mod_eq_of_lt hlt]

theorem valueOf_subChain {x y : List Word} {b : Word} (h : x.length = y.length) (hb : b.toNat ≤ 1) :
    (valueOf (subChain x y b).1 : Int) = ((valueOf x : Int) - valueOf y - b.toNat) % 2 ^ (32 * x.length) := by
  have hlt : (valueOf (subChain x y b).1 : Int) < 2 ^ (32 * x.length) := by
    exact_mod_cast subChain_length b h ▸ valueOf_lt (subChain x y b).1
  rw [← subChain_value h hb, Int.sub_mul_emod_self_right, Int.emod_eq_of_lt (Int.natCast_nonneg _) hlt]

/-- R124: `subMod` is the remainder of the exact difference. -/
theorem subMod_cast (n a b : Nat) : (subMod n a b : Int) = ((a : Int) - b) % 2 ^ (32 * n) := by
  have hpos : ((2 ^ (32 * n) : Nat) : Int) ≠ 0 := by positivity
  rw [subMod, Int.toNat_of_nonneg (Int.emod_nonneg _ hpos), Nat.cast_pow, Nat.cast_ofNat]

/-- R124: the borrow chain computes `subMod`. -/
theorem valueOf_subChain_eq_subMod {x y : List Word} (h : x.length = y.length) :
    valueOf (subChain x y 0).1 = subMod x.length (valueOf x) (valueOf y) := by
  have hchain := valueOf_subChain h (b := 0) (by decide)
  rw [← Int.natCast_inj, hchain, subMod_cast]
  simp

/-! ### R122, R125, R126: the datapaths of one operand as chains -/

theorem valueOf_zeros (n : Nat) : valueOf (List.replicate n 0) = 0 := by
  induction n with
  | zero => rfl
  | succ n ih => rw [List.replicate_succ, valueOf, ih]; rfl

/-- R75: a scalar, extended with words 0, has its own value. -/
theorem valueOf_scalar (s : Word) (n : Nat) : valueOf (s :: List.replicate n 0) = s.toNat := by
  rw [valueOf, valueOf_zeros]
  rfl

/-- R122: a value and the value of its complemented words add up to all ones. -/
theorem valueOf_add_valueOf_not (xs : List Word) :
    valueOf xs + valueOf (xs.map (~~~·)) + 1 = 2 ^ (32 * xs.length) := by
  induction xs with
  | nil => rfl
  | cons x xs ih =>
    have hword : x.toNat + (~~~x).toNat + 1 = 2 ^ 32 := by
      rw [BitVec.toNat_not]
      omega
    simp only [List.map_cons, valueOf, List.length_cons, pow_words_succ]
    linear_combination hword + 2 ^ 32 * ih

/-- R122: NEG's loop is the carry chain over the complemented words and 0. -/
theorem negChain_eq_addChain (xs : List Word) (c : Word) :
    negChain xs c = (addChain (xs.map (~~~·)) (List.replicate xs.length 0) c).1 := by
  induction xs generalizing c with
  | nil => rfl
  | cons x xs ih => simp [negChain, addChain, List.replicate_succ, ih]

theorem carrySum_zero_zero (x : Word) : carrySum x 0 0 = (x, 0) := by
  have hhigh : x.toNat / 4294967296 = 0 := Nat.div_eq_of_lt x.isLt
  simp [carrySum, hhigh]

theorem borrowSub_zero_zero (x : Word) : borrowSub x 0 0 = (x, 0) := by
  simp [borrowSub, truthWord]

/-- R125: with no carry to propagate, the chain leaves the words as they are. -/
theorem addChain_zeros (xs : List Word) : addChain xs (List.replicate xs.length 0) 0 = (xs, 0) := by
  induction xs with
  | nil => rfl
  | cons x xs ih => simp only [List.length_cons, List.replicate_succ, addChain, carrySum_zero_zero, ih]

/-- R126: with no borrow to propagate, the chain leaves the words as they are. -/
theorem subChain_zeros (xs : List Word) : subChain xs (List.replicate xs.length 0) 0 = (xs, 0) := by
  induction xs with
  | nil => rfl
  | cons x xs ih => simp only [List.length_cons, List.replicate_succ, subChain, borrowSub_zero_zero, ih]

/-- R125: the early stop gives the words of the full chain. -/
theorem carryRipple_eq_addChain (xs : List Word) (c : Word) :
    carryRipple xs c = (addChain xs (List.replicate xs.length 0) c).1 := by
  induction xs generalizing c with
  | nil => rfl
  | cons x xs ih =>
    by_cases hc : c = 0
    · subst hc
      rw [addChain_zeros]
      rfl
    · simp only [carryRipple, if_neg hc, ih]
      rfl

/-- R126: the early stop gives the words of the full chain. -/
theorem borrowRipple_eq_subChain (xs : List Word) (b : Word) :
    borrowRipple xs b = (subChain xs (List.replicate xs.length 0) b).1 := by
  induction xs generalizing b with
  | nil => rfl
  | cons x xs ih =>
    by_cases hb : b = 0
    · subst hb
      rw [subChain_zeros]
      rfl
    · simp only [borrowRipple, if_neg hb, ih]
      rfl

/-- R122: NEG's loop computes the two's complement. -/
theorem valueOf_negChain (xs : List Word) :
    valueOf (negChain xs 1) = (2 ^ (32 * xs.length) - valueOf xs) % 2 ^ (32 * xs.length) := by
  have hnot := valueOf_add_valueOf_not xs
  rw [negChain_eq_addChain, valueOf_addChain _ (by simp), valueOf_zeros, List.length_map]
  congr 1
  rw [show (1 : Word).toNat = 1 from rfl]
  omega

theorem negChain_length (xs : List Word) (c : Word) : (negChain xs c).length = xs.length := by
  rw [negChain_eq_addChain, addChain_length _ (by simp), List.length_map]

/-- R125: ADDS is the carry chain over A and the scalar, extended with words 0. -/
theorem addsDatapath_cons (x : Word) (xs : List Word) (s : Word) :
    addsDatapath (x :: xs) s = (addChain (x :: xs) (s :: List.replicate xs.length 0) 0).1 := by
  simp only [addsDatapath, carryRipple_eq_addChain]
  rfl

/-- R126: SUBS is the borrow chain over A and the scalar, extended with words 0. -/
theorem subsDatapath_cons (x : Word) (xs : List Word) (s : Word) :
    subsDatapath (x :: xs) s = (subChain (x :: xs) (s :: List.replicate xs.length 0) 0).1 := by
  simp only [subsDatapath, borrowRipple_eq_subChain]
  rfl

theorem addsDatapath_length (a : List Word) (s : Word) : (addsDatapath a s).length = a.length := by
  cases a with
  | nil => rfl
  | cons x xs => rw [addsDatapath_cons, addChain_length _ (by simp)]

theorem subsDatapath_length (a : List Word) (s : Word) : (subsDatapath a s).length = a.length := by
  cases a with
  | nil => rfl
  | cons x xs => rw [subsDatapath_cons, subChain_length _ (by simp)]

theorem valueOf_addsDatapath (a : List Word) (s : Word) :
    valueOf (addsDatapath a s) = (valueOf a + s.toNat) % 2 ^ (32 * a.length) := by
  cases a with
  | nil => exact (Nat.mod_one _).symm
  | cons x xs => rw [addsDatapath_cons, valueOf_addChain _ (by simp), valueOf_scalar]; rfl

theorem valueOf_subsDatapath (a : List Word) (s : Word) :
    valueOf (subsDatapath a s) = subMod a.length (valueOf a) s.toNat := by
  cases a with
  | nil => simp [subsDatapath, valueOf, subMod]
  | cons x xs => rw [subsDatapath_cons, valueOf_subChain_eq_subMod (by simp), valueOf_scalar]

end Sys2Proof.Machine

/-! ### R122 to R127: the commands of addition and subtraction -/
namespace Sys2Proof.Machine

/-- R240: a command that stores the value of the words `vs` over one window and completes, where its windows keep the
contract: the window's value and words after it, and its frame. -/
theorem exec_store_spec {i : Instr} {s : State} {w : Window} {v : Nat} {vs : List Word}
    (heq : exec i s = s.checked i (s.store w v).finish) (hfit : ∀ w ∈ windowsOf i s.latch, fits s w.base w.len)
    (hov : overlapAllowed i s.latch = true) (hl : vs.length = w.len) (hv : valueOf vs = v) :
    ∃ t, exec i s = .next t ∧ memRead t w.base w.len = v ∧ t.mem.readWords w.base w.len = vs ∧
      sameOutside s t w.base w.len ∧ onlyMemory s t := by
  have hstore : s.store w v = s.storeWords w vs := by rw [State.store, ← hv, ← hl, wordsOf_valueOf]
  have hwords : ((s.storeWords w vs).complete .ok).mem.readWords w.base w.len = vs := words_storeWords_same s w vs hl
  rw [hstore] at heq
  have hnext : s.checked i (s.storeWords w vs).finish = .next ((s.storeWords w vs).complete .ok) :=
    checked_of_contract _ ((windows_inDM_iff i s).2 hfit) hov
  exact ⟨_, heq.trans hnext, by rw [memRead, hwords, hv], hwords, frame_of_checked_storeWords hnext hl⟩

theorem overlapAllowed_neg_iff (s : State) : overlapAllowed .neg s.latch = true ↔
    argD s = argA s ∨ apart (argD s) (argN s) (argA s) (argN s) := by
  rw [overlapAllowed, Bool.or_eq_true, identical_iff, disjoint_iff]
  rfl

/-- R56: ADD has the table's line of SUB. -/
theorem overlapAllowed_add_iff (s : State) : overlapAllowed .add s.latch = true ↔
    argB s = argA s ∨ apart (argB s) (argN s) (argA s) (argN s) := overlapAllowed_sub_iff s

/-- Settles O26: one store of the value that the loop computes; the other clause is the contract check. -/
theorem negStoresTwosComplement : Obligations.NegStoresTwosComplement := by
  refine ⟨decode_encode .neg, fun s hA hD hov => ?_, fun s hA hD hne hov => ?_⟩
  · exact exec_store_spec (w := s.latch.winD) rfl (by simpa [windowsOf] using ⟨hA, hD⟩)
      ((overlapAllowed_neg_iff s).2 hov) ((negChain_length _ _).trans (readWords_length _ _ _))
      (by rw [valueOf_negChain, readWords_length])
  · exact exec_cv2 (i := .neg) (by simp [Instr.isDivision]) (by simpa [windowsOf] using ⟨hA, hD⟩)
      (mt (overlapAllowed_neg_iff s).1 (not_or.2 ⟨hne, hov⟩))

/-- Settles O27: one store of the value that the carry chain computes; the other clause is the contract check. -/
theorem addStoresSum : Obligations.AddStoresSum := by
  refine ⟨decode_encode .add, fun s hA hB hov => ?_, fun s hA hB hne hov => ?_⟩
  · exact exec_store_spec (w := s.latch.winA) rfl (by simpa [windowsOf] using ⟨hA, hB⟩)
      ((overlapAllowed_add_iff s).2 hov) ((addChain_length _ (by simp)).trans (readWords_length _ _ _))
      (by rw [valueOf_addChain 0 (by simp), readWords_length]; rfl)
  · exact exec_cv2 (i := .add) (by simp [Instr.isDivision]) (by simpa [windowsOf] using ⟨hA, hB⟩)
      (mt (overlapAllowed_add_iff s).1 (not_or.2 ⟨hne, hov⟩))

/-- Settles O28: one store of the value that the borrow chain computes. -/
theorem subStoresDifference : Obligations.SubStoresDifference := by
  refine ⟨decode_encode .sub, fun s hA hB hov => ?_⟩
  simp only [← subMod_cast, Int.natCast_inj]
  exact exec_store_spec (w := s.latch.winA) rfl (by simpa [windowsOf] using ⟨hA, hB⟩)
    ((overlapAllowed_sub_iff s).2 hov) ((subChain_length _ (by simp)).trans (readWords_length _ _ _))
    (by rw [valueOf_subChain_eq_subMod (by simp), readWords_length])

/-- Settles O29: one store of the value that the early-stop datapath computes. -/
theorem addsStoresSumWithScalar : Obligations.AddsStoresSumWithScalar :=
  ⟨decode_encode .adds, fun s hA =>
    exec_store_spec (i := .adds) (w := s.latch.winA) rfl (List.forall_mem_singleton.2 hA) rfl
      ((addsDatapath_length _ _).trans (readWords_length _ _ _)) (by rw [valueOf_addsDatapath, readWords_length])⟩

/-- Settles O30: one store of the value that the early-stop datapath computes. -/
theorem subsStoresDifferenceWithScalar : Obligations.SubsStoresDifferenceWithScalar := by
  refine ⟨decode_encode .subs, fun s hA => ?_⟩
  simp only [← subMod_cast, Int.natCast_inj]
  exact exec_store_spec (i := .subs) (w := s.latch.winA) rfl (List.forall_mem_singleton.2 hA) rfl
    ((subsDatapath_length _ _).trans (readWords_length _ _ _))
    (by rw [valueOf_subsDatapath, readWords_length])

/-! ### R127: inverse commands -/

theorem eq_of_valueOf_eq {xs ys : List Word} (hl : xs.length = ys.length) (h : valueOf xs = valueOf ys) : xs = ys := by
  rw [← wordsOf_valueOf xs, ← wordsOf_valueOf ys, hl, h]

/-- A window apart from the one that a change is confined to keeps its words. -/
theorem readWords_of_sameOutside {s t : State} {a n b m : Nat} (h : sameOutside s t a n) (hap : apart b m a n) :
    t.mem.readWords b m = s.mem.readWords b m := by
  have hword (i : Nat) (hi : i < m) : t.mem.readWord (b + i) = s.mem.readWord (b + i) := by
    simp only [Memory.readWord]
    rw [h, h, h, h] <;> omega
  refine List.ext_getElem? fun i => ?_
  rcases Nat.lt_or_ge i m with hi | hi
  · rw [readWords_getElem? _ _ _ _ hi, readWords_getElem? _ _ _ _ hi, hword i hi]
  · simp [hi]

/-- R122: the two's complement twice is the value itself. -/
theorem complement_complement_mod {p a : Nat} (h : a < p) : (p - (p - a) % p) % p = a := by
  rcases Nat.eq_zero_or_pos a with rfl | ha
  · simp
  · rw [Nat.mod_eq_of_lt (a := p - a) (by omega), Nat.mod_eq_of_lt (by omega)]
    omega

/-- R123, R124: a subtraction takes back an addition of the same value, whatever wrapped. -/
theorem add_sub_mod {p a b : Nat} (h : a < p) : (((a + b) % p : Nat) - (b : Int)) % p = a := by
  rw [Int.natCast_emod, Int.emod_sub_emod, Nat.cast_add, Int.add_sub_cancel]
  exact Int.emod_eq_of_lt (Int.natCast_nonneg a) (by exact_mod_cast h)

/-- R33: a command that goes on leaves the operands of the next one where they were. -/
theorem exec_next_operands {i : Instr} {s t : State} (h : exec i s = .next t) :
    argN t = argN s ∧ argA t = argA s ∧ argB t = argB s ∧ argD t = argD s ∧ ∀ a n, fits t a n ↔ fits s a n := by
  simp [argN, argA, argB, argD, fits, (exec_next h).latch, (exec_next h).cfg]

theorem neg_neg_inPlace {s : State} (hfit : fits s (argA s) (argN s)) (hD : argD s = argA s) :
    ∃ t u, exec .neg s = .next t ∧ exec .neg t = .next u ∧
      u.mem.readWords (argA s) (argN s) = s.mem.readWords (argA s) (argN s) := by
  obtain ⟨-, hneg, -⟩ := negStoresTwosComplement
  obtain ⟨t, hst, hmt, -⟩ := hneg s hfit (hD ▸ hfit) (.inl hD)
  obtain ⟨hN, hA, -, hDt, hfits⟩ := exec_next_operands hst
  have hnegt := hneg t
  rw [hfits, hfits, hN, hA, hDt, hD] at hnegt
  obtain ⟨u, htu, hmu, -⟩ := hnegt hfit hfit (.inl rfl)
  refine ⟨t, u, hst, htu, eq_of_valueOf_eq (by simp) ?_⟩
  rw [hD] at hmt
  calc memRead u (argA s) (argN s)
      = (2 ^ (32 * argN s) - (2 ^ (32 * argN s) - memRead s (argA s) (argN s)) % 2 ^ (32 * argN s)) %
          2 ^ (32 * argN s) := by rw [hmu, hmt]
    _ = memRead s (argA s) (argN s) := complement_complement_mod (value_lt s s.latch.winA)

theorem add_sub_apart {s : State} (hA : fits s (argA s) (argN s)) (hB : fits s (argB s) (argN s))
    (hap : apart (argB s) (argN s) (argA s) (argN s)) :
    ∃ t u, exec .add s = .next t ∧ exec .sub t = .next u ∧
      u.mem.readWords (argA s) (argN s) = s.mem.readWords (argA s) (argN s) := by
  obtain ⟨-, hadd, -⟩ := addStoresSum
  obtain ⟨-, hsub⟩ := subStoresDifference
  obtain ⟨t, hst, hmt, -, hout, -⟩ := hadd s hA hB (.inr hap)
  obtain ⟨hN, hAt, hBt, -, hfits⟩ := exec_next_operands hst
  have hsubt := hsub t
  rw [hfits, hfits, hN, hAt, hBt] at hsubt
  obtain ⟨u, htu, hmu, -⟩ := hsubt hA hB (.inr hap)
  refine ⟨t, u, hst, htu, eq_of_valueOf_eq (by simp) (Int.natCast_inj.1 ?_)⟩
  have hkeep : memRead t (argB s) (argN s) = memRead s (argB s) (argN s) := by
    rw [memRead, readWords_of_sameOutside hout hap]
  calc (memRead u (argA s) (argN s) : Int)
      = ((((memRead s (argA s) (argN s) + memRead s (argB s) (argN s)) % 2 ^ (32 * argN s) : Nat) : Int) -
          memRead s (argB s) (argN s)) % (2 ^ (32 * argN s) : Nat) := by
        rw [hmu, hmt, hkeep]
        norm_cast
    _ = memRead s (argA s) (argN s) := add_sub_mod (value_lt s s.latch.winA)

/-- Settles O31: the values of the two stores cancel, and a value has one list of words. -/
theorem doubleNegationAndAddSubInverse : Obligations.DoubleNegationAndAddSubInverse :=
  ⟨fun _ => neg_neg_inPlace, fun _ => add_sub_apart⟩

end Sys2Proof.Machine

/-! ### R140 to R142: the multiplier's datapaths as the words of a value -/
namespace Sys2Proof.Machine

/-- R12: the words of a value are those of its residue modulo `2^(32n)`. -/
theorem wordsOf_mod_add (n v r : Nat) : wordsOf n (v % 2 ^ (32 * n) + r) = wordsOf n (v + r) :=
  eq_of_valueOf_eq (by simp) (by simp [valueOf_wordsOf])

/-- One step of a multiply loop: `t` gives the lowest word, its carry goes into the words above. -/
theorem wordsOf_succ_add_mul (n t r : Nat) :
    wordsOf (n + 1) (t + 2 ^ 32 * r) = BitVec.ofNat 32 t :: wordsOf n (r + t / 2 ^ 32) := by
  have hlow : BitVec.ofNat 32 (t + 2 ^ 32 * r) = BitVec.ofNat 32 t := BitVec.eq_of_toNat_eq (by simp)
  rw [wordsOf, hlow, Nat.add_mul_div_left t r (by decide), Nat.add_comm]

/-- R141, R142: the sum at one word of D, `t = D_j + A_j * y + c`, taken out of the whole value. -/
theorem valueOf_cons_mul_add (x d y : Word) (xs ds : List Word) (c : Nat) :
    valueOf (d :: ds) + valueOf (x :: xs) * y.toNat + c =
      (d.toNat + x.toNat * y.toNat + c) + 2 ^ 32 * (valueOf ds + valueOf xs * y.toNat) := by
  rw [valueOf, valueOf]
  ring

/-- R141: the MULS loop accumulates A times the scalar, and the carry-in, in the n + 1 words of D. -/
theorem mulsChain_eq_wordsOf {a d : List Word} (s : Word) (c : Nat) (h : d.length = a.length + 1) :
    mulsChain a s d c = wordsOf d.length (valueOf d + valueOf a * s.toNat + c) := by
  induction a generalizing d c with
  | nil =>
    obtain ⟨e, rfl⟩ := List.length_eq_one_iff.1 h
    simp [mulsChain, wordsOf, valueOf]
  | cons x xs ih => cases d with
    | nil => simp at h
    | cons d ds =>
      rw [mulsChain, ih _ (Nat.succ.inj h), List.length_cons, valueOf_cons_mul_add, wordsOf_succ_add_mul]

/-- R142: the ripple of a row's carry adds it to the words above; its early stop changes nothing. -/
theorem rowRipple_eq_wordsOf (ds : List Word) (c : Nat) : rowRipple ds c = wordsOf ds.length (valueOf ds + c) := by
  induction ds generalizing c with
  | nil => rfl
  | cons d ds ih =>
    have hstep : valueOf (d :: ds) + c = d.toNat + c + 2 ^ 32 * valueOf ds := Nat.add_right_comm _ _ _
    by_cases hc : c = 0
    · rw [rowRipple, if_pos hc, hc, Nat.add_zero, wordsOf_valueOf]
    · rw [rowRipple, if_neg hc, List.length_cons, hstep, wordsOf_succ_add_mul, ← ih]

/-- R142: a row accumulates A times one word of B in the words of D from the row's own word upward. -/
theorem schoolbookRow_eq_wordsOf {a d : List Word} (y : Word) (c : Nat) (h : a.length ≤ d.length) :
    schoolbookRow a y d c = wordsOf d.length (valueOf d + valueOf a * y.toNat + c) := by
  induction a generalizing d c with
  | nil => rw [schoolbookRow, rowRipple_eq_wordsOf, valueOf, Nat.zero_mul, Nat.add_zero]
  | cons x xs ih => cases d with
    | nil => simp at h
    | cons d ds =>
      rw [schoolbookRow, ih _ (Nat.le_of_succ_le_succ h), List.length_cons, valueOf_cons_mul_add,
        wordsOf_succ_add_mul]

/-- R142: a row's lowest word is final after it, and the later rows work on the words above. -/
theorem schoolbook_cons {a d : List Word} {y : Word} {m v : Nat} (ys : List Word)
    (hrow : schoolbookRow a y d 0 = wordsOf (m + 1) v) :
    schoolbook a (y :: ys) d = BitVec.ofNat 32 v :: schoolbook a ys (wordsOf m (v / 2 ^ 32)) := by
  rw [schoolbook, hrow, wordsOf]

/-- R142: the rows together accumulate the product. -/
theorem schoolbook_eq_wordsOf (a : List Word) {b d : List Word} (h : a.length + b.length ≤ d.length) :
    schoolbook a b d = wordsOf d.length (valueOf d + valueOf a * valueOf b) := by
  induction b generalizing d with
  | nil => rw [schoolbook, valueOf, Nat.mul_zero, Nat.add_zero, wordsOf_valueOf]
  | cons y ys ih =>
    rw [List.length_cons] at h
    obtain ⟨m, hm⟩ : ∃ m, d.length = m + 1 := Nat.exists_eq_succ_of_ne_zero (by omega)
    have hrow : schoolbookRow a y d 0 = wordsOf (m + 1) (valueOf d + valueOf a * y.toNat) :=
      hm ▸ schoolbookRow_eq_wordsOf y 0 (by omega)
    have hsplit : valueOf d + valueOf a * valueOf (y :: ys) =
        (valueOf d + valueOf a * y.toNat) + 2 ^ 32 * (valueOf a * valueOf ys) := by
      rw [valueOf]
      ring
    rw [schoolbook_cons ys hrow, ih (by rw [wordsOf_length]; omega), wordsOf_length, valueOf_wordsOf,
      wordsOf_mod_add, hm, hsplit, wordsOf_succ_add_mul, Nat.add_comm (_ / _)]

/-! ### R140 to R142: the multiplications -/

theorem overlapAllowed_mulf_iff (s : State) : overlapAllowed .mulf s.latch = true ↔
    apart (argD s) (2 * argN s) (argA s) (argN s) ∧ apart (argD s) (2 * argN s) (argB s) (argN s) := by
  rw [overlapAllowed, Bool.and_eq_true, disjoint_iff, disjoint_iff]
  rfl

theorem overlapAllowed_muls_iff (s : State) : overlapAllowed .muls s.latch = true ↔
    argD s = argA s ∨ apart (argD s) (argN s + 1) (argA s) (argN s) := by
  rw [overlapAllowed, Bool.or_eq_true, identical_iff, disjoint_iff]
  rfl

/-- Settles O32: one store of the words of the sum over 2n words; the other clause is the contract check. -/
theorem mulfAccumulatesProduct : Obligations.MulfAccumulatesProduct := by
  have hfit (s : State) (hA : fits s (argA s) (argN s)) (hB : fits s (argB s) (argN s))
      (hD : fits s (argD s) (2 * argN s)) : ∀ w ∈ windowsOf .mulf s.latch, fits s w.base w.len :=
    List.forall_mem_cons.2 ⟨hA, List.forall_mem_cons.2 ⟨hB, List.forall_mem_singleton.2 hD⟩⟩
  refine ⟨decode_encode .mulf, fun s hA hB hD hapA hapB => ?_, fun s hA hB hD hov => ?_⟩
  · have hpow : 32 * (2 * argN s) = 64 * argN s := (Nat.mul_assoc 32 2 _).symm
    obtain ⟨t, hnext, hvalue, -, hframe⟩ := exec_store_spec (w := s.latch.winD2) rfl (hfit s hA hB hD)
      ((overlapAllowed_mulf_iff s).2 ⟨hapA, hapB⟩) (wordsOf_length _ _)
      ((valueOf_wordsOf _ _).trans (congrArg (_ % 2 ^ ·) hpow))
    exact ⟨t, hnext, hvalue, hframe⟩
  · exact exec_cv2 (by simp [Instr.isDivision]) (hfit s hA hB hD)
      (mt (overlapAllowed_mulf_iff s).1 (not_and_or.2 hov))

/-- Settles O33: one store of the words that the datapath computes; the other clause is the contract check. -/
theorem mulsAccumulatesScalarProduct : Obligations.MulsAccumulatesScalarProduct := by
  have hfit (s : State) (hA : fits s (argA s) (argN s)) (hD : fits s (argD s) (argN s + 1)) :
      ∀ w ∈ windowsOf .muls s.latch, fits s w.base w.len :=
    List.forall_mem_cons.2 ⟨hA, List.forall_mem_singleton.2 hD⟩
  refine ⟨decode_encode .muls, fun s hA hD hov => ?_, fun s hA hD hne hov => ?_⟩
  · have hchain := mulsChain_eq_wordsOf (a := s.mem.readWords (argA s) (argN s))
      (d := s.mem.readWords (argD s) (argN s + 1)) s.latch.opa 0 (by simp)
    rw [hchain, readWords_length]
    exact exec_store_spec (w := s.latch.winD1) rfl (hfit s hA hD) ((overlapAllowed_muls_iff s).2 hov)
      (wordsOf_length _ _) (valueOf_wordsOf _ _)
  · exact exec_cv2 (by simp [Instr.isDivision]) (hfit s hA hD)
      (mt (overlapAllowed_muls_iff s).1 (not_or.2 ⟨hne, hov⟩))

/-- Settles O34: the rows accumulate the product in as many words as D has. -/
theorem schoolbookComputesTheProduct : Obligations.SchoolbookComputesTheProduct := by
  intro a b d hab hd
  rw [schoolbook_eq_wordsOf a (by omega), hd]

end Sys2Proof.Machine

/-! ### R150 to R153: the word-wise logic -/
namespace Sys2Proof.Machine

theorem readWords_getElem (m : Memory) (a n i : Nat) (h : i < (m.readWords a n).length) :
    (m.readWords a n)[i] = m.readWord (a + i) :=
  (List.getElem_eq_iff h).2 (readWords_getElem? m a n i (by simpa using h))

/-- R240: a command that stores the words `vs` over one window and completes, where its windows keep the contract: its
frame, and each word of the window after it. -/
theorem exec_storeWords_spec {i : Instr} {s : State} {w : Window} {vs : List Word}
    (heq : exec i s = s.checked i (s.storeWords w vs).finish) (hfit : ∀ w ∈ windowsOf i s.latch, fits s w.base w.len)
    (hov : overlapAllowed i s.latch = true) (hl : vs.length = w.len) :
    ∃ t, exec i s = .next t ∧ sameOutside s t w.base w.len ∧ onlyMemory s t ∧
      ∀ j (hj : j < vs.length), t.mem.readWord (w.base + j) = vs[j] := by
  have hnext : s.checked i (s.storeWords w vs).finish = .next ((s.storeWords w vs).complete .ok) :=
    checked_of_contract _ ((windows_inDM_iff i s).2 hfit) hov
  obtain ⟨hout, hmem⟩ := frame_of_checked_storeWords hnext hl
  exact ⟨_, heq.trans hnext, hout, hmem, fun j hj => readWord_writeWords_same _ _ j vs hj⟩

section
variable {i : Instr} {s : State} (hA : fits s (argA s) (argN s))
include hA

/-- R150 to R152: a command that combines the words of A and B, pair by pair, in A. -/
theorem exec_zipWith_spec (f : Word → Word → Word)
    (heq : exec i s = s.checked i
      (s.storeWords s.latch.winA (List.zipWith f (s.words s.latch.winA) (s.words s.latch.winB))).finish)
    (hwin : windowsOf i s.latch = [s.latch.winA, s.latch.winB]) (hov : overlapAllowed i s.latch = true)
    (hB : fits s (argB s) (argN s)) :
    ∃ t, exec i s = .next t ∧ sameOutside s t (argA s) (argN s) ∧ onlyMemory s t ∧
      ∀ j, j < argN s →
        t.mem.readWord (argA s + j) = f (s.mem.readWord (argA s + j)) (s.mem.readWord (argB s + j)) := by
  have hl : (List.zipWith f (s.words s.latch.winA) (s.words s.latch.winB)).length = argN s := by
    rw [List.length_zipWith, words_length, words_length]
    exact Nat.min_self _
  have hfit : ∀ w ∈ windowsOf i s.latch, fits s w.base w.len := by simpa [hwin] using ⟨hA, hB⟩
  obtain ⟨t, hnext, hout, hmem, hword⟩ := exec_storeWords_spec heq hfit hov hl
  refine ⟨t, hnext, hout, hmem, fun j hj => (hword j (hj.trans_eq hl.symm)).trans ?_⟩
  rw [List.getElem_zipWith]
  exact congrArg₂ f (readWords_getElem ..) (readWords_getElem ..)

/-- R153: a command that changes the words of A one by one. -/
theorem exec_map_spec (f : Word → Word)
    (heq : exec i s = s.checked i (s.storeWords s.latch.winA ((s.words s.latch.winA).map f)).finish)
    (hwin : windowsOf i s.latch = [s.latch.winA]) (hov : overlapAllowed i s.latch = true) :
    ∃ t, exec i s = .next t ∧ sameOutside s t (argA s) (argN s) ∧ onlyMemory s t ∧
      ∀ j, j < argN s → t.mem.readWord (argA s + j) = f (s.mem.readWord (argA s + j)) := by
  have hl : ((s.words s.latch.winA).map f).length = argN s := (List.length_map f).trans (words_length _ _)
  have hfit : ∀ w ∈ windowsOf i s.latch, fits s w.base w.len := hwin ▸ List.forall_mem_singleton.2 hA
  obtain ⟨t, hnext, hout, hmem, hword⟩ := exec_storeWords_spec heq hfit hov hl
  refine ⟨t, hnext, hout, hmem, fun j hj => (hword j (hj.trans_eq hl.symm)).trans ?_⟩
  rw [List.getElem_map]
  exact congrArg f (readWords_getElem ..)

end

/-- R56: AND, OR and XOR have the table's line of SUB. -/
theorem overlapAllowed_logic_iff {i : Instr} (s : State) (hi : i ∈ [Instr.and, .or, .xor]) :
    overlapAllowed i s.latch = true ↔ argB s = argA s ∨ apart (argB s) (argN s) (argA s) (argN s) := by
  fin_cases hi <;> exact overlapAllowed_sub_iff s

/-- Settles O35: each command is one store of the words combined; the last clause is the contract check. -/
theorem wordLogicInPlace : Obligations.WordLogicInPlace := by
  refine ⟨decode_encode .and, decode_encode .or, decode_encode .xor, decode_encode .not, fun s hA hB hov => ?_,
    fun s hA => exec_map_spec hA (~~~·) rfl rfl rfl, fun s hA hB hne hov i hi => ?_⟩
  · have hallowed {i : Instr} (hi : i ∈ [Instr.and, .or, .xor]) : overlapAllowed i s.latch = true :=
      (overlapAllowed_logic_iff s hi).2 hov
    exact ⟨exec_zipWith_spec hA (· &&& ·) rfl rfl (hallowed (by simp)) hB,
      exec_zipWith_spec hA (· ||| ·) rfl rfl (hallowed (by simp)) hB,
      exec_zipWith_spec hA (· ^^^ ·) rfl rfl (hallowed (by simp)) hB⟩
  · have hwin : windowsOf i s.latch = [s.latch.winA, s.latch.winB] := by fin_cases hi <;> rfl
    have hdiv : i.isDivision = false := by fin_cases hi <;> rfl
    exact exec_cv2 (by simp [hdiv]) (by simpa [hwin] using ⟨hA, hB⟩)
      (mt (overlapAllowed_logic_iff s hi).1 (not_or.2 ⟨hne, hov⟩))

end Sys2Proof.Machine

/-! ### R154 to R156: the shift loops as the words of a shifted value -/
namespace Sys2Proof.Machine

/-- R12: the words of a value, one by one. -/
theorem wordsOf_eq_map_range (n v : Nat) :
    wordsOf n v = (List.range n).map fun i => BitVec.ofNat 32 (v / 2 ^ (32 * i)) :=
  List.ext_getElem (by simp) fun i h _ => by rw [wordsOf_getElem n v i h, List.getElem_map, List.getElem_range]

/-- R12: bit `k` of word `j` is bit `32j + k` of the value; above the words both are 0. -/
theorem getLsbD_getD (a : List Word) (j : Nat) {k : Nat} (hk : k < 32) :
    (a.getD j 0).getLsbD k = (valueOf a).testBit (32 * j + k) := by
  rcases Nat.lt_or_ge j a.length with hj | hj
  · have hword : a.getD j 0 = BitVec.ofNat 32 (valueOf a / 2 ^ (32 * j)) := by
      rw [List.getD_eq_getElem _ _ hj, ← wordsOf_getElem a.length (valueOf a) j (by simpa using hj)]
      simp only [wordsOf_valueOf]
    rw [hword, BitVec.getLsbD_ofNat, Nat.testBit_div_two_pow, decide_eq_true hk, Bool.true_and, Nat.add_comm]
  · have hlt : valueOf a < 2 ^ (32 * j + k) :=
      (valueOf_lt a).trans_le (Nat.pow_le_pow_right (by decide) (by omega))
    rw [List.getD_eq_default _ _ hj, Nat.testBit_lt_two_pow hlt]
    exact BitVec.getLsbD_zero

/-- R154: the high bits of one word below the low bits of the next are the 32 bits of the value from `32j + b` up. -/
theorem shifted_or_shifted_eq_ofNat (a : List Word) (j : Nat) {b : Nat} (hb : b ≤ 32) :
    a.getD (j + 1) 0 <<< (32 - b) ||| a.getD j 0 >>> b = BitVec.ofNat 32 (valueOf a / 2 ^ (32 * j + b)) := by
  refine BitVec.eq_of_getLsbD_eq fun k hk => ?_
  rw [BitVec.getLsbD_or, BitVec.getLsbD_shiftLeft, BitVec.getLsbD_ushiftRight, BitVec.getLsbD_ofNat,
    Nat.testBit_div_two_pow, decide_eq_true hk, Bool.true_and, Bool.true_and]
  rcases Nat.lt_or_ge (b + k) 32 with hlow | hhigh
  · rw [getLsbD_getD a j hlow, decide_eq_true (by omega : k < 32 - b),
      show 32 * j + (b + k) = k + (32 * j + b) by omega]
    rfl
  · rw [BitVec.getLsbD_of_ge (a.getD j 0) _ hhigh, getLsbD_getD a (j + 1) (by omega),
      decide_eq_false (by omega : ¬ k < 32 - b), show 32 * (j + 1) + (k - (32 - b)) = k + (32 * j + b) by omega,
      Bool.or_false]
    rfl

/-- R156: the guards of the SHR loop save it from words above A, which are 0, and from a shift by 32, which gives 0. -/
theorem shrWord_eq_or (a : List Word) (w b i : Nat) :
    shrWord a w b i = a.getD (i + w + 1) 0 <<< (32 - b) ||| a.getD (i + w) 0 >>> b := by
  have habove {j : Nat} (h : ¬ j < a.length) : a.getD j 0 = 0 := List.getD_eq_default _ _ (Nat.not_lt.1 h)
  rw [shrWord]
  congr 1
  · rw [ite_eq_left_iff, not_and_or, not_not]
    rintro (rfl | h)
    · exact (BitVec.shiftLeft_eq_zero (Nat.le_refl 32)).symm
    · rw [habove h]
      exact (BitVec.zero_shiftLeft _).symm
  · rw [ite_eq_left_iff]
    intro h
    rw [habove h]
    exact BitVec.zero_ushiftRight.symm

/-- R156: the value SHR writes to word `i` is word `i` of the shifted value. -/
theorem shrWord_eq_ofNat (a : List Word) (w i : Nat) {b : Nat} (hb : b < 32) :
    shrWord a w b i = BitVec.ofNat 32 (valueOf a / 2 ^ (32 * w + b) / 2 ^ (32 * i)) := by
  rw [shrWord_eq_or, shifted_or_shifted_eq_ofNat a _ (Nat.le_of_lt hb), Nat.div_div_eq_div_mul, ← Nat.pow_add,
    show 32 * (i + w) + b = 32 * w + b + 32 * i by omega]

/-- The words `a` moved `m` words up, with words 0 below them. -/
def padBelow (m : Nat) (a : List Word) : List Word := List.replicate m 0 ++ a

theorem valueOf_padBelow (m : Nat) (a : List Word) : valueOf (padBelow m a) = valueOf a * 2 ^ (32 * m) := by
  rw [padBelow, valueOf_append, valueOf_zeros, List.length_replicate, Nat.zero_add, Nat.mul_comm]

theorem getD_padBelow (m : Nat) (a : List Word) (j : Nat) :
    (padBelow m a).getD j 0 = if m ≤ j then a.getD (j - m) 0 else 0 := by
  rw [padBelow]
  split
  · next h => rw [List.getD_append_right _ _ _ _ (by simpa using h), List.length_replicate]
  · next h => rw [List.getD_append _ _ _ _ (by simpa using h), List.getD_replicate _ (by omega)]

/-- R155: the guards of the SHL loop put words 0 below A, and save it from a shift by 32, which gives 0. -/
theorem shlWord_eq_or (a : List Word) (w b i : Nat) :
    shlWord a w b i =
      (padBelow (w + 1) a).getD (i + 1) 0 <<< b ||| (padBelow (w + 1) a).getD i 0 >>> (32 - b) := by
  rw [shlWord, getD_padBelow, getD_padBelow]
  congr 1
  · simp only [Nat.add_le_add_iff_right, Nat.add_sub_add_right]
    split
    · rfl
    · exact (BitVec.zero_shiftLeft _).symm
  · by_cases hb : b = 0
    · rw [if_neg (by simp [hb]), hb]
      exact (BitVec.ushiftRight_eq_zero (Nat.le_refl 32)).symm
    · simp only [ne_eq, hb, not_false_eq_true, true_and, Nat.sub_sub]
      split
      · rfl
      · exact BitVec.zero_ushiftRight.symm

/-- R155: the value SHL writes to word `i` is word `i` of the shifted value. -/
theorem shlWord_eq_ofNat (a : List Word) (w i : Nat) {b : Nat} (hb : b < 32) :
    shlWord a w b i = BitVec.ofNat 32 (valueOf a * 2 ^ (32 * w + b) / 2 ^ (32 * i)) := by
  have hjoin := shifted_or_shifted_eq_ofNat (padBelow (w + 1) a) i (Nat.sub_le 32 b)
  rw [Nat.sub_sub_self (Nat.le_of_lt hb)] at hjoin
  have hscale : valueOf a * 2 ^ (32 * (w + 1)) / 2 ^ (32 * i + (32 - b)) =
      valueOf a * 2 ^ (32 * w + b) / 2 ^ (32 * i) := by
    rw [show 32 * (w + 1) = 32 * w + b + (32 - b) by omega, Nat.pow_add _ _ (32 - b), Nat.pow_add _ _ (32 - b),
      ← Nat.mul_assoc, Nat.mul_div_mul_right _ _ (Nat.two_pow_pos _)]
  rw [shlWord_eq_or, hjoin, valueOf_padBelow, hscale]

/-- R155: words below `j` do not depend on word `j`, so the descending loop reads no word it has written. -/
theorem shlWord_set (a : List Word) (w b : Nat) {i j : Nat} (v : Word) (h : i < j) :
    shlWord (a.set j v) w b i = shlWord a w b i := by
  simp only [shlWord, List.getD_eq_getElem?_getD]
  rw [List.getElem?_set_ne (by omega), List.getElem?_set_ne (by omega)]

/-- R156: words above `j` do not depend on word `j`, so the ascending loop reads no word it has written. -/
theorem shrWord_set (a : List Word) (w b : Nat) {i j : Nat} (v : Word) (h : j < i) :
    shrWord (a.set j v) w b i = shrWord a w b i := by
  simp only [shrWord, List.getD_eq_getElem?_getD, List.length_set]
  rw [List.getElem?_set_ne (by omega), List.getElem?_set_ne (by omega)]

/-- R155: the descending loop gives the words that the source words fix. -/
theorem shlLoop_eq_map (w b : Nat) {k : Nat} {a : List Word} (h : k ≤ a.length) :
    shlLoop w b k a = (List.range k).map (shlWord a w b) ++ a.drop k := by
  induction k generalizing a with
  | zero => rfl
  | succ k ih =>
    have hbelow : (List.range k).map (shlWord (a.set k (shlWord a w b k)) w b) = (List.range k).map (shlWord a w b) :=
      List.map_congr_left fun i hi => shlWord_set a w b _ (List.mem_range.1 hi)
    have hdrop : (a.set k (shlWord a w b k)).drop k = shlWord a w b k :: a.drop (k + 1) := by
      rw [List.drop_eq_getElem_cons (by simpa using h), List.getElem_set_self, List.drop_set_of_lt (Nat.lt_succ_self k)]
    rw [shlLoop, ih (by rw [List.length_set]; omega), hbelow, hdrop, List.range_succ, List.map_append,
      List.append_assoc]
    rfl

/-- R156: the ascending loop gives the words that the source words fix. -/
theorem shrLoop_eq_map (w b : Nat) {k i : Nat} {a : List Word} (h : i + k = a.length) :
    shrLoop w b k i a = a.take i ++ (List.range' i k).map (shrWord a w b) := by
  induction k generalizing i a with
  | zero => simp [shrLoop, ← h]
  | succ k ih =>
    have habove : (List.range' (i + 1) k).map (shrWord (a.set i (shrWord a w b i)) w b) =
        (List.range' (i + 1) k).map (shrWord a w b) :=
      List.map_congr_left fun j hj => shrWord_set a w b _ (List.mem_range'_1.1 hj).1
    have htake : (a.set i (shrWord a w b i)).take (i + 1) = a.take i ++ [shrWord a w b i] := by
      rw [List.take_succ_eq_append_getElem (by rw [List.length_set]; omega), List.getElem_set_self,
        List.take_set_of_le (Nat.le_refl i)]
    rw [shrLoop, ih (by rw [List.length_set]; omega), habove, htake, List.range'_succ, List.append_assoc]
    rfl

/-- R154, R155: the SHL datapath gives the words of `a * 2^s`, cut to as many words as A has. -/
theorem shlDatapath_eq_wordsOf (a : List Word) (s : Nat) : shlDatapath a s = wordsOf a.length (valueOf a * 2 ^ s) := by
  rw [shlDatapath, shlLoop_eq_map _ _ (Nat.le_refl _), List.drop_length, List.append_nil, wordsOf_eq_map_range]
  refine List.map_congr_left fun i _ => ?_
  rw [shlWord_eq_ofNat a _ i (Nat.mod_lt s (by decide)), Nat.div_add_mod]

/-- R154, R156: the SHR datapath gives the words of `a div 2^s`. -/
theorem shrDatapath_eq_wordsOf (a : List Word) (s : Nat) : shrDatapath a s = wordsOf a.length (valueOf a / 2 ^ s) := by
  rw [shrDatapath, shrLoop_eq_map _ _ (Nat.zero_add _), List.take_zero, List.nil_append, wordsOf_eq_map_range,
    List.range_eq_range']
  refine List.map_congr_left fun i _ => ?_
  rw [shrWord_eq_ofNat a _ i (Nat.mod_lt s (by decide)), Nat.div_add_mod]

/-- R155: a shift by all the bits of the window leaves a multiple of `2^(32n)`. -/
theorem shiftLeftValue_eq (n a s : Nat) : shiftLeftValue n a s = a * 2 ^ s % 2 ^ (32 * n) := by
  rw [shiftLeftValue, ite_eq_right_iff]
  exact fun h => (Nat.mod_eq_zero_of_dvd (Dvd.dvd.mul_left (Nat.pow_dvd_pow 2 h) a)).symm

/-- R156: a shift by all the bits of the window leaves nothing of its value. -/
theorem shiftRightValue_eq {n a : Nat} (s : Nat) (ha : a < 2 ^ (32 * n)) : shiftRightValue n a s = a / 2 ^ s := by
  rw [shiftRightValue, ite_eq_right_iff]
  exact fun h => (Nat.div_eq_of_lt (ha.trans_le (Nat.pow_le_pow_right (by decide) h))).symm

/-- Settles O36: one store of the value whose words the descending loop gives. -/
theorem shlShiftsAcrossWords : Obligations.ShlShiftsAcrossWords := by
  refine ⟨decode_encode .shl, fun s hA => ?_⟩
  rw [shlDatapath_eq_wordsOf, readWords_length, ← shiftLeftValue_eq]
  exact exec_store_spec (i := .shl) (w := s.latch.winA) rfl (List.forall_mem_singleton.2 hA) rfl (wordsOf_length _ _)
    (by rw [valueOf_wordsOf, ← shiftLeftValue_eq])

/-- Settles O37: one store of the value whose words the ascending loop gives. -/
theorem shrShiftsAcrossWords : Obligations.ShrShiftsAcrossWords := by
  refine ⟨decode_encode .shr, fun s hA => ?_⟩
  have hlt : memRead s (argA s) (argN s) < 2 ^ (32 * argN s) := value_lt s s.latch.winA
  rw [shrDatapath_eq_wordsOf, readWords_length, ← shiftRightValue_eq _ hlt]
  exact exec_store_spec (i := .shr) (w := s.latch.winA) rfl (List.forall_mem_singleton.2 hA) rfl (wordsOf_length _ _)
    (by rw [valueOf_wordsOf, shiftRightValue_eq _ hlt, Nat.mod_eq_of_lt ((Nat.div_le_self _ _).trans_lt hlt)])

end Sys2Proof.Machine

/-! ### R170 to R174, R188: the divisions, beyond their frames -/
namespace Sys2Proof.Machine

section
variable {i : Instr} {s : State} (k : State → Nat → Nat → State) (hsize : argN s ≤ s.cfg.divNmax)
  (hfit : ∀ w ∈ windowsOf i s.latch, fits s w.base w.len) (hov : overlapAllowed i s.latch = true)
include hsize hfit hov

/-- R246: a division that passes the size and the contract check ends by its divisor. -/
theorem divide_goes_on :
    ∃ t, s.divide i k = .next t ∧
      ((memRead s (argB s) (argN s) = 0 ∧
          t = ((s.loadScratch.scramble (windowsOf i s.latch)).releaseScratch).complete .div0) ∨
        (memRead s (argB s) (argN s) ≠ 0 ∧
          t = ((k s.loadScratch (memRead s (argA s) (argN s)) (memRead s (argB s) (argN s))).releaseScratch).complete
            .ok)) := by
  obtain ⟨t, heq⟩ := divide_eq_checked k hsize
  rw [checked_of_contract _ ((windows_inDM_iff i s).2 hfit) hov] at heq
  refine ⟨t, heq, ?_⟩
  rcases divide_next heq with ⟨hover, -⟩ | ⟨-, -, -, hend⟩
  · exact absurd hsize (Nat.not_le.2 hover)
  · exact hend

/-- R174: a division by 0 completes with DIV0. -/
theorem divide_by_zero (hzero : memRead s (argB s) (argN s) = 0) :
    s.divide i k = .next (((s.loadScratch.scramble (windowsOf i s.latch)).releaseScratch).complete .div0) := by
  obtain ⟨t, heq, ⟨-, rfl⟩ | ⟨hne, -⟩⟩ := divide_goes_on k hsize hfit hov
  · exact heq
  · exact absurd hzero hne

/-- R171 to R173: a division by a divisor that is not 0 writes its results and completes. -/
theorem divide_by_nonzero (hne : memRead s (argB s) (argN s) ≠ 0) :
    s.divide i k =
      .next (((k s.loadScratch (memRead s (argA s) (argN s)) (memRead s (argB s) (argN s))).releaseScratch).complete
        .ok) := by
  obtain ⟨t, heq, ⟨hzero, -⟩ | ⟨-, rfl⟩⟩ := divide_goes_on k hsize hfit hov
  · exact absurd hzero hne
  · exact heq

end

/-- R171 to R173: the three divisions differ in how they write their results only. -/
theorem exec_division_eq {i : Instr} (s : State) (hi : i.isDivision = true) : ∃ k, exec i s = s.divide i k := by
  cases i with
  | div =>
    rw [exec, execDiv]
    exact ⟨_, rfl⟩
  | mod =>
    rw [exec, execMod]
    exact ⟨_, rfl⟩
  | divmod =>
    rw [exec, execDivmod]
    exact ⟨_, rfl⟩
  | _ => cases hi

/-- Settles O39: the DIV0 end of a division; its draws lie in the windows named. -/
theorem divideByZeroCompletes : Obligations.DivideByZeroCompletes := by
  intro s i hi hsize hfit hov hzero
  obtain ⟨k, hk⟩ := exec_division_eq s hi
  have hnext := hk.trans (divide_by_zero k hsize hfit hov hzero)
  exact ⟨_, hnext, rfl, fun c => (exec_next hnext).mem.readByte_outside⟩

/-- R12: a window stored with a value that its words hold reads as that value. -/
theorem value_store_of_lt (s : State) (w : Window) {v : Nat} (hv : v < 2 ^ (32 * w.len)) :
    (s.store w v).value w = v := by
  rw [value_store_same, Nat.mod_eq_of_lt hv]

/-- R188: the quotient fits the n words of D. -/
theorem quotient_lt (s : State) :
    memRead s (argA s) (argN s) / memRead s (argB s) (argN s) < 2 ^ (32 * argN s) :=
  (Nat.div_le_self _ _).trans_lt (value_lt s s.latch.winA)

/-- R172: the remainder fits the n words of R. -/
theorem remainder_lt (s : State) :
    memRead s (argA s) (argN s) % memRead s (argB s) (argN s) < 2 ^ (32 * argN s) :=
  (Nat.mod_le _ _).trans_lt (value_lt s s.latch.winA)

section
variable {s : State} (hsize : argN s ≤ s.cfg.divNmax) (hA : fits s (argA s) (argN s)) (hB : fits s (argB s) (argN s))
  (hne : memRead s (argB s) (argN s) ≠ 0)
include hsize hA hB hne

/-- R171, R172: a division that stores one result over one window `w`, whatever that overlaps of A and B. -/
theorem exec_divide_store_spec {i : Instr} {w : Window} {f : Nat → Nat → Nat}
    (heq : exec i s = s.divide i fun l a v => l.store w (f a v))
    (hwin : windowsOf i s.latch = [s.latch.winA, s.latch.winB, w]) (hov : overlapAllowed i s.latch = true)
    (hw : fits s w.base w.len)
    (hlt : f (memRead s (argA s) (argN s)) (memRead s (argB s) (argN s)) < 2 ^ (32 * w.len)) :
    ∃ t, exec i s = .next t ∧
      memRead t w.base w.len = f (memRead s (argA s) (argN s)) (memRead s (argB s) (argN s)) ∧
      sameOutside s t w.base w.len ∧ t = { s with mem := t.mem, status := okStatus s, scratch := Scratch.empty } := by
  have hfit : ∀ u ∈ windowsOf i s.latch, fits s u.base u.len := by simpa [hwin] using ⟨hA, hB, hw⟩
  exact ⟨_, heq.trans (divide_by_nonzero _ hsize hfit hov hne), value_store_of_lt s.loadScratch w hlt,
    sameOutside_store s.loadScratch w _, rfl⟩

/-- R173, R188: DIVMOD stores the quotient over D and the remainder over R. -/
theorem exec_divmod_spec (hD : fits s (argD s) (argN s)) (hR : fits s (argR s) (argN s))
    (hap : apart (argD s) (argN s) (argR s) (argN s)) :
    ∃ t, exec .divmod s = .next t ∧
      memRead t (argD s) (argN s) = memRead s (argA s) (argN s) / memRead s (argB s) (argN s) ∧
      memRead t (argR s) (argN s) = memRead s (argA s) (argN s) % memRead s (argB s) (argN s) ∧
      (∀ c, ¬ (4 * argD s ≤ c ∧ c < 4 * (argD s + argN s)) → ¬ (4 * argR s ≤ c ∧ c < 4 * (argR s + argN s)) →
        t.mem.readByte c = s.mem.readByte c) ∧
      t = { s with mem := t.mem, status := okStatus s, scratch := Scratch.empty } := by
  have hfit : ∀ u ∈ windowsOf .divmod s.latch, fits s u.base u.len := by
    simpa [windowsOf] using ⟨hA, hB, hD, hR⟩
  have hdisj : s.latch.winD.disjoint s.latch.winR = true := (overlapAllowed_divmod_iff s).2 hap
  rw [exec, execDivmod, divide_by_nonzero _ hsize hfit hdisj hne]
  refine ⟨_, rfl, ?_, value_store_of_lt _ s.latch.winR (remainder_lt s), fun c hcD hcR => ?_, rfl⟩
  · exact (value_store_disjoint _ s.latch.winR s.latch.winD _ hdisj).trans
      (value_store_of_lt s.loadScratch s.latch.winD (quotient_lt s))
  · exact (sameOutside_store _ s.latch.winR _ c hcR).trans (sameOutside_store s.loadScratch s.latch.winD _ c hcD)

end

/-- Settles O38: one store of the quotient, one of the remainder, or both; both come from the values that stood in A
and B before the stores. -/
theorem divisionResults : Obligations.DivisionResults := by
  intro s hsize hA hB hne
  refine ⟨fun hD => ?_, fun hR => ?_, fun hD hR hap => ?_⟩
  · exact exec_divide_store_spec hsize hA hB hne (w := s.latch.winD) (f := (· / ·)) rfl rfl rfl hD (quotient_lt s)
  · exact exec_divide_store_spec hsize hA hB hne (w := s.latch.winR) (f := (· % ·)) rfl rfl rfl hR (remainder_lt s)
  · obtain ⟨t, hnext, hquot, hrem, hout, hframe⟩ := exec_divmod_spec hsize hA hB hne hD hR hap
    refine ⟨t, hnext, hquot, hrem, ?_, ?_, hout, hframe⟩
    · rw [hquot, hrem, Nat.div_add_mod']
    · rw [hrem]
      exact Nat.mod_lt _ (Nat.pos_of_ne_zero hne)

end Sys2Proof.Machine

/-! ### R12: words of a value, and values of parts of a list of words -/
namespace Sys2Proof.Machine

theorem pow_words_add (m n : Nat) : 2 ^ (32 * (m + n)) = 2 ^ (32 * m) * 2 ^ (32 * n) := by
  rw [Nat.mul_add, Nat.pow_add]

/-- R12: the words below word `j` are the residue of the value, the words from `j` up its quotient. -/
theorem valueOf_take_drop (a : List Word) {j : Nat} (hj : j ≤ a.length) :
    valueOf (a.take j) = valueOf a % 2 ^ (32 * j) ∧ valueOf (a.drop j) = valueOf a / 2 ^ (32 * j) := by
  have hl : (a.take j).length = j := List.length_take_of_le hj
  have hlt : valueOf (a.take j) < 2 ^ (32 * j) := by simpa only [hl] using valueOf_lt (a.take j)
  have hsplit : valueOf a = valueOf (a.take j) + 2 ^ (32 * j) * valueOf (a.drop j) := by
    conv_lhs => rw [← List.take_append_drop j a, valueOf_append, hl]
  rw [hsplit, Nat.add_mul_mod_self_left, Nat.add_mul_div_left _ _ (Nat.two_pow_pos _), Nat.mod_eq_of_lt hlt,
    Nat.div_eq_of_lt hlt, Nat.zero_add]
  exact ⟨rfl, rfl⟩

theorem valueOf_take (a : List Word) {j : Nat} (hj : j ≤ a.length) :
    valueOf (a.take j) = valueOf a % 2 ^ (32 * j) := (valueOf_take_drop a hj).1

theorem valueOf_drop (a : List Word) {j : Nat} (hj : j ≤ a.length) :
    valueOf (a.drop j) = valueOf a / 2 ^ (32 * j) := (valueOf_take_drop a hj).2

/-- R12: word `j` of a list of words, as a digit of its value; above the words both are 0. -/
theorem getD_toNat (a : List Word) (j : Nat) : (a.getD j 0).toNat = valueOf a / 2 ^ (32 * j) % 2 ^ 32 := by
  refine Nat.eq_of_testBit_eq fun k => ?_
  rw [Nat.testBit_mod_two_pow, Nat.testBit_div_two_pow, Nat.add_comm k]
  rcases Nat.lt_or_ge k 32 with hk | hk
  · rw [decide_eq_true hk, Bool.true_and]
    exact getLsbD_getD a j hk
  · rw [decide_eq_false (Nat.not_lt.2 hk), Bool.false_and]
    exact BitVec.getLsbD_of_ge _ _ hk

/-- R12: the top one of the words that a value needs is not cut. -/
theorem getD_toNat_top (a : List Word) {k : Nat} (h : valueOf a < 2 ^ (32 * (k + 1))) :
    (a.getD k 0).toNat = valueOf a / 2 ^ (32 * k) := by
  rw [getD_toNat, Nat.mod_eq_of_lt (Nat.div_lt_of_lt_mul (h.trans_eq (pow_words_add k 1)))]

theorem valueOf_wordsOf_of_lt {n v : Nat} (h : v < 2 ^ (32 * n)) : valueOf (wordsOf n v) = v := by
  rw [valueOf_wordsOf, Nat.mod_eq_of_lt h]

/-- R12: the most-significant of n + 1 words stands last. -/
theorem wordsOf_succ_eq_append (n v : Nat) :
    wordsOf (n + 1) v = wordsOf n v ++ [BitVec.ofNat 32 (v / 2 ^ (32 * n))] := by
  simp only [wordsOf_eq_map_range, List.range_succ, List.map_append, List.map_singleton]

theorem wordsOf_mod (n v : Nat) : wordsOf n (v % 2 ^ (32 * n)) = wordsOf n v := wordsOf_mod_add n v 0

/-- R184: words above those that a value needs are 0. -/
theorem wordsOf_append_zeros {n v : Nat} (m : Nat) (h : v < 2 ^ (32 * n)) :
    wordsOf n v ++ List.replicate m 0 = wordsOf (n + m) v := by
  have hle : v < 2 ^ (32 * (n + m)) := h.trans_le (Nat.pow_le_pow_right (by decide) (by omega))
  refine eq_of_valueOf_eq (by simp) ?_
  rw [valueOf_append, valueOf_zeros, valueOf_wordsOf_of_lt h, valueOf_wordsOf_of_lt hle, Nat.mul_zero, Nat.add_zero]

end Sys2Proof.Machine

/-! ### R177, R178: division by one word -/
namespace Sys2Proof.Machine

/-- R177: each word gives one digit of the quotient, which fits a word because the running remainder is below the
divisor. -/
theorem divideSingle_spec {d : Word} (hd : d ≠ 0) (a : List Word) :
    (divideSingle d a).1 = wordsOf a.length (valueOf a / d.toNat) ∧ (divideSingle d a).2 = valueOf a % d.toNat := by
  have hpos : 0 < d.toNat := Nat.pos_of_ne_zero fun h => hd (BitVec.eq_of_toNat_eq h)
  induction a with
  | nil => simp [divideSingle, valueOf, wordsOf]
  | cons x xs ih =>
    obtain ⟨hquot, hrem⟩ := ih
    have hnum : valueOf (x :: xs) =
        valueOf xs % d.toNat * 2 ^ 32 + x.toNat + d.toNat * (2 ^ 32 * (valueOf xs / d.toNat)) := by
      rw [valueOf]
      linear_combination 2 ^ 32 * (Nat.mod_add_div (valueOf xs) d.toNat).symm
    have hdigit : (valueOf xs % d.toNat * 2 ^ 32 + x.toNat) / d.toNat < 2 ^ 32 := by
      have hmod := Nat.mod_lt (valueOf xs) hpos
      have hx := x.isLt
      refine Nat.div_lt_of_lt_mul ?_
      nlinarith
    simp only [divideSingle, hquot, hrem, hnum, List.length_cons]
    rw [Nat.add_mul_div_left _ _ hpos, Nat.add_mul_mod_self_left, wordsOf_succ_add_mul, Nat.div_eq_of_lt hdigit,
      Nat.add_zero]
    exact ⟨rfl, rfl⟩

/-- Settles O41: by induction on the words, from the most-significant one. -/
theorem singleWordDivision : Obligations.SingleWordDivision := fun _ a hd => divideSingle_spec hd a

end Sys2Proof.Machine

/-! ### R180, R181: the trial digit -/
namespace Sys2Proof.Machine

/-- R181: the correction test compares the trial digit's product with the divisor's top two words against the window's
top three words. -/
theorem correction_test_iff {y z qhat rhat : Nat} (h : qhat * (z / 2 ^ 32) + rhat = y / 2 ^ 32) :
    rhat * 2 ^ 32 + y % 2 ^ 32 < qhat * (z % 2 ^ 32) ↔ y < qhat * z := by
  have hy : y = (qhat * (z / 2 ^ 32) + rhat) * 2 ^ 32 + y % 2 ^ 32 := by omega
  have hz : qhat * z = qhat * (z / 2 ^ 32) * 2 ^ 32 + qhat * (z % 2 ^ 32) := by
    conv_lhs => rw [← Nat.div_add_mod z (2 ^ 32)]
    ring
  omega

/-- What R180 and R181 need of a window and a divisor, with `y` the window's top three words, `z` the divisor's top
two, the highest bit of which is 1, and `q` the true digit. -/
structure TrialWindow (y z q : Nat) : Prop where
  normalized : 2 ^ 63 ≤ z
  window_lt : y < 2 ^ 32 * (z + 1)
  digit_lt : q < 2 ^ 32
  mul_le : q * z ≤ y
  lt_mul : y < (q + 1) * (z + 1)

namespace TrialWindow

variable {y z q : Nat} (h : TrialWindow y z q)
include h

/-- R181: a digit that passes the test is too large by at most one. -/
theorem le_of_passes {Q : Nat} (hQ : Q * z ≤ y) : Q ≤ q + 1 := by
  obtain ⟨hz, -, hq, -, hy⟩ := h
  have hlt : Q * z < (q + 2) * z := by nlinarith
  exact Nat.le_of_lt_succ (Nat.lt_of_mul_lt_mul_right hlt)

/-- R181: once the remainder reaches the base, the digit fits a word and passes the test. -/
theorem passes_of_large_remainder {Q rhat : Nat} (hQ : Q * (z / 2 ^ 32) + rhat = y / 2 ^ 32) (hr : 2 ^ 32 ≤ rhat) :
    Q < 2 ^ 32 ∧ Q * z ≤ y := by
  have hlt : Q < 2 ^ 32 := by
    have hz := h.normalized
    have hy := h.window_lt
    by_contra hge
    have hmul : 2 ^ 32 * (z / 2 ^ 32) ≤ Q * (z / 2 ^ 32) := Nat.mul_le_mul_right _ (Nat.not_lt.1 hge)
    omega
  refine ⟨hlt, Nat.not_lt.1 ((correction_test_iff hQ).not.1 (Nat.not_lt.2 ?_))⟩
  calc Q * (z % 2 ^ 32) ≤ 2 ^ 32 * 2 ^ 32 := Nat.mul_le_mul (Nat.le_of_lt hlt) (Nat.le_of_lt (Nat.mod_lt _ (by decide)))
    _ ≤ rhat * 2 ^ 32 := Nat.mul_le_mul_right _ hr
    _ ≤ rhat * 2 ^ 32 + y % 2 ^ 32 := Nat.le_add_right _ _

/-- R181: a digit that fails the test, or fills more than a word, is too large. -/
theorem lt_of_fails {qhat rhat : Nat} (hinv : qhat * (z / 2 ^ 32) + rhat = y / 2 ^ 32)
    (hfail : 2 ^ 32 ≤ qhat ∨ rhat * 2 ^ 32 + y % 2 ^ 32 < qhat * (z % 2 ^ 32)) : q < qhat := by
  rcases hfail with hlarge | htest
  · exact h.digit_lt.trans_le hlarge
  · rw [correction_test_iff hinv] at htest
    exact Nat.lt_of_mul_lt_mul_right (h.mul_le.trans_lt htest)

/-- R181: from a trial digit at most `k` too large, at most `k` decrements leave one that fits a word and is at most one
too large. -/
theorem correctTrial_bounds (k : Nat) {qhat rhat : Nat} (hinv : qhat * (z / 2 ^ 32) + rhat = y / 2 ^ 32)
    (hle : q ≤ qhat) (hge : qhat ≤ q + k) :
    correctTrial (z / 2 ^ 32) (z % 2 ^ 32) (y % 2 ^ 32) k qhat rhat < 2 ^ 32 ∧
    q ≤ correctTrial (z / 2 ^ 32) (z % 2 ^ 32) (y % 2 ^ 32) k qhat rhat ∧
    correctTrial (z / 2 ^ 32) (z % 2 ^ 32) (y % 2 ^ 32) k qhat rhat ≤ q + 1 := by
  induction k generalizing qhat rhat with
  | zero =>
    have hq := h.digit_lt
    rw [correctTrial]
    omega
  | succ k ih =>
    rw [correctTrial]
    split
    · next hfail =>
      have hlt := h.lt_of_fails hinv hfail
      have hinv' : (qhat - 1) * (z / 2 ^ 32) + (rhat + z / 2 ^ 32) = y / 2 ^ 32 := by
        obtain ⟨p, rfl⟩ := Nat.exists_eq_add_of_lt hlt
        rw [← hinv, Nat.add_sub_cancel]
        ring
      split
      · next hr =>
        obtain ⟨hword, hpass⟩ := h.passes_of_large_remainder hinv' hr
        exact ⟨hword, Nat.le_sub_one_of_lt hlt, h.le_of_passes hpass⟩
      · exact ih hinv' (Nat.le_sub_one_of_lt hlt) (by omega)
    · next hpass =>
      rw [not_or, correction_test_iff hinv, Nat.not_lt, Nat.not_le] at hpass
      exact ⟨hpass.1, hle, h.le_of_passes hpass.2⟩

/-- R180: the quotient of the top two words by the divisor's top word is an upper bound, at most 2 too large (Knuth's
Theorem B). -/
theorem trial_bounds : q ≤ y / 2 ^ 32 / (z / 2 ^ 32) ∧ y / 2 ^ 32 / (z / 2 ^ 32) ≤ q + 2 := by
  obtain ⟨hz, -, hq, hle, hlt⟩ := h
  have htop : 2 ^ 31 ≤ z / 2 ^ 32 := by omega
  have hpos : 0 < z / 2 ^ 32 := by omega
  constructor
  · rw [Nat.le_div_iff_mul_le hpos, Nat.le_div_iff_mul_le (by decide), Nat.mul_assoc]
    exact (Nat.mul_le_mul_left q (Nat.div_mul_le_self z _)).trans hle
  · have hnum : y / 2 ^ 32 < (q + 1) * (z / 2 ^ 32 + 1) := by
      rw [Nat.div_lt_iff_lt_mul (by decide), Nat.mul_assoc]
      exact hlt.trans_le (Nat.mul_le_mul_left _ (by omega))
    refine Nat.le_of_lt_succ ((Nat.div_lt_iff_lt_mul hpos).2 ?_)
    nlinarith

end TrialWindow

/-- R180: the three words of the window, and the two of the divisor, that the trial digit looks at. -/
theorem trialDigit_eq_correctTrial {vn un : List Word} {m j : Nat} (hvn : valueOf vn < 2 ^ (32 * (m + 2)))
    (hun : valueOf un / 2 ^ (32 * j) < 2 ^ (32 * (m + 3))) {y z : Nat}
    (hy : y = valueOf un / 2 ^ (32 * j) / 2 ^ (32 * m)) (hz : z = valueOf vn / 2 ^ (32 * m)) :
    trialDigit vn un (m + 2) j =
      correctTrial (z / 2 ^ 32) (z % 2 ^ 32) (y % 2 ^ 32) 2
        (y / 2 ^ 32 / (z / 2 ^ 32)) (y / 2 ^ 32 % (z / 2 ^ 32)) := by
  have hdigit (v i : Nat) : v / 2 ^ (32 * (i + 1)) = v / 2 ^ (32 * i) / 2 ^ 32 := by
    rw [Nat.div_div_eq_div_mul, ← Nat.pow_add, Nat.mul_succ]
  have hy' : y = valueOf un / 2 ^ (32 * (j + m)) := by rw [hy, Nat.div_div_eq_div_mul, pow_words_add]
  have hzlt : z < 2 ^ 64 := by
    rw [hz]
    refine Nat.div_lt_of_lt_mul (hvn.trans_eq ?_)
    rw [pow_words_add]
  have hylt : y < 2 ^ 96 := by
    rw [hy]
    refine Nat.div_lt_of_lt_mul (hun.trans_eq ?_)
    rw [pow_words_add]
  have hv1 : (vn.getD (m + 1) 0).toNat = z / 2 ^ 32 := by
    rw [getD_toNat, hdigit, ← hz]
    omega
  have hv2 : (vn.getD m 0).toNat = z % 2 ^ 32 := by rw [getD_toNat, ← hz]
  have hu2 : (un.getD (j + m) 0).toNat = y % 2 ^ 32 := by rw [getD_toNat, ← hy']
  have hnum : (un.getD (j + m + 2) 0).toNat * 2 ^ 32 + (un.getD (j + m + 1) 0).toNat = y / 2 ^ 32 := by
    rw [getD_toNat, getD_toNat, hdigit, hdigit, ← hy']
    omega
  simp only [trialDigit, ← Nat.add_assoc, Nat.add_sub_cancel, Nat.add_succ_sub_one, hv1, hv2, hu2, hnum]

theorem pos_of_normalized {t V : Nat} (hnorm : 2 ^ (32 * t) ≤ 2 * V) : 0 < V :=
  Nat.pos_of_mul_pos_left ((Nat.two_pow_pos _).trans_le hnorm)

/-- R179, R180: a window below `b` times a normalized divisor, of m + 2 words, is one for a trial digit. -/
theorem trialWindow_of_normalized {H V m : Nat} (hnorm : 2 ^ (32 * (m + 2)) ≤ 2 * V) (hH : H < 2 ^ 32 * V) :
    TrialWindow (H / 2 ^ (32 * m)) (V / 2 ^ (32 * m)) (H / V) := by
  have hP : 0 < 2 ^ (32 * m) := Nat.two_pow_pos _
  have hpow : 2 ^ (32 * (m + 2)) = 2 ^ 64 * 2 ^ (32 * m) := by rw [pow_words_add, Nat.mul_comm]
  have hV := pos_of_normalized hnorm
  have hlow : V / 2 ^ (32 * m) * 2 ^ (32 * m) ≤ V := Nat.div_mul_le_self _ _
  have hhigh : V < 2 ^ (32 * m) * (V / 2 ^ (32 * m) + 1) := Nat.lt_mul_div_succ V hP
  generalize V / 2 ^ (32 * m) = z at hlow hhigh ⊢
  constructor
  · by_contra hz
    have hmul : 2 ^ (32 * m) * (z + 1) ≤ 2 ^ (32 * m) * 2 ^ 63 := Nat.mul_le_mul_left _ (by omega)
    omega
  · refine Nat.div_lt_of_lt_mul ?_
    nlinarith
  · exact Nat.div_lt_of_lt_mul (hH.trans_eq (Nat.mul_comm _ _))
  · rw [Nat.le_div_iff_mul_le hP, Nat.mul_assoc]
    exact (Nat.mul_le_mul_left _ hlow).trans (Nat.div_mul_le_self H V)
  · refine Nat.div_lt_of_lt_mul ?_
    calc H < V * (H / V + 1) := Nat.lt_mul_div_succ H hV
      _ ≤ 2 ^ (32 * m) * (z + 1) * (H / V + 1) := Nat.mul_le_mul_right _ (Nat.le_of_lt hhigh)
      _ = 2 ^ (32 * m) * ((H / V + 1) * (z + 1)) := by ring

/-- R180, R181: the trial digit after the correction test fits a word, and is at most one too large. -/
theorem trialDigit_bounds {vn un : List Word} {t j : Nat} (hlen : vn.length = t) (ht : 2 ≤ t)
    (hnorm : 2 ^ (32 * t) ≤ 2 * valueOf vn) (hun : valueOf un / 2 ^ (32 * j) < 2 ^ 32 * valueOf vn) :
    trialDigit vn un t j < 2 ^ 32 ∧ valueOf un / 2 ^ (32 * j) / valueOf vn ≤ trialDigit vn un t j ∧
      trialDigit vn un t j ≤ valueOf un / 2 ^ (32 * j) / valueOf vn + 1 := by
  obtain ⟨m, rfl⟩ := Nat.exists_eq_add_of_le' ht
  have hvn : valueOf vn < 2 ^ (32 * (m + 2)) := hlen ▸ valueOf_lt vn
  have hH : valueOf un / 2 ^ (32 * j) < 2 ^ (32 * (m + 3)) := by
    rw [show m + 3 = m + 2 + 1 from rfl, pow_words_succ]
    omega
  have hwin := trialWindow_of_normalized hnorm hun
  obtain ⟨hle, hge⟩ := hwin.trial_bounds
  rw [trialDigit_eq_correctTrial hvn hH rfl rfl]
  exact hwin.correctTrial_bounds 2 (Nat.div_add_mod' _ _) hle hge

/-! ### R182, R183: multiply and subtract, and add back -/

theorem mulSub_length (q : Word) (vs us : List Word) (c b : Word) : (mulSub q vs us c b).1.length = us.length := by
  induction us generalizing vs c b with
  | nil => cases vs <;> rfl
  | cons u us ih => cases vs with
    | nil => rfl
    | cons v vs => simp [mulSub, ih]

theorem mulSub_borrow_le (q : Word) (vs us : List Word) (c : Word) {b : Word} (hb : b.toNat ≤ 1) :
    (mulSub q vs us c b).2.toNat ≤ 1 := by
  induction us generalizing vs c b with
  | nil => cases vs <;> exact hb
  | cons u us ih => cases vs with
    | nil => exact borrowSub_snd_le _ _ _
    | cons v vs => exact ih _ _ (borrowSub_snd_le _ _ _)

/-- R182: the words left, and the product taken off, make up the window and the borrow out. -/
theorem mulSub_value (q : Word) {vs us : List Word} (c : Word) {b : Word} (hb : b.toNat ≤ 1)
    (h : vs.length < us.length) :
    (valueOf (mulSub q vs us c b).1 : Int) + valueOf vs * q.toNat + c.toNat + b.toNat =
      valueOf us + (mulSub q vs us c b).2.toNat * 2 ^ (32 * (vs.length + 1)) := by
  induction us generalizing vs c b with
  | nil => simp at h
  | cons u us ih => cases vs with
    | nil =>
      have hword := borrowSub_value u c b hb
      simp only [mulSub, valueOf, List.length_nil]
      push_cast
      linear_combination hword
    | cons v vs =>
      have hprod : ((carryMul v q c).1.toNat : Int) + 2 ^ 32 * (carryMul v q c).2.toNat = v.toNat * q.toNat + c.toNat :=
        mod_cast carryMul_value v q c
      have hword := borrowSub_value u (carryMul v q c).1 b hb
      have hrest := ih (carryMul v q c).2 (borrowSub_snd_le u (carryMul v q c).1 b) (Nat.lt_of_succ_lt_succ h)
      simp only [mulSub, valueOf, List.length_cons, pow_words_succ (vs.length + 1)]
      push_cast
      linear_combination hword + 2 ^ 32 * hrest - hprod

/-- A value that one word more than `n` holds, from its lowest word and the words above. -/
theorem valueOf_cons_lt_iff (w : Word) (ws : List Word) (n : Nat) :
    valueOf (w :: ws) < 2 ^ (32 * (n + 1)) ↔ valueOf ws < 2 ^ (32 * n) := by
  have hw := w.isLt
  rw [valueOf, pow_words_succ]
  omega

/-- R182: the words above the window's t + 1 stay 0. -/
theorem mulSub_lt (q : Word) {vs us : List Word} (c b : Word) (hlt : valueOf us < 2 ^ (32 * (vs.length + 1))) :
    valueOf (mulSub q vs us c b).1 < 2 ^ (32 * (vs.length + 1)) := by
  induction us generalizing vs c b with
  | nil => cases vs <;> exact hlt
  | cons u us ih => cases vs with
    | nil => exact (valueOf_cons_lt_iff _ us 0).2 ((valueOf_cons_lt_iff u us 0).1 hlt)
    | cons v vs => exact (valueOf_cons_lt_iff _ _ _).2 (ih _ _ ((valueOf_cons_lt_iff u us _).1 hlt))

theorem addBack_length (vs us : List Word) (c : Word) : (addBack vs us c).length = us.length := by
  induction us generalizing vs c with
  | nil => cases vs <;> rfl
  | cons u us ih => cases vs with
    | nil => rfl
    | cons v vs => simp [addBack, ih]

/-- R183: the window plus the divisor, without the carry out of the window's top word. -/
theorem valueOf_addBack {vs us : List Word} (c : Word) (h : vs.length < us.length)
    (hlt : valueOf us < 2 ^ (32 * (vs.length + 1))) :
    valueOf (addBack vs us c) = (valueOf us + valueOf vs + c.toNat) % 2 ^ (32 * (vs.length + 1)) := by
  induction us generalizing vs c with
  | nil => simp at h
  | cons u us ih => cases vs with
    | nil =>
      have hzero : valueOf us = 0 := by simpa using (valueOf_cons_lt_iff u us 0).1 hlt
      simp [addBack, valueOf, hzero]
    | cons v vs =>
      have hsum : valueOf (u :: us) + valueOf (v :: vs) + c.toNat =
          u.toNat + v.toNat + c.toNat + 2 ^ 32 * (valueOf us + valueOf vs) := by
        rw [valueOf, valueOf]
        ring
      rw [addBack, valueOf, ih _ (Nat.lt_of_succ_lt_succ h) ((valueOf_cons_lt_iff u us _).1 hlt), hsum,
        List.length_cons, pow_words_succ (vs.length + 1), Nat.mod_mul, Nat.add_mul_mod_self_left,
        Nat.add_mul_div_left _ _ (by decide), carrySum_fst_toNat, carrySum_snd_toNat,
        Nat.add_comm (valueOf us + valueOf vs)]

/-- R182: without a borrow out the trial digit is the true one, and the subtraction leaves the remainder. -/
theorem digit_of_no_borrow {V H q r : Nat} (hle : H / V ≤ q) (hV : 0 < V) (hsub : r + V * q = H) :
    q = H / V ∧ r = H % V := by
  have hge : q ≤ H / V := (Nat.le_div_iff_mul_le hV).2 (by rw [Nat.mul_comm]; omega)
  obtain rfl := Nat.le_antisymm hge hle
  have hH := Nat.div_add_mod H V
  exact ⟨rfl, by omega⟩

/-- R183: a borrow out says that the trial digit is one too large; adding the divisor back leaves the remainder, up to
the wrap `B` of the window. -/
theorem digit_of_borrow {V H q r B : Nat} (hge : q ≤ H / V + 1) (hr : r < B) (hV : 0 < V) (hVB : V ≤ B)
    (hsub : r + V * q = H + B) : q = H / V + 1 ∧ (r + V) % B = H % V := by
  have hlt : H / V < q := (Nat.div_lt_iff_lt_mul hV).2 (by rw [Nat.mul_comm]; omega)
  obtain rfl : q = H / V + 1 := by omega
  have hH := Nat.div_add_mod H V
  have hmod := (Nat.mod_lt H hV).trans_le hVB
  have hback : r + V = H % V + B := by
    rw [Nat.mul_succ] at hsub
    omega
  rw [hback, Nat.add_mod_right, Nat.mod_eq_of_lt hmod]
  exact ⟨rfl, rfl⟩

theorem toNat_sub_one {q : Word} {d : Nat} (h : q.toNat = d + 1) : (q - 1).toNat = d := by bv_omega

/-- R182, R183: for a trial digit at most one too large, the borrow out tells which of the two it is, and the window
comes to hold the remainder. -/
theorem mulSub_addBack_spec {q : Word} {vn ws : List Word} (hlen : vn.length < ws.length) (hV : 0 < valueOf vn)
    (hws : valueOf ws < 2 ^ 32 * valueOf vn) (hle : valueOf ws / valueOf vn ≤ q.toNat)
    (hge : q.toNat ≤ valueOf ws / valueOf vn + 1) :
    ((mulSub q vn ws 0 0).2 = 0 →
      q.toNat = valueOf ws / valueOf vn ∧ valueOf (mulSub q vn ws 0 0).1 = valueOf ws % valueOf vn) ∧
    ((mulSub q vn ws 0 0).2 ≠ 0 →
      (q - 1).toNat = valueOf ws / valueOf vn ∧
        valueOf (addBack vn (mulSub q vn ws 0 0).1 0) = valueOf ws % valueOf vn) := by
  have hVlt := valueOf_lt vn
  have hB : 2 ^ (32 * (vn.length + 1)) = 2 ^ 32 * 2 ^ (32 * vn.length) := pow_words_succ _
  have hwlt : valueOf ws < 2 ^ (32 * (vn.length + 1)) := by omega
  have hrlt := mulSub_lt q 0 0 hwlt
  have hbo := mulSub_borrow_le q vn ws 0 (b := 0) (by decide)
  have hsub : valueOf (mulSub q vn ws 0 0).1 + valueOf vn * q.toNat =
      valueOf ws + (mulSub q vn ws 0 0).2.toNat * 2 ^ (32 * (vn.length + 1)) := by
    have h := mulSub_value q 0 (b := 0) (by decide) hlen
    simp only [show (0 : Word).toNat = 0 from rfl, Nat.cast_zero, add_zero] at h
    exact_mod_cast h
  refine ⟨fun hzero => ?_, fun hne => ?_⟩
  · rw [hzero, show (0 : Word).toNat = 0 from rfl, Nat.zero_mul, Nat.add_zero] at hsub
    exact digit_of_no_borrow hle hV hsub
  · have hone : (mulSub q vn ws 0 0).2.toNat = 1 := by
      have : (mulSub q vn ws 0 0).2.toNat ≠ 0 := fun h => hne (BitVec.eq_of_toNat_eq h)
      omega
    rw [hone, Nat.one_mul] at hsub
    obtain ⟨hq, hrem⟩ := digit_of_borrow hge hrlt hV (by omega) hsub
    rw [valueOf_addBack 0 (by rwa [mulSub_length]) hrlt]
    exact ⟨toNat_sub_one hq, hrem⟩

section
variable {vn : List Word} {t : Nat} (hlen : vn.length = t) (ht : 2 ≤ t) (hnorm : 2 ^ (32 * t) ≤ 2 * valueOf vn)
include hlen ht hnorm

/-- R180 to R183: one digit is the quotient of the window by the divisor, and the window keeps the remainder. -/
theorem divideDigit_spec {un : List Word} {j : Nat} (hj : j + t < un.length)
    (hun : valueOf un / 2 ^ (32 * j) < 2 ^ 32 * valueOf vn) :
    (divideDigit vn un t j).1.toNat = valueOf un / 2 ^ (32 * j) / valueOf vn ∧
    (divideDigit vn un t j).2.length = un.length ∧
    valueOf (divideDigit vn un t j).2 = valueOf un % (2 ^ (32 * j) * valueOf vn) := by
  have hjlen : j ≤ un.length := by omega
  have hdrop := valueOf_drop un hjlen
  have hwl : (un.drop j).length = un.length - j := List.length_drop
  have hV := pos_of_normalized hnorm
  obtain ⟨hq, hle, hge⟩ := trialDigit_bounds hlen ht hnorm hun
  have hqw : (BitVec.ofNat 32 (trialDigit vn un t j)).toNat = trialDigit vn un t j := by
    rw [BitVec.toNat_ofNat, Nat.mod_eq_of_lt hq]
  rw [← hdrop] at hun hle hge
  obtain ⟨hexact, hback⟩ := mulSub_addBack_spec (by omega) hV hun (hle.trans_eq hqw.symm) (hqw.trans_le hge)
  have hwhole {ws : List Word} (hl : ws.length = (un.drop j).length)
      (hv : valueOf ws = valueOf (un.drop j) % valueOf vn) :
      (un.take j ++ ws).length = un.length ∧
        valueOf (un.take j ++ ws) = valueOf un % (2 ^ (32 * j) * valueOf vn) := by
    have htl : (un.take j).length = j := List.length_take_of_le hjlen
    rw [List.length_append, valueOf_append, htl, valueOf_take un hjlen, hv, hdrop, Nat.mod_mul]
    exact ⟨by omega, rfl⟩
  rw [divideDigit, ← hdrop]
  split
  · next hzero =>
    obtain ⟨hdigit, hrem⟩ := hexact hzero
    exact ⟨hdigit, hwhole (mulSub_length _ _ _ _ _) hrem⟩
  · next hne =>
    obtain ⟨hdigit, hrem⟩ := hback hne
    exact ⟨hdigit, hwhole ((addBack_length _ _ _).trans (mulSub_length _ _ _ _ _)) hrem⟩

/-- R180, R184: the `k` digits of a dividend below `b^k` times the divisor are the quotient's words, and the dividend
comes to hold the remainder. -/
theorem divideDigits_spec {k : Nat} {un : List Word} (hk : t + k ≤ un.length)
    (hun : valueOf un < 2 ^ (32 * k) * valueOf vn) :
    (divideDigits vn t k un).1 = wordsOf k (valueOf un / valueOf vn) ∧
    (divideDigits vn t k un).2.length = un.length ∧
    valueOf (divideDigits vn t k un).2 = valueOf un % valueOf vn := by
  induction k generalizing un with
  | zero =>
    rw [Nat.mul_zero, Nat.pow_zero, Nat.one_mul] at hun
    exact ⟨rfl, rfl, (Nat.mod_eq_of_lt hun).symm⟩
  | succ k ih =>
    have hwindow : valueOf un / 2 ^ (32 * k) < 2 ^ 32 * valueOf vn := by
      refine Nat.div_lt_of_lt_mul (hun.trans_eq ?_)
      rw [pow_words_succ]
      ring
    obtain ⟨hdigit, hl, hv⟩ := divideDigit_spec hlen ht hnorm (j := k) (by omega) hwindow
    have hV := pos_of_normalized hnorm
    obtain ⟨hquot, hl', hrem⟩ := ih (un := (divideDigit vn un t k).2) (by omega)
      (hv ▸ Nat.mod_lt _ (Nat.mul_pos (Nat.two_pow_pos _) hV))
    have hword : (divideDigit vn un t k).1 = BitVec.ofNat 32 (valueOf un / valueOf vn / 2 ^ (32 * k)) := by
      rw [Nat.div_div_eq_div_mul, Nat.mul_comm, ← Nat.div_div_eq_div_mul, ← hdigit, BitVec.ofNat_toNat,
        BitVec.setWidth_eq]
    rw [divideDigits, hquot, hword, hv, Nat.mod_mul_left_div_self, wordsOf_mod, ← wordsOf_succ_eq_append]
    exact ⟨rfl, hl'.trans hl, by rw [hrem, hv, Nat.mod_mul_left_mod]⟩

end

/-! ### R176, R179: trim and normalization -/

/-- R176: the effective length bounds the value from both sides. -/
theorem trimFrom_spec (v : List Word) {k : Nat} (hk : valueOf v < 2 ^ (32 * k)) :
    valueOf v < 2 ^ (32 * trimFrom v k) ∧ (trimFrom v k ≠ 0 → 2 ^ (32 * (trimFrom v k - 1)) ≤ valueOf v) := by
  induction k with
  | zero => exact ⟨hk, fun h => absurd rfl h⟩
  | succ k ih =>
    have hdigit := getD_toNat_top v hk
    rw [trimFrom]
    split
    · next hzero =>
      rw [hzero, show (0 : Word).toNat = 0 from rfl, eq_comm, Nat.div_eq_zero_iff] at hdigit
      exact ih (hdigit.resolve_left (Nat.two_pow_pos _).ne')
    · next hne =>
      refine ⟨hk, fun _ => ?_⟩
      by_contra hlt
      rw [Nat.add_sub_cancel] at hlt
      rw [Nat.div_eq_of_lt (Nat.not_le.1 hlt)] at hdigit
      exact hne (BitVec.eq_of_toNat_eq hdigit)

theorem trimFrom_le (v : List Word) (k : Nat) : trimFrom v k ≤ k := by
  induction k with
  | zero => exact Nat.le_refl 0
  | succ k ih =>
    rw [trimFrom]
    split <;> omega

theorem valueOf_lt_trim (v : List Word) : valueOf v < 2 ^ (32 * trim v) := (trimFrom_spec v (valueOf_lt v)).1

theorem le_valueOf_of_trim {v : List Word} (h : trim v ≠ 0) : 2 ^ (32 * (trim v - 1)) ≤ valueOf v :=
  (trimFrom_spec v (valueOf_lt v)).2 h

/-- R176: only the value 0 is trimmed to no word. -/
theorem trim_eq_zero_iff (v : List Word) : trim v = 0 ↔ valueOf v = 0 := by
  have hlt := valueOf_lt_trim v
  constructor
  · intro h
    rw [h, Nat.mul_zero, Nat.pow_zero] at hlt
    omega
  · intro h
    by_contra hne
    have := le_valueOf_of_trim hne
    have := Nat.two_pow_pos (32 * (trim v - 1))
    omega

/-- R179: the normalization shift loses no bit of the divisor and brings its top bit to 1. -/
theorem normShift_spec {v : List Word} {m : Nat} (hlt : valueOf v < 2 ^ (32 * (m + 1)))
    (hge : 2 ^ (32 * m) ≤ valueOf v) :
    valueOf v * 2 ^ normShift v (m + 1) < 2 ^ (32 * (m + 1)) ∧
    2 ^ (32 * (m + 1)) ≤ 2 * (valueOf v * 2 ^ normShift v (m + 1)) := by
  have hP := Nat.two_pow_pos (32 * m)
  have htop := getD_toNat_top v hlt
  have hne : v.getD m 0 ≠ 0 := by
    intro h
    rw [h, show (0 : Word).toNat = 0 from rfl] at htop
    exact absurd htop.symm (Nat.div_pos hge hP).ne'
  obtain ⟨hlow, hhigh⟩ := toNat_bounds_of_msb hne
  have hmsb := msb_lt hne
  rw [htop, Nat.le_div_iff_mul_le hP] at hlow
  rw [htop, Nat.div_lt_iff_lt_mul hP] at hhigh
  rw [normShift, Nat.add_sub_cancel, pow_words_succ]
  generalize (msb (v.getD m 0)).toNat = k at *
  have hpow : (2 : Nat) ^ 32 = 2 ^ (k + 1) * 2 ^ (31 - k) := by rw [← Nat.pow_add]; congr 1; omega
  constructor
  · calc valueOf v * 2 ^ (31 - k) < 2 ^ (k + 1) * 2 ^ (32 * m) * 2 ^ (31 - k) :=
          Nat.mul_lt_mul_of_pos_right hhigh (Nat.two_pow_pos _)
      _ = 2 ^ 32 * 2 ^ (32 * m) := by rw [hpow]; ring
  · calc 2 ^ 32 * 2 ^ (32 * m) = 2 * (2 ^ k * 2 ^ (32 * m) * 2 ^ (31 - k)) := by rw [hpow]; ring
      _ ≤ 2 * (valueOf v * 2 ^ (31 - k)) := Nat.mul_le_mul_left _ (Nat.mul_le_mul_right _ hlow)

/-! ### R176 to R185: long division -/

/-- R179 to R185: the digit loop on dividend and divisor shifted by the same `s` bits: the digits are those of the
unshifted quotient, and the remainder is left shifted by `s`. -/
theorem divideDigits_shifted {A V n t k s : Nat} (ht : 2 ≤ t) (hk : t + k = n + 1) (hs : s < 32) (hA : A < 2 ^ (32 * n))
    (hfit : V * 2 ^ s < 2 ^ (32 * t)) (hnorm : 2 ^ (32 * t) ≤ 2 * (V * 2 ^ s)) (hquot : A < 2 ^ (32 * k) * V) :
    (divideDigits (wordsOf t (V * 2 ^ s)) t k (wordsOf (n + 1) (A * 2 ^ s))).1 = wordsOf k (A / V) ∧
    valueOf ((divideDigits (wordsOf t (V * 2 ^ s)) t k (wordsOf (n + 1) (A * 2 ^ s))).2.take t) = A % V * 2 ^ s := by
  have hpos : 0 < 2 ^ s := Nat.two_pow_pos s
  have hV : 0 < V := Nat.pos_of_mul_pos_right (pos_of_normalized hnorm)
  have hvn : valueOf (wordsOf t (V * 2 ^ s)) = V * 2 ^ s := valueOf_wordsOf_of_lt hfit
  have hun : valueOf (wordsOf (n + 1) (A * 2 ^ s)) = A * 2 ^ s := by
    refine valueOf_wordsOf_of_lt ?_
    rw [pow_words_succ, Nat.mul_comm]
    exact Nat.mul_lt_mul'' (Nat.pow_lt_pow_right (by decide) hs) hA
  have hlt : A * 2 ^ s < 2 ^ (32 * k) * (V * 2 ^ s) := by
    rw [← Nat.mul_assoc]
    exact Nat.mul_lt_mul_of_pos_right hquot hpos
  obtain ⟨hdigits, hl, hrem⟩ := divideDigits_spec (wordsOf_length t _) ht (hvn.symm ▸ hnorm) (k := k)
    (un := wordsOf (n + 1) (A * 2 ^ s)) (by rw [wordsOf_length, hk]) (by rwa [hun, hvn])
  rw [hun, hvn] at hdigits hrem
  rw [wordsOf_length] at hl
  have hremlt : A % V * 2 ^ s < 2 ^ (32 * t) := (Nat.mul_lt_mul_of_pos_right (Nat.mod_lt A hV) hpos).trans hfit
  rw [hdigits, Nat.mul_div_mul_right _ _ hpos, valueOf_take _ (by omega), hrem, Nat.mul_mod_mul_right,
    Nat.mod_eq_of_lt hremlt]
  exact ⟨rfl, rfl⟩

/-- R179 to R185: division by a divisor of two words or more. -/
theorem divideNormalized_spec {a v : List Word} (ht : 2 ≤ trim v) (hav : a.length = v.length) :
    divideNormalized a v (trim v) =
      (wordsOf a.length (valueOf a / valueOf v), wordsOf a.length (valueOf a % valueOf v)) := by
  have hlt := valueOf_lt_trim v
  have hge := le_valueOf_of_trim (v := v) (by omega)
  have hle : trim v ≤ v.length := trimFrom_le v v.length
  obtain ⟨m, hm⟩ : ∃ m, trim v = m + 1 := Nat.exists_eq_succ_of_ne_zero (by omega)
  rw [hm] at hlt hge hle ht ⊢
  rw [Nat.add_sub_cancel] at hge
  obtain ⟨k, hk⟩ : ∃ k, a.length = k + m := ⟨a.length - m, by omega⟩
  have hdigits : a.length - (m + 1) + 1 = k := by omega
  have hquot : valueOf a < 2 ^ (32 * k) * valueOf v := by
    refine ((valueOf_lt a).trans_eq ?_).trans_le (Nat.mul_le_mul_left _ hge)
    rw [hk, pow_words_add]
  have hs : normShift v (m + 1) < 32 := by
    rw [normShift]
    omega
  obtain ⟨hfit, hnorm⟩ := normShift_spec hlt hge
  obtain ⟨hq, hr⟩ := divideDigits_shifted ht (by omega) hs (valueOf_lt a) hfit hnorm hquot
  have htake : valueOf (v.take (m + 1)) = valueOf v := by rw [valueOf_take v hle, Nat.mod_eq_of_lt hlt]
  have hquotlt : valueOf a / valueOf v < 2 ^ (32 * k) := Nat.div_lt_of_lt_mul (hquot.trans_eq (Nat.mul_comm _ _))
  rw [divideNormalized, htake, hdigits, hq, hr, Nat.add_sub_cancel, Nat.shiftRight_eq_div_pow,
    Nat.mul_div_cancel _ (Nat.two_pow_pos _), wordsOf_append_zeros m hquotlt, hk]

/-- R177: a divisor of one word is its lowest word. -/
theorem getD_zero_of_trim_eq_one {v : List Word} (h : trim v = 1) : (v.getD 0 0).toNat = valueOf v := by
  have hlt := valueOf_lt_trim v
  rw [h] at hlt
  rw [getD_toNat_top v hlt, Nat.mul_zero, Nat.pow_zero, Nat.div_one]

/-- R176 to R185: the datapath on a divisor that is not 0, by its effective length. -/
theorem longDivide_spec {a v : List Word} (hav : a.length = v.length) (hv : valueOf v ≠ 0) :
    longDivide a v = some (wordsOf a.length (valueOf a / valueOf v), wordsOf a.length (valueOf a % valueOf v)) := by
  have htrim : trim v ≠ 0 := (trim_eq_zero_iff v).not.2 hv
  rw [longDivide, if_neg htrim]
  split
  · next hone =>
    have hd := getD_zero_of_trim_eq_one hone
    have hne : v.getD 0 0 ≠ 0 := fun h => hv (hd.symm.trans (congrArg BitVec.toNat h))
    obtain ⟨hquot, hrem⟩ := divideSingle_spec hne a
    simp only [hquot, hrem, hd]
  · next hmore => rw [divideNormalized_spec (by omega) hav]

/-- Settles O42: the trim tells 0, one word and more words apart; each digit of the loop is the window's quotient. -/
theorem longDivisionRefinesDivision : Obligations.LongDivisionRefinesDivision := fun a v hav =>
  ⟨fun hzero => by rw [longDivide, if_pos ((trim_eq_zero_iff v).2 hzero)], longDivide_spec hav⟩

end Sys2Proof.Machine

/-! ### R200: truth and order results in RES0 -/
namespace Sys2Proof.Machine

/-- R240: a checked command that sets RES0 to `v` and completes, where its windows keep the contract. -/
theorem exec_setRes0_spec {i : Instr} {s : State} {v : Word} (heq : exec i s = s.checked i (s.setRes0 v).finish)
    (hfit : ∀ w ∈ windowsOf i s.latch, fits s w.base w.len) (hov : overlapAllowed i s.latch = true) :
    ∃ t, exec i s = .next t ∧ onlyRes0 s t ∧ t.res0 = v :=
  ⟨_, heq.trans (checked_of_contract _ ((windows_inDM_iff i s).2 hfit) hov), rfl, rfl⟩

/-- R202 to R205: the same for a command that only reads the windows A and B, which may overlap in any way. -/
theorem exec_compare_spec {i : Instr} {s : State} {v : Word} (hA : fits s (argA s) (argN s))
    (hB : fits s (argB s) (argN s)) (heq : exec i s = s.checked i (s.setRes0 v).finish)
    (hwin : windowsOf i s.latch = [s.latch.winA, s.latch.winB]) (hov : overlapAllowed i s.latch = true) :
    ∃ t, exec i s = .next t ∧ onlyRes0 s t ∧ t.res0 = v :=
  exec_setRes0_spec heq (by simpa [hwin] using ⟨hA, hB⟩) hov

/-- R200: a truth result is 1 exactly where its test holds. -/
theorem truthWord_spec {b : Bool} {P : Prop} (h : b = true ↔ P) :
    (P → truthWord b = 1) ∧ (¬ P → truthWord b = 0) :=
  ⟨fun hP => if_pos (h.2 hP), fun hP => if_neg (mt h.1 hP)⟩

/-- R200: an order result exchanged is the order result negated. -/
theorem orderWord_swap (o : Ordering) : orderWord o.swap = -orderWord o := by cases o <;> rfl

theorem orderWord_eq_zero_iff (o : Ordering) : orderWord o = 0 ↔ o = .eq := by cases o <;> decide

theorem orderWord_eq_less_iff (o : Ordering) : orderWord o = 0xFFFFFFFF ↔ o = .lt := by cases o <;> decide

/-- R206: the laws of a total order, for the order result of a comparison in one. -/
theorem orderWord_compare_laws {α : Type} [LinearOrder α] (x y z : α) :
    orderWord (compare y x) = -orderWord (compare x y) ∧ (orderWord (compare x y) = 0 ↔ x = y) ∧
      (orderWord (compare x y) = 0xFFFFFFFF → orderWord (compare y z) = 0xFFFFFFFF →
        orderWord (compare x z) = 0xFFFFFFFF) := by
  refine ⟨?_, (orderWord_eq_zero_iff _).trans compare_eq_iff_eq, ?_⟩
  · rw [← orderWord_swap, ← Std.OrientedCmp.eq_swap]
  · simp only [orderWord_eq_less_iff, compare_lt_iff_lt]
    exact lt_trans

/-! ### R12: windows compared word by word -/

/-- R74: the windows A and B have one word count. -/
theorem length_winA_eq_winB (s : State) : (s.words s.latch.winA).length = (s.words s.latch.winB).length := by
  rw [words_length, words_length]
  rfl

/-- R12: two windows hold the same words exactly when they agree word by word. -/
theorem readWords_eq_iff (m : Memory) (a b n : Nat) :
    m.readWords a n = m.readWords b n ↔ ∀ i, i < n → m.readWord (a + i) = m.readWord (b + i) := by
  simp [List.ext_getElem_iff, readWords_getElem]

/-- The words of a window that stand above its word `k` are equal in two windows that agree there. -/
theorem drop_readWords_eq {m : Memory} {a b n k : Nat}
    (h : ∀ i, k < i → i < n → m.readWord (a + i) = m.readWord (b + i)) :
    (m.readWords a n).drop (k + 1) = (m.readWords b n).drop (k + 1) := by
  refine List.ext_getElem (by simp) fun j hj _ => ?_
  rw [List.length_drop, readWords_length] at hj
  rw [List.getElem_drop, List.getElem_drop, readWords_getElem, readWords_getElem]
  exact h (k + 1 + j) (by omega) (by omega)

/-- R204: the most significant unequal word decides which value is less. -/
theorem valueOf_lt_of_getElem_lt {a b : List Word} {k : Nat} (ha : k < a.length) (hb : k < b.length)
    (habove : a.drop (k + 1) = b.drop (k + 1)) (hk : a[k].toNat < b[k].toNat) : valueOf a < valueOf b := by
  refine Nat.lt_of_div_lt_div (c := 2 ^ (32 * k)) ?_
  rw [← valueOf_drop a ha.le, ← valueOf_drop b hb.le, List.drop_eq_getElem_cons ha, List.drop_eq_getElem_cons hb,
    habove]
  exact Nat.add_lt_add_right hk _

/-- R204: the same for two windows of memory. -/
theorem memRead_lt_of_readWord_lt {s : State} {a b n k : Nat} (hk : k < n)
    (habove : ∀ i, k < i → i < n → s.mem.readWord (a + i) = s.mem.readWord (b + i))
    (hlt : (s.mem.readWord (a + k)).toNat < (s.mem.readWord (b + k)).toNat) : memRead s a n < memRead s b n := by
  refine valueOf_lt_of_getElem_lt (k := k) (by simpa using hk) (by simpa using hk) (drop_readWords_eq habove) ?_
  simpa only [readWords_getElem] using hlt

/-! ### R204, R205: the comparisons as orders of numbers -/

/-- The higher digit of two-digit numbers decides; where it is the same, the lower does. -/
theorem compare_add_mul {p r r' : Nat} (x y : Word) (hr : r < p) (hr' : r' < p) :
    compare (r + p * x.toNat) (r' + p * y.toNat) =
      if x < y then .lt else if y < x then .gt else compare r r' := by
  have hlt {u v : Word} {q q' : Nat} (h : u < v) (hq : q < p) : q + p * u.toNat < q' + p * v.toNat :=
    calc q + p * u.toNat < p * (u.toNat + 1) := by rw [Nat.mul_succ]; omega
      _ ≤ p * v.toNat := Nat.mul_le_mul_left p (BitVec.lt_def.1 h)
      _ ≤ q' + p * v.toNat := Nat.le_add_left _ _
  split_ifs with hxy hyx
  · exact compare_lt_iff_lt.2 (hlt hxy hr)
  · exact compare_gt_iff_gt.2 (hlt hyx hr')
  · have hxeq : x = y := by bv_omega
    rw [hxeq]
    simpa only [cmp_eq_compare] using cmp_add_right r r' (p * y.toNat)

/-- R204: the loop from the most-significant word down compares the values. -/
theorem compareDown_eq_compare {xs ys : List Word} (hl : xs.length = ys.length) :
    compareDown xs ys = compare (valueOf xs.reverse) (valueOf ys.reverse) := by
  induction xs generalizing ys with
  | nil =>
    rw [List.eq_nil_of_length_eq_zero hl.symm]
    rfl
  | cons x xs ih =>
    cases ys with
    | nil => simp at hl
    | cons y ys =>
      have hlen : ys.length = xs.length := (Nat.succ.inj hl).symm
      have hvalue (w : Word) (ws : List Word) :
          valueOf (w :: ws).reverse = valueOf ws.reverse + 2 ^ (32 * ws.length) * w.toNat := by
        rw [List.reverse_cons, valueOf_append, List.length_reverse]
        rfl
      have hlt (ws : List Word) : valueOf ws.reverse < 2 ^ (32 * ws.length) := by simpa using valueOf_lt ws.reverse
      rw [compareDown, ih hlen.symm, hvalue, hvalue, hlen, compare_add_mul x y (hlt xs) (hlen ▸ hlt ys)]

/-- R204: CMPU's result is the order of the two values. -/
theorem cmpu_eq_compare {a b : List Word} (hl : a.length = b.length) :
    cmpu a b = orderWord (compare (valueOf a) (valueOf b)) := by
  rw [cmpu, compareDown_eq_compare (by simpa using hl), List.reverse_reverse, List.reverse_reverse]

/-- R204: CMPU's three results, by the order of the values. -/
theorem cmpu_spec {a b : List Word} (hl : a.length = b.length) :
    (valueOf a < valueOf b → cmpu a b = 0xFFFFFFFF) ∧ (valueOf a = valueOf b → cmpu a b = 0) ∧
      (valueOf b < valueOf a → cmpu a b = 1) := by
  rw [cmpu_eq_compare hl]
  exact ⟨fun h => by rw [compare_lt_iff_lt.2 h]; rfl, fun h => by rw [compare_eq_iff_eq.2 h]; rfl,
    fun h => by rw [compare_gt_iff_gt.2 h]; rfl⟩

/-- R205: the sign of a window of n ≥ 1 words of memory. -/
theorem topSign_readWords (m : Memory) (a : Nat) {n : Nat} (hn : 0 < n) :
    topSign (m.readWords a n) = some ((m.readWord (a + (n - 1))).getLsbD 31) := by
  rw [topSign, List.getLast?_eq_getElem?, readWords_length, readWords_getElem? m a n _ (by omega)]
  rfl

/-- R205: only the window of 0 words has no sign. -/
theorem exists_topSign {a : List Word} (h : 0 < a.length) : ∃ c, topSign a = some c := by
  rw [topSign, List.getLast?_eq_some_getLast (List.ne_nil_of_length_pos h)]
  exact ⟨_, rfl⟩

/-- R205: "if signs differ, the negative operand compares smaller". -/
theorem cmps_of_signs_ne {a b : List Word} (ha : topSign a = some true) (hb : topSign b = some false) :
    cmps a b = 0xFFFFFFFF ∧ cmps b a = 1 := by
  rw [cmps, cmps, ha, hb]
  exact ⟨rfl, rfl⟩

/-- R205: signs that match leave the unsigned compare, inverted "when both are negative". -/
theorem cmps_of_signs_eq {a b : List Word} {c : Bool} (ha : topSign a = some c) (hb : topSign b = some c) :
    cmps a b = if c then -(cmpu a b) else cmpu a b := by
  rw [cmps, ha, hb]
  cases c <;> rfl

/-- R205: the number by which CMPS orders an operand: its value, or, where it is negative, below 0 and the lower the
larger the value. -/
def signedRank (a : List Word) : Int := if topSign a = some true then -1 - (valueOf a : Int) else valueOf a

theorem signedRank_of_negative {a : List Word} (h : topSign a = some true) : signedRank a = -1 - (valueOf a : Int) :=
  if_pos h

theorem signedRank_of_nonnegative {a : List Word} (h : topSign a = some false) : signedRank a = valueOf a :=
  if_neg (by simp [h])

theorem signedRank_lt_of_signs_ne {a b : List Word} (ha : topSign a = some true) (hb : topSign b = some false) :
    signedRank a < signedRank b := by
  rw [signedRank_of_negative ha, signedRank_of_nonnegative hb]
  omega

theorem compare_natCast (x y : Nat) : compare (x : Int) y = compare x y := by
  simpa only [cmp_eq_compare] using Int.natCast_strictMono.cmp_map_eq x y

/-- R205: "inverting the result": below 0 the ranks run against the values. -/
theorem compare_negative_ranks (x y : Nat) : compare (-1 - (x : Int)) (-1 - (y : Int)) = compare y x := by
  have hanti : StrictAnti fun v : Nat => -1 - (v : Int) := fun _ _ h => Int.sub_lt_sub_left (Int.ofNat_lt.2 h) _
  simpa only [cmp_eq_compare] using hanti.cmp_map_eq x y

/-- R205: CMPS's result is the order of the two ranks. -/
theorem cmps_eq_compare {a b : List Word} (hl : a.length = b.length) :
    cmps a b = orderWord (compare (signedRank a) (signedRank b)) := by
  rcases Nat.eq_zero_or_pos a.length with hzero | hpos
  · rw [List.eq_nil_of_length_eq_zero hzero, List.eq_nil_of_length_eq_zero (hl.symm.trans hzero)]
    decide
  obtain ⟨sa, ha⟩ := exists_topSign hpos
  obtain ⟨sb, hb⟩ := exists_topSign (hl ▸ hpos)
  cases sa with
  | false => cases sb with
    | false =>
      rw [cmps_of_signs_eq ha hb, cmpu_eq_compare hl, signedRank_of_nonnegative ha, signedRank_of_nonnegative hb,
        compare_natCast]
      rfl
    | true =>
      rw [(cmps_of_signs_ne hb ha).2, compare_gt_iff_gt.2 (signedRank_lt_of_signs_ne hb ha)]
      rfl
  | true => cases sb with
    | false =>
      rw [(cmps_of_signs_ne ha hb).1, compare_lt_iff_lt.2 (signedRank_lt_of_signs_ne ha hb)]
      rfl
    | true =>
      rw [cmps_of_signs_eq ha hb, cmpu_eq_compare hl, signedRank_of_negative ha, signedRank_of_negative hb,
        compare_negative_ranks, Std.OrientedCmp.eq_swap (cmp := compare) (a := valueOf b), orderWord_swap]
      rfl

/-- R205: the rank determines the operand, since its sign tells the two ranges of ranks apart. -/
theorem signedRank_inj {a b : List Word} (hl : a.length = b.length) (h : signedRank a = signedRank b) : a = b := by
  refine eq_of_valueOf_eq hl ?_
  unfold signedRank at h
  split_ifs at h <;> omega

/-- Settles O44: the result is the order of the values, and the most significant unequal word decides that order. -/
theorem cmpuIsUnsignedOrder : Obligations.CmpuIsUnsignedOrder := by
  refine ⟨decode_encode .cmpu, fun s hA hB => ?_⟩
  obtain ⟨t, hnext, hframe, hres⟩ := exec_compare_spec (i := .cmpu) hA hB rfl rfl rfl
  obtain ⟨hless, hequal, hgreater⟩ := cmpu_spec (length_winA_eq_winB s)
  rw [← hres] at hless hequal hgreater
  refine ⟨t, hnext, hframe, fun k hk habove => ⟨fun hlt => ?_, fun hlt => ?_⟩, fun hall => ?_, hless, hequal,
    hgreater⟩
  · exact hless (memRead_lt_of_readWord_lt hk habove hlt)
  · exact hgreater (memRead_lt_of_readWord_lt hk (fun i hki hin => (habove i hki hin).symm) hlt)
  · exact hequal (congrArg valueOf ((readWords_eq_iff _ _ _ _).2 hall))

/-- Settles O45: the sign of each window is the high bit of its top word, and the procedure's branches follow. -/
theorem cmpsFollowsTheSourcesProcedure : Obligations.CmpsFollowsTheSourcesProcedure := by
  refine ⟨decode_encode .cmps, fun s hA hB => ?_⟩
  obtain ⟨t, hnext, hframe, hres⟩ := exec_compare_spec (i := .cmps) hA hB rfl rfl rfl
  refine ⟨t, hnext, hframe, fun hn => ?_, fun sa sb hn ha hb => ?_⟩
  · have hempty (w : Window) (hw : w.len = 0) : s.words w = [] := by rw [State.words, hw]; rfl
    rw [hres, hempty s.latch.winA hn, hempty s.latch.winB hn]
    rfl
  have hsa : topSign (s.words s.latch.winA) = some sa := (topSign_readWords _ _ hn).trans (congrArg some ha)
  have hsb : topSign (s.words s.latch.winB) = some sb := (topSign_readWords _ _ hn).trans (congrArg some hb)
  obtain ⟨hless, hequal, hgreater⟩ := cmpu_spec (length_winA_eq_winB s)
  rw [hres]
  refine ⟨?_, ?_, ?_, ?_, ?_⟩
  · rintro rfl rfl
    exact (cmps_of_signs_ne hsa hsb).1
  · rintro rfl rfl
    exact (cmps_of_signs_ne hsb hsa).2
  · rintro rfl h
    rw [cmps_of_signs_eq hsa hsb, hequal h]
    exact ite_self _
  · rintro rfl h
    rw [cmps_of_signs_eq hsa hsb, hless h]
    rfl
  · rintro rfl h
    rw [cmps_of_signs_eq hsa hsb, hgreater h]
    rfl

/-- Settles O46: both results are the order of a number, the value and the signed rank, that determines the operand. -/
theorem comparisonsAreTotalOrders : Obligations.ComparisonsAreTotalOrders := by
  intro a b c hab hbc
  have hvalue : valueOf a = valueOf b ↔ a = b := ⟨eq_of_valueOf_eq hab, congrArg valueOf⟩
  have hrank : signedRank a = signedRank b ↔ a = b := ⟨signedRank_inj hab, congrArg signedRank⟩
  have hac := hab.trans hbc
  constructor
  · rw [← hvalue, cmpu_eq_compare hab, cmpu_eq_compare hab.symm, cmpu_eq_compare hbc, cmpu_eq_compare hac]
    exact orderWord_compare_laws _ _ _
  · rw [← hrank, cmps_eq_compare hab, cmps_eq_compare hab.symm, cmps_eq_compare hbc, cmps_eq_compare hac]
    exact orderWord_compare_laws _ _ _

/-- Settles O43: each command sets RES0 to the truth word of its test, which is the value's or the words' equality. -/
theorem zeroAndEqualityTests : Obligations.ZeroAndEqualityTests := by
  refine ⟨decode_encode .iszero, decode_encode .eq, decode_encode .ne, fun s hA => ?_, fun s hA hB => ?_⟩
  · obtain ⟨t, hnext, hframe, hres⟩ :=
      exec_setRes0_spec (i := .iszero) (s := s) rfl (List.forall_mem_singleton.2 hA) rfl
    exact ⟨t, hnext, hframe, hres ▸ truthWord_spec beq_iff_eq⟩
  have hall : s.words s.latch.winA = s.words s.latch.winB ↔
      ∀ i, i < argN s → s.mem.readWord (argA s + i) = s.mem.readWord (argB s + i) := readWords_eq_iff _ _ _ _
  have hsome : (∃ i, i < argN s ∧ s.mem.readWord (argA s + i) ≠ s.mem.readWord (argB s + i)) ↔
      ¬ s.words s.latch.winA = s.words s.latch.winB := by
    simp only [hall, not_forall, exists_prop, ne_eq]
  rw [← hall, hsome]
  obtain ⟨t, hnext, hframe, hres⟩ := exec_compare_spec (i := .eq) hA hB rfl rfl rfl
  obtain ⟨u, hnext', hframe', hres'⟩ := exec_compare_spec (i := .ne) hA hB rfl rfl rfl
  have hdiffer : (!(s.words s.latch.winA == s.words s.latch.winB)) = true ↔
      ¬ s.words s.latch.winA = s.words s.latch.winB := by simp
  obtain ⟨hone, hzero⟩ := truthWord_spec hdiffer
  exact ⟨⟨t, hnext, hframe, hres ▸ truthWord_spec beq_iff_eq⟩,
    ⟨u, hnext', hframe', hres' ▸ ⟨fun h => hzero (not_not.2 h), hone⟩⟩⟩

end Sys2Proof.Machine

/-! ### R104: the greatest set bit of a number, and the numbers a word can hold -/
namespace Sys2Proof.Machine

/-- The bounds of a number between two powers of 2 determine its greatest set bit. -/
theorem log2_eq_of_bounds {v p : Nat} (hlow : 2 ^ p ≤ v) (hhigh : v < 2 ^ (p + 1)) : Nat.log2 v = p :=
  (Nat.log2_eq_iff (Nat.ne_zero_of_lt (Nat.lt_of_lt_of_le (Nat.two_pow_pos p) hlow))).2 ⟨hlow, hhigh⟩

theorem msb_toNat_eq_log2 {v : Word} (hv : v ≠ 0) : (msb v).toNat = Nat.log2 v.toNat := by
  obtain ⟨hlow, hhigh⟩ := toNat_bounds_of_msb hv
  exact (log2_eq_of_bounds hlow hhigh).symm

/-- A number that a word can hold is the word's value. -/
theorem toNat_ofNat_of_lt {x : Nat} (hx : x < 2 ^ 32) : (BitVec.ofNat 32 x).toNat = x := Nat.mod_eq_of_lt hx

/-- An integer that a word can hold is the word's signed value. -/
theorem toInt_ofInt_of_bounds {x : Int} (hlow : -2 ^ 31 ≤ x) (hhigh : x < 2 ^ 31) : (BitVec.ofInt 32 x).toInt = x :=
  BitVec.toInt_ofInt_eq_self (by decide) hlow hhigh

/-! ### R215: the fields of a binary32 pattern -/

theorem signBit_toNat (sg : Bool) : (signBit sg).toNat = 2 ^ 31 * sg.toNat := by cases sg <;> rfl

theorem signBit_or_toNat (sg : Bool) {w : Word} (hw : w.toNat < 2 ^ 31) :
    (signBit sg ||| w).toNat = 2 ^ 31 * sg.toNat + w.toNat := by
  rw [BitVec.toNat_or, signBit_toNat, Nat.two_pow_add_eq_or_of_lt hw]

theorem fexpField_eq (f : Word) : fexpField f = f.toNat / 2 ^ 23 % 256 := by
  rw [fexpField, BitVec.extractLsb'_toNat, Nat.shiftRight_eq_div_pow]

/-- R215: the mask 0x007FFFFF keeps bits 22:0. -/
theorem ffracField_toNat (f : Word) : (ffracField f).toNat = f.toNat % 2 ^ 23 := by
  rw [ffracField, BitVec.toNat_and]
  exact Nat.and_two_pow_sub_one_eq_mod f.toNat 23

theorem ffracField_eq_zero_iff (f : Word) : ffracField f = 0 ↔ f.toNat % 2 ^ 23 = 0 := by
  rw [← ffracField_toNat, BitVec.toNat_eq]
  rfl

/-- R215: an exponent field above a fraction field. -/
theorem exponent_or_fraction_toNat {E : Int} (hE : 0 ≤ E) (hE' : E ≤ 254) (w : Word) :
    (BitVec.ofInt 32 E <<< 23 ||| ffracField w).toNat = 2 ^ 23 * E.toNat + w.toNat % 2 ^ 23 := by
  have hshift : (BitVec.ofInt 32 E <<< 23).toNat = 2 ^ 23 * E.toNat := by
    rw [BitVec.toNat_shiftLeft, BitVec.toNat_ofInt, Nat.shiftLeft_eq]
    omega
  have hfrac : w.toNat % 2 ^ 23 < 2 ^ 23 := Nat.mod_lt _ (by decide)
  rw [BitVec.toNat_or, hshift, ffracField_toNat, Nat.two_pow_add_eq_or_of_lt hfrac]

/-- R215: bit 31 as a number. -/
theorem sign_toNat (f : Word) : (f.getLsbD 31).toNat = f.toNat / 2 ^ 31 := by
  have hf := f.isLt
  rw [BitVec.getLsbD, Nat.toNat_testBit]
  omega

/-- R215: a pattern is its sign, its exponent field and its fraction. -/
theorem pattern_toNat (f : Word) :
    f.toNat = 2 ^ 31 * (f.toNat / 2 ^ 31) + 2 ^ 23 * (f.toNat / 2 ^ 23 % 256) + f.toNat % 2 ^ 23 := by omega

/-! ### R216: FPACK -/

/-- R216: normalization keeps the top 24 bits of the mantissa and the exponent of the value. -/
theorem fnormalize_eq (m k : Nat) (e : Int) : fnormalize m k e = (m * 2 ^ 24 / 2 ^ k, e + k - 24) := by
  rw [fnormalize]
  split
  · next hk =>
    have hpow : 2 ^ k = 2 ^ (k - 24) * 2 ^ 24 := (pow_sub_mul_pow 2 (by omega)).symm
    rw [Nat.shiftRight_eq_div_pow, hpow, Nat.mul_div_mul_right _ _ (by decide)]
    exact congrArg _ (by omega)
  · next hk =>
    have hpow : 2 ^ 24 = 2 ^ (24 - k) * 2 ^ k := (pow_sub_mul_pow 2 (by omega)).symm
    rw [Nat.shiftLeft_eq, hpow, ← Nat.mul_assoc, Nat.mul_div_cancel _ (Nat.two_pow_pos k)]
    exact congrArg _ (by omega)

/-- R216: the top 24 bits of a mantissa that is not 0 begin with a 1. -/
theorem topBits_bounds {m k : Nat} (hk : 1 ≤ k) (hlow : 2 ^ (k - 1) ≤ m) (hhigh : m < 2 ^ k) :
    2 ^ 23 ≤ m * 2 ^ 24 / 2 ^ k ∧ m * 2 ^ 24 / 2 ^ k < 2 ^ 24 := by
  have hpow : 2 ^ k = 2 ^ (k - 1) * 2 := (Nat.two_pow_pred_mul_two hk).symm
  constructor
  · rw [Nat.le_div_iff_mul_le (Nat.two_pow_pos k), hpow]
    omega
  · exact Nat.div_lt_of_lt_mul (Nat.mul_lt_mul_of_pos_right hhigh (by decide))

/-- R107: the bounds of a word determine its bit width. -/
theorem ne_zero_and_fls_toNat_of_bounds {m : Word} {k : Nat} (hk : 1 ≤ k) (hlow : 2 ^ (k - 1) ≤ m.toNat)
    (hhigh : m.toNat < 2 ^ k) : m ≠ 0 ∧ (fls m).toNat = k := by
  have hne : m ≠ 0 := by
    rintro rfl
    exact absurd hlow (Nat.not_le.2 (Nat.two_pow_pos _))
  have hlog := log2_eq_of_bounds hlow (by rwa [Nat.sub_add_cancel hk])
  exact ⟨hne, by rw [fls_toNat hne, msb_toNat_eq_log2 hne, hlog, Nat.sub_add_cancel hk]⟩

theorem fpack_zero (e : Int) (sg : Bool) : fpack 0 e sg = signBit sg := rfl

/-- R216: the three outcomes of FPACK for a mantissa that is not 0, by the biased exponent `E`. -/
theorem fpack_spec {m : Word} {e E : Int} (sg : Bool) {k M : Nat} (hk : 1 ≤ k) (hlow : 2 ^ (k - 1) ≤ m.toNat)
    (hhigh : m.toNat < 2 ^ k) (hM : M = m.toNat * 2 ^ 24 / 2 ^ k) (hE : E = e + k + 126) :
    (255 ≤ E → (fpack m e sg).toNat = 2 ^ 31 * sg.toNat + 0x7F800000) ∧
    (1 ≤ E → E ≤ 254 → (fpack m e sg).toNat = 2 ^ 31 * sg.toNat + 2 ^ 23 * E.toNat + (M - 2 ^ 23)) ∧
    (E ≤ 0 → (fpack m e sg).toNat = 2 ^ 31 * sg.toNat + M / 2 ^ (1 - E).toNat) := by
  obtain ⟨hne, hfls⟩ := ne_zero_and_fls_toNat_of_bounds hk hlow hhigh
  obtain ⟨hMlow, hMhigh⟩ : 2 ^ 23 ≤ M ∧ M < 2 ^ 24 := hM ▸ topBits_bounds hk hlow hhigh
  have hbiased : e + k - 24 + 150 = E := by omega
  simp only [fpack, if_neg hne, hfls, fnormalize_eq, hbiased, ← hM]
  refine ⟨fun hinf => ?_, fun h1 h254 => ?_, fun hsub => ?_⟩
  · rw [if_pos hinf]
    exact signBit_or_toNat sg (by decide)
  · rw [if_neg (by omega), if_pos h1, BitVec.or_assoc]
    have hfields := exponent_or_fraction_toNat (by omega) h254 (BitVec.ofNat 32 M)
    rw [toNat_ofNat_of_lt (by omega), ffracField] at hfields
    rw [signBit_or_toNat sg (by omega), hfields]
    omega
  · rw [if_neg (by omega), if_neg (by omega), Nat.shiftRight_eq_div_pow]
    have hdrop : M / 2 ^ (1 - E).toNat < 2 ^ 24 := (Nat.div_le_self _ _).trans_lt hMhigh
    have hword := toNat_ofNat_of_lt (hdrop.trans (by decide))
    rw [signBit_or_toNat sg (by omega), hword]

/-- Settles O47: RES0 is FPACK's pattern: the sign alone for the mantissa 0, else by the biased exponent. -/
theorem fpackPacksTruncated : Obligations.FpackPacksTruncated := by
  refine ⟨decode_encode .fpack, fun s => ⟨_, rfl, rfl, fun hzero => ?_,
    fun k M E hk hlow hhigh hM hE => fpack_spec _ hk hlow hhigh hM hE⟩⟩
  change (fpack s.latch.opa s.latch.exponent (s.latch.opc.getLsbD 0)).toNat = _
  rw [hzero, fpack_zero, signBit_toNat]

/-! ### R217: FUNPACK -/

section
variable {f : Word}

theorem funpackParts_zero (hE : fexpField f = 0) (hF : ffracField f = 0) : funpackParts f = (0, 0, 0) :=
  (if_pos hE).trans (if_pos hF)

theorem funpackParts_subnormal (hE : fexpField f = 0) (hF : ffracField f ≠ 0) :
    funpackParts f = (ffracField f <<< (23 - (msb (ffracField f)).toNat),
      -149 - ((23 - (msb (ffracField f)).toNat : Nat) : Int), 1) :=
  (if_pos hE).trans (if_neg hF)

theorem funpackParts_normal (h1 : 1 ≤ fexpField f) (h254 : fexpField f ≤ 254) :
    funpackParts f = (ffracField f ||| 0x00800000, (fexpField f : Int) - 150, 2) :=
  (if_neg (Nat.ne_of_gt h1)).trans (if_pos (Nat.lt_succ_of_le h254))

theorem funpackParts_infinity (hE : fexpField f = 255) (hF : ffracField f = 0) : funpackParts f = (0, 0, 3) :=
  (if_neg (by omega)).trans ((if_neg (by omega)).trans (if_pos hF))

theorem funpackParts_nan (hE : fexpField f = 255) (hF : ffracField f ≠ 0) : funpackParts f = (ffracField f, 0, 4) :=
  (if_neg (by omega)).trans ((if_neg (by omega)).trans (if_neg hF))

end

/-- R217: the shift that brings the leading 1 of a nonzero fraction to bit 23. -/
theorem normalized_fraction {F : Word} (hF : F ≠ 0) (hlt : F.toNat < 2 ^ 23) :
    (F <<< (23 - (msb F).toNat)).toNat = F.toNat * 2 ^ (23 - (msb F).toNat) ∧
    2 ^ 23 ≤ F.toNat * 2 ^ (23 - (msb F).toNat) ∧ F.toNat * 2 ^ (23 - (msb F).toNat) < 2 ^ 24 := by
  obtain ⟨hlow, hhigh⟩ := toNat_bounds_of_msb hF
  have hmsb : (msb F).toNat < 23 := (Nat.pow_lt_pow_iff_right (by decide)).1 (hlow.trans_lt hlt)
  generalize (msb F).toNat = p at *
  have hpow : 2 ^ 23 = 2 ^ p * 2 ^ (23 - p) := (pow_mul_pow_sub 2 hmsb.le).symm
  have hpow' : 2 ^ 24 = 2 ^ (p + 1) * 2 ^ (23 - p) := by rw [← Nat.pow_add]; congr 1; omega
  have hge : 2 ^ 23 ≤ F.toNat * 2 ^ (23 - p) := hpow ▸ Nat.mul_le_mul_right _ hlow
  have hlt : F.toNat * 2 ^ (23 - p) < 2 ^ 24 := hpow' ▸ Nat.mul_lt_mul_of_pos_right hhigh (Nat.two_pow_pos _)
  refine ⟨?_, hge, hlt⟩
  rw [BitVec.toNat_shiftLeft, Nat.shiftLeft_eq, Nat.mod_eq_of_lt (hlt.trans (by decide))]

/-- R217: the implicit 1 above the fraction. -/
theorem implicitOne_toNat (f : Word) : (ffracField f ||| 0x00800000).toNat = 2 ^ 23 + f.toNat % 2 ^ 23 := by
  have hfrac : f.toNat % 2 ^ 23 < 2 ^ 23 := Nat.mod_lt _ (by decide)
  rw [BitVec.or_comm, BitVec.toNat_or, ffracField_toNat]
  exact (Nat.two_pow_add_eq_or_of_lt hfrac 1).symm

/-- R217: RES2 is the class above the sign. -/
theorem funpackClass_toNat (f : Word) :
    (funpackClass f).toNat = 2 * (funpackParts f).2.2.toNat + f.toNat / 2 ^ 31 := by
  have hcls : (funpackParts f).2.2.toNat < 2 ^ 31 := by
    rw [funpackParts]
    split_ifs <;> simp
  have hshift : ((funpackParts f).2.2 <<< 1).toNat = 2 ^ 1 * (funpackParts f).2.2.toNat := by
    rw [BitVec.toNat_shiftLeft, Nat.shiftLeft_eq]
    omega
  have hsign : (truthWord (f.getLsbD 31)).toNat = f.toNat / 2 ^ 31 := by
    rw [← sign_toNat]
    cases f.getLsbD 31 <;> rfl
  have hbit : f.toNat / 2 ^ 31 < 2 ^ 1 := by
    have := f.isLt
    omega
  rw [funpackClass, BitVec.toNat_or, hshift, hsign, ← Nat.two_pow_add_eq_or_of_lt hbit]

/-- R217: FUNPACK sets the three results to the parts of the pattern. -/
theorem exec_funpack_spec (s : State) : ∃ t, exec .funpack s = .next t ∧
    t = { s with res0 := t.res0, res1 := t.res1, res2 := t.res2, status := okStatus s } ∧
    t.res0 = (funpackParts s.latch.opa).1 ∧ t.res1 = BitVec.ofInt 32 (funpackParts s.latch.opa).2.1 ∧
    t.res2.toNat = 2 * (funpackParts s.latch.opa).2.2.toNat + s.latch.opa.toNat / 2 ^ 31 :=
  ⟨_, rfl, rfl, rfl, rfl, funpackClass_toNat _⟩

/-- Settles O48: the results are the parts of the pattern, which each class gives in its own way. -/
theorem funpackClassifies : Obligations.FunpackClassifies := by
  refine ⟨decode_encode .funpack, ?_⟩
  rintro s f sg E F rfl rfl rfl rfl
  obtain ⟨t, hnext, hframe, hres0, hres1, hres2⟩ := exec_funpack_spec s
  rw [← fexpField_eq, ne_eq, ← ffracField_eq_zero_iff]
  refine ⟨t, hnext, hframe, fun hE hF => ?_, fun hE hF => ?_, fun h1 h254 => ?_, fun hE hF => ?_, fun hE hF => ?_⟩
  · simp only [funpackParts_zero hE hF] at hres0 hres1 hres2
    exact ⟨hres0, hres1, hres2.trans (Nat.zero_add _)⟩
  · simp only [funpackParts_subnormal hE hF] at hres0 hres1 hres2
    have hfrac := ffracField_toNat s.latch.opa
    obtain ⟨hshift, hlow, hhigh⟩ := normalized_fraction hF (by omega)
    rw [hres0, hres1, hshift, ← hfrac]
    exact ⟨_, rfl, hlow, hhigh, toInt_ofInt_of_bounds (by omega) (by omega), hres2⟩
  · simp only [funpackParts_normal h1 h254] at hres0 hres1 hres2
    rw [hres0, hres1]
    exact ⟨implicitOne_toNat _, toInt_ofInt_of_bounds (by omega) (by omega), hres2⟩
  · simp only [funpackParts_infinity hE hF] at hres0 hres1 hres2
    exact ⟨hres0, hres1, hres2⟩
  · simp only [funpackParts_nan hE hF] at hres0 hres1 hres2
    exact ⟨hres0 ▸ ffracField_toNat _, hres1, hres2⟩

/-! ### R218: FEXTRACT -/

theorem topBit_of_bounds {x : Nat} (hlow : 2 ^ 31 ≤ x) (hhigh : x < 2 ^ 32) :
    (BitVec.ofNat 32 x).getLsbD 31 = true := by
  have hmsb := BitVec.msb_eq_decide (BitVec.ofNat 32 x)
  rw [BitVec.msb_eq_getLsbD_last, toNat_ofNat_of_lt hhigh] at hmsb
  exact hmsb.trans (decide_eq_true hlow)

/-- R218: the mantissa of a value with highest set bit `p`: 32 bits that begin with a 1. -/
theorem fextract_spec {v p : Nat} (hlow : 2 ^ p ≤ v) (hhigh : v < 2 ^ (p + 1)) :
    (31 ≤ p → (fextract v).1.toNat = v / 2 ^ (p - 31)) ∧ (p < 31 → (fextract v).1.toNat = v * 2 ^ (31 - p)) ∧
    (fextract v).1.getLsbD 31 = true ∧ (fextract v).2 = (p : Int) - 31 := by
  have hne : v ≠ 0 := Nat.ne_zero_of_lt (Nat.lt_of_lt_of_le (Nat.two_pow_pos p) hlow)
  simp only [fextract, if_neg hne, log2_eq_of_bounds hlow hhigh, and_true]
  by_cases hp : 31 ≤ p
  · have hpow : 2 ^ p = 2 ^ 31 * 2 ^ (p - 31) := (pow_mul_pow_sub 2 hp).symm
    have hge : 2 ^ 31 ≤ v / 2 ^ (p - 31) := (Nat.le_div_iff_mul_le (Nat.two_pow_pos _)).2 (hpow ▸ hlow)
    have hlt : v / 2 ^ (p - 31) < 2 ^ 32 := Nat.div_lt_of_lt_mul (by rw [Nat.pow_succ, hpow] at hhigh; omega)
    rw [if_pos hp, Nat.shiftRight_eq_div_pow]
    exact ⟨fun _ => toNat_ofNat_of_lt hlt, fun h => absurd hp (Nat.not_le.2 h), topBit_of_bounds hge hlt⟩
  · have hpow : 2 ^ 31 = 2 ^ p * 2 ^ (31 - p) := (pow_mul_pow_sub 2 (by omega)).symm
    have hge : 2 ^ 31 ≤ v * 2 ^ (31 - p) := hpow ▸ Nat.mul_le_mul_right _ hlow
    have hpow' : 2 ^ 32 = 2 ^ (p + 1) * 2 ^ (31 - p) := by rw [← Nat.pow_add]; congr 1; omega
    have hlt : v * 2 ^ (31 - p) < 2 ^ 32 := hpow' ▸ Nat.mul_lt_mul_of_pos_right hhigh (Nat.two_pow_pos _)
    rw [if_neg hp, Nat.shiftLeft_eq]
    exact ⟨fun h => absurd h hp, fun _ => toNat_ofNat_of_lt hlt, topBit_of_bounds hge hlt⟩

/-- R218: FEXTRACT sets RES0 and RES1 to the mantissa and the exponent of the window's value. -/
theorem exec_fextract_spec {s : State} (hA : fits s (argA s) (argN s)) :
    ∃ t, exec .fextract s = .next t ∧ onlyRes01 s t ∧ t.res0 = (fextract (memRead s (argA s) (argN s))).1 ∧
      t.res1 = BitVec.ofInt 32 (fextract (memRead s (argA s) (argN s))).2 :=
  ⟨_, checked_of_contract (i := .fextract) _ ((windows_inDM_iff _ s).2 (List.forall_mem_singleton.2 hA)) rfl,
    rfl, rfl, rfl⟩

/-- R7, R218: in a DM of at most `2^24` words no exponent leaves the range of RES1. -/
theorem highestBit_lt {s : State} (hfit : fits s (argA s) (argN s)) (haddr : s.cfg.addrW ≤ 24) {p : Nat}
    (hlow : 2 ^ p ≤ memRead s (argA s) (argN s)) : p < 2 ^ 29 := by
  have hvalue : memRead s (argA s) (argN s) < 2 ^ (32 * argN s) := value_lt s s.latch.winA
  have hp : p < 32 * argN s := (Nat.pow_lt_pow_iff_right (by decide)).1 (hlow.trans_lt hvalue)
  have hdm : 2 ^ s.cfg.addrW ≤ 2 ^ 24 := Nat.pow_le_pow_right (by decide) haddr
  omega

/-- Settles O49: the window's value is 0 or has a highest set bit, and RES0 and RES1 are its top bits and exponent. -/
theorem fextractTakesTopBits : Obligations.FextractTakesTopBits := by
  refine ⟨decode_encode .fextract, fun s hfit => ?_⟩
  obtain ⟨t, hnext, hframe, hres0, hres1⟩ := exec_fextract_spec hfit
  refine ⟨t, hnext, hframe, fun hzero => ?_, fun p hlow hhigh => ?_⟩
  · rw [hres0, hres1, hzero]
    exact ⟨rfl, rfl⟩
  · obtain ⟨hlong, hshort, htop, hexp⟩ := fextract_spec hlow hhigh
    rw [hres0, hres1, hexp]
    refine ⟨hlong, hshort, htop, rfl, fun haddr => ?_⟩
    have hp := highestBit_lt hfit haddr hlow
    exact toInt_ofInt_of_bounds (by omega) (by omega)

/-! ### R219: FPACK after FUNPACK -/

theorem lowBit_toNat (w : Word) : (w.getLsbD 0).toNat = w.toNat % 2 := by
  rw [BitVec.getLsbD, Nat.toNat_testBit, Nat.pow_zero, Nat.div_one]

section
variable {m : Word} (e : Int) (sg : Bool) (hlow : 2 ^ 23 ≤ m.toNat) (hhigh : m.toNat < 2 ^ 24)
include hlow hhigh

/-- R219: a significand of 24 bits needs no normalization; a normal pattern takes all of it. -/
theorem fpack_normal_of_normalized {E : Nat} (h1 : 1 ≤ E) (h254 : E ≤ 254) (hE : e = (E : Int) - 150) :
    (fpack m e sg).toNat = 2 ^ 31 * sg.toNat + 2 ^ 23 * E + (m.toNat - 2 ^ 23) := by
  have hM : m.toNat = m.toNat * 2 ^ 24 / 2 ^ 24 := (Nat.mul_div_cancel _ (by decide)).symm
  obtain ⟨-, hnormal, -⟩ := fpack_spec (e := e) (E := E) sg (by decide) hlow hhigh hM (by omega)
  exact hnormal (by omega) (by omega)

/-- R219: the same significand in a subnormal pattern loses its low `k` bits. -/
theorem fpack_subnormal_of_normalized {k : Nat} (hk : 1 ≤ k) (hE : e = -149 - (k : Int)) :
    (fpack m e sg).toNat = 2 ^ 31 * sg.toNat + m.toNat / 2 ^ k := by
  have hM : m.toNat = m.toNat * 2 ^ 24 / 2 ^ 24 := (Nat.mul_div_cancel _ (by decide)).symm
  obtain ⟨-, -, hsubnormal⟩ := fpack_spec (e := e) (E := 1 - k) sg (by decide) hlow hhigh hM (by omega)
  rw [hsubnormal (by omega), sub_sub_cancel, Int.toNat_natCast]

end

/-- Settles O50: FUNPACK normalizes to bit 23, so FPACK shifts nothing but a subnormal, back by as much as FUNPACK. -/
theorem floatRoundTrip : Obligations.FloatRoundTrip := by
  intro s hfinite
  have h254 : s.latch.opa.toNat / 2 ^ 23 % 256 ≤ 254 := by omega
  have hpattern := pattern_toNat s.latch.opa
  obtain ⟨t, hnext, -, hzero, hsubnormal, hnormal, -, -⟩ := funpackClassifies.2 s _ _ _ _ rfl rfl rfl rfl
  refine ⟨t, _, hnext, rfl, BitVec.eq_of_toNat_eq ?_⟩
  change (fpack t.res0 t.res1.toInt (t.res2.getLsbD 0)).toNat = s.latch.opa.toNat
  have hsign := lowBit_toNat t.res2
  rcases Nat.eq_zero_or_pos (s.latch.opa.toNat / 2 ^ 23 % 256) with hE | hE
  · rcases Nat.eq_zero_or_pos (s.latch.opa.toNat % 2 ^ 23) with hF | hF
    · obtain ⟨hsig, -, hcls⟩ := hzero hE hF
      rw [hsig, fpack_zero, signBit_toNat]
      omega
    · obtain ⟨k, hsig, hlow, hhigh, hexp, hcls⟩ := hsubnormal hE hF.ne'
      have hk : 1 ≤ k := by
        by_contra hk
        rw [Nat.lt_one_iff.1 (Nat.not_le.1 hk), Nat.pow_zero] at hsig
        omega
      rw [fpack_subnormal_of_normalized _ _ hlow hhigh hk hexp, hsig, Nat.mul_div_cancel _ (Nat.two_pow_pos k)]
      omega
  · obtain ⟨hsig, hexp, hcls⟩ := hnormal hE h254
    rw [fpack_normal_of_normalized _ _ (by omega) (by omega) hE h254 hexp, hsig]
    omega

end Sys2Proof.Machine

/-! ### R242: the sticky bits after a completion -/
namespace Sys2Proof.Machine

@[simp] theorem status_complete_sDiv0 (st : Status) (e : ErrCode) :
    (st.complete e).sDiv0 = (st.sDiv0 || (e == .div0)) := by
  cases e <;> simp [Status.complete]

@[simp] theorem status_complete_sIll (st : Status) (e : ErrCode) :
    (st.complete e).sIll = (st.sIll || (e == .illegal)) := by
  cases e <;> simp [Status.complete]

@[simp] theorem status_complete_sNrange (st : Status) (e : ErrCode) :
    (st.complete e).sNrange = (st.sNrange || (e == .nrange)) := by
  cases e <;> simp [Status.complete]

/-! ### R240 to R242, R245: how a command completes -/

/-- R240: a command that is no division is its contract check, and then an effect that completes with OK. -/
theorem exec_eq_checked_finish {i : Instr} (s : State) (hi : i.isDivision = false) :
    ∃ u : State, exec i s = s.checked i u.finish := by
  cases i with
  | div => cases hi
  | mod => cases hi
  | divmod => cases hi
  | _ => exact ⟨_, rfl⟩

theorem mem_divisions {i : Instr} (hi : i.isDivision = true) : i ∈ [Instr.div, .mod, .divmod] := by
  cases i with
  | div => decide
  | mod => decide
  | divmod => decide
  | _ => cases hi

/-- R241: no command that runs ends with ILLEGAL, and only a division with another code than OK. -/
theorem exec_next_err {i : Instr} {s t : State} (h : exec i s = .next t) :
    t.status.err ≠ .illegal ∧ (t.status.err ≠ .ok → i.isDivision = true) := by
  cases hi : i.isDivision with
  | true =>
    cases exec_division_next (mem_divisions hi) h with
    | oversize => simp
    | byZero => simp
    | results => simp
  | false =>
    obtain ⟨u, heq⟩ := exec_eq_checked_finish s hi
    rw [heq] at h
    simp [checked_finish_next h]

/-- Settles O57: by the inversion of `exec`, STATUS is that of a completion, and its code tells the sticky bits. -/
theorem completionAndArguments : Obligations.CompletionAndArguments := by
  intro i s t h
  obtain ⟨hillegal, hdivision⟩ := exec_next_err h
  have heffect := exec_next h
  obtain ⟨e, hst⟩ := heffect.status
  have herr : t.status.err = e := by simp [hst]
  rw [herr] at hillegal hdivision ⊢
  exact ⟨by simp [hst], hillegal, by simp [hst], by simp [hst], by simp [hst, hillegal], by simp [hst], hdivision,
    heffect.args, heffect.cfg, heffect.host, heffect.faultMark, heffect.waitDue⟩

theorem sized_of_lt {s : State} (o : Out) (h : s.cfg.divNmax < s.latch.count) :
    s.sized o = .next (s.complete .nrange) :=
  if_pos h

/-- Settles O40: the size is looked at before anything else of a division. -/
theorem oversizeDivisionCompletes : Obligations.OversizeDivisionCompletes := by
  intro s i hi hsize
  obtain ⟨k, hk⟩ := exec_division_eq s hi
  rw [hk, State.divide, sized_of_lt _ hsize]
  rfl

/-! ### R243, R244: the CMD writes that run no command -/

/-- R244: a command in progress that does not decode completes with ILLEGAL. -/
theorem runCommand_of_decode_error {s : State} {e : Illegal} (h : decode s.command = .error e) :
    s.runCommand = .next (s.complete .illegal) := by
  rw [State.runCommand, h]

/-- R72: a word with RSV not 0 or an unassigned OP is rejected. -/
theorem decode_error_of_malformed {w : Word} (h : w.toNat / 256 ≠ 0 ∨ unassigned (w.toNat % 256)) :
    ∃ e, decode w = .error e := by
  obtain ⟨hrsv, hop, -⟩ := decodeRejectsExactly w
  by_cases hw : w.toNat / 256 = 0
  · exact ⟨_, hop.2 ⟨hw, h.resolve_left (not_not_intro hw)⟩⟩
  · exact ⟨_, hrsv.2 hw⟩

/-- Settles O5: the write is accepted, and the accepted word does not decode. -/
theorem illegalWordTouchesStatusOnly : Obligations.IllegalWordTouchesStatusOnly := by
  intro s v w hready hv hmay hw
  obtain ⟨e, hdec⟩ := decode_error_of_malformed hw
  have hrun : (s.accept w).runCommand = .next ((s.accept w).complete .illegal) := runCommand_of_decode_error hdec
  rw [step_writeCmd hready hv, writeCmd_of_mayAccess w hmay, hrun]
  rfl

/-- Settles O6: BUSY is looked at before anything else of a CMD write. -/
theorem overrunIsDropped : Obligations.OverrunIsDropped := by
  intro s v w hready hv hbusy
  rw [step_writeCmd hready hv, State.writeCmd, if_pos hbusy]
  rfl

/-! ### R281, R250: the host's duty -/

section
variable {s : State} (hmust : s.mustWait = true)
include hmust

/-- R281: a register write, other than to CMD, by a host that must wait. -/
theorem step_write_reg_of_mustWait {r : Reg} {v : HostValue} {w : Word} (hr : r ≠ .cmd) (hv : s.evalValue v = some w)
    (hready : ready s (.write .w32 (s.cfg.regBase + r.offset) v)) : step s = .fault .cv3AccessWhileBusy := by
  rw [step_of_ready hready]
  simp [State.hostOp, State.opWrite, hv, busWrite_reg, State.writeReg, hr, hmust, onNext]

/-- R281: a register read, other than of STATUS, by a host that must wait. -/
theorem step_read_reg_of_mustWait {r : Reg} {x : Nat} (hr : r ≠ .status)
    (hready : ready s (.read .w32 (s.cfg.regBase + r.offset) x)) : step s = .fault .cv3AccessWhileBusy := by
  rw [step_of_ready hready]
  simp [State.hostOp, State.opRead, busOffset_reg, ofOffset_offset, hr, hmust]

theorem step_dmWrite_of_mustWait {a : Nat} {v : HostValue} {w : Word} (hv : s.evalValue v = some w)
    (hready : ready s (.dmWrite a v)) : step s = .fault .cv3AccessWhileBusy := by
  rw [step_of_ready hready]
  simp [State.hostOp, State.opDmWrite, hv, hmust]

theorem step_dmRead_of_mustWait {a x : Nat} (hready : ready s (.dmRead a x)) :
    step s = .fault .cv3AccessWhileBusy := by
  rw [step_of_ready hready]
  simp [State.hostOp, State.opDmRead, hmust]

end

/-- R281: a CMD write with BUSY = 0 by a host that owes a wait. -/
theorem step_writeCmd_of_waitDue {s : State} {v : HostValue} {w : Word}
    (hready : ready s (.write .w32 (s.cfg.regBase + 0x08) v)) (hv : s.evalValue v = some w)
    (hbusy : s.status.busy = false) (hdue : s.waitDue = true) : step s = .fault .cv3AccessWhileBusy := by
  rw [step_writeCmd hready hv]
  simp [State.writeCmd, hbusy, hdue, onNext]

/-- R281: the step of a STATUS read is a poll, the binding of STATUS and a move of the host. -/
theorem step_read_status {s : State} {x : Nat} (hready : ready s (.read .w32 (s.cfg.regBase + 0x04) x)) :
    step s = onNext s.polled fun t => (t.bind x s.status.word).advance := by
  have hoff : busOffset s.cfg (s.cfg.regBase + 0x04) = some Reg.status.offset := busOffset_reg s.cfg .status
  rw [step_of_ready hready]
  simp [State.hostOp, State.opRead, hoff, ofOffset_offset]

theorem polled_of_idle {s : State} (hbusy : s.status.busy = false) : s.polled = .next (s.setWaitDue false) :=
  if_neg (by simp [hbusy])

theorem polled_of_busy {s : State} (hbusy : s.status.busy = true) : s.polled = (s.setWaitDue true).runCommand :=
  if_pos hbusy

/-- Settles O7: the faults access by access; a STATUS read by what its poll does. -/
theorem busyAccessFaults : Obligations.BusyAccessFaults := by
  refine ⟨fun s hwait => ?_, fun s x hready => ?_⟩
  · have hmust : s.mustWait = true := by simpa [State.mustWait] using hwait
    exact ⟨fun r v w hr hv hready => step_write_reg_of_mustWait hmust hr hv hready,
      fun v w hbusy hv hready => step_writeCmd_of_waitDue hready hv hbusy (hwait.resolve_left (by simp [hbusy])),
      fun r x hr hready => step_read_reg_of_mustWait hmust hr hready,
      fun a v w hv hready => step_dmWrite_of_mustWait hmust hv hready,
      fun a x hready => step_dmRead_of_mustWait hmust hready⟩
  · rw [step_read_status hready]
    refine ⟨fun hbusy => ?_, fun hbusy i hdec => ?_, fun hbusy e hdec => ?_⟩
    · rw [polled_of_idle hbusy]
      exact ⟨_, rfl, find_insert_same _ x _, rfl⟩
    · have hrun : (s.setWaitDue true).runCommand = exec i (s.setWaitDue true) := runCommand_of_decode hdec
      rw [polled_of_busy hbusy, hrun]
      rfl
    · have hrun : (s.setWaitDue true).runCommand = .next ((s.setWaitDue true).complete .illegal) :=
        runCommand_of_decode_error hdec
      rw [polled_of_busy hbusy, hrun]
      exact ⟨_, rfl, find_insert_same _ x _, rfl⟩

/-! ### R251, R257: the steps of no host operation -/

/-- Settles O9: the fault mark is looked at before anything else of a step. -/
theorem faultMarkStopsEverything : Obligations.FaultMarkStopsEverything :=
  fun _ hmark => if_pos hmark

/-- Settles O10: a position at or past the program's end holds no operation. -/
theorem idleUnitDoesNothing : Obligations.IdleUnitDoesNothing := by
  intro s hmark hline hpos hbusy
  have hnone : s.host.program[s.host.pos]? = none := List.getElem?_eq_none hpos
  simp [step, State.stepSystem, hmark, hline, hnone, hbusy]

/-! ### R270 to R273: the platform's reset -/

/-- R270: with the line high, the step is the platform's reset. -/
theorem step_of_resetLine {s : State} (hmark : s.faultMark = false) (hline : s.resetLine = true) :
    step s = s.unitReset := by
  simp [step, State.stepSystem, hmark, hline]

/-- R271: a reset while BUSY = 0 resets the registers only. -/
theorem unitReset_of_idle {s : State} (hbusy : s.status.busy = false) : s.unitReset = .next s.resetRegisters :=
  if_neg (by simp [hbusy])

/-- R244, R273: a reset inside a word that names no command resets the registers only. -/
theorem unitReset_of_illegal {s : State} {e : Illegal} (hbusy : s.status.busy = true)
    (hdec : decode s.command = .error e) : s.unitReset = .next s.resetRegisters := by
  simp [State.unitReset, hbusy, hdec]

/-- R245, R273: a reset inside a division that is too long resets the registers only. -/
theorem unitReset_of_oversize {s : State} {i : Instr} (hbusy : s.status.busy = true) (hdec : decode s.command = .ok i)
    (hi : i.isDivision = true) (hsize : s.cfg.divNmax < argN s) : s.unitReset = .next s.resetRegisters := by
  simp [State.unitReset, hbusy, hdec, hi, Args.count, hsize]

/-- R273: a reset inside any other command draws freely in the windows that the command writes, if they keep the
contract. -/
theorem unitReset_of_running {s : State} {i : Instr} (hbusy : s.status.busy = true) (hdec : decode s.command = .ok i)
    (hsize : i.isDivision = true → argN s ≤ s.cfg.divNmax) :
    s.unitReset = s.checked i (.next (s.scramble (writtenBy i s.latch)).resetRegisters) := by
  have hsized : (i.isDivision && decide (s.cfg.divNmax < s.latch.count)) = false :=
    Bool.and_eq_false_imp.2 fun hi => decide_eq_false (Nat.not_lt.2 (hsize hi))
  simp [State.unitReset, hbusy, hdec, hsized]

/-- R273: a reset inside a command whose windows keep R55 and R56 goes on. -/
theorem unitReset_goes_on {s : State} {i : Instr} (hbusy : s.status.busy = true) (hdec : decode s.command = .ok i)
    (hfit : ∀ w ∈ windowsOf i s.latch, fits s w.base w.len) (hov : overlapAllowed i s.latch = true) :
    ∃ t, s.unitReset = .next t := by
  by_cases hsize : i.isDivision = true → argN s ≤ s.cfg.divNmax
  · rw [unitReset_of_running hbusy hdec hsize, checked_of_contract _ ((windows_inDM_iff i s).2 hfit) hov]
    exact ⟨_, rfl⟩
  · rw [Classical.not_imp, Nat.not_le] at hsize
    exact ⟨_, unitReset_of_oversize hbusy hdec hsize.1 hsize.2⟩

/-- R273: a reset inside a command writes in the windows that the command writes, and nowhere else. -/
theorem unitReset_writesWithin {s t : State} {i : Instr} (hdec : decode s.command = .ok i)
    (h : s.unitReset = .next t) : WritesWithin s (writtenBy i s.latch) t.mem := by
  rcases unitReset_next h with rfl | ⟨j, -, hdec', hall, rfl⟩
  · exact WritesWithin.refl s _
  · obtain rfl : i = j := Except.ok.inj (hdec.symm.trans hdec')
    obtain ⟨hwf, hin, hother⟩ := scramble_memory s (writtenBy i s.latch)
    have hwritten : (writtenBy i s.latch).all (Window.inDM s.cfg) = true :=
      List.all_eq_true.2 fun w hw => List.all_eq_true.1 hall w (writtenBy_subset i _ hw)
    exact ⟨hwf, fun hs => hin hs hwritten, hother⟩

/-- R271, R273: whatever a reset does to DM, it resets the registers of `s`. -/
theorem unitReset_registers {s t : State} (h : s.unitReset = .next t) :
    t = { s.resetRegisters with mem := t.mem, draws := t.draws } := by
  rcases unitReset_next h with rfl | ⟨i, -, -, -, rfl⟩ <;> rfl

/-- Settles O12: the reset by what is in progress; its writes and the registers after it by its inversion. -/
theorem platformResetKeepsMemory : Obligations.PlatformResetKeepsMemory := by
  intro s hmark hline
  rw [step_of_resetLine hmark hline]
  refine ⟨fun hbusy => ⟨_, unitReset_of_idle hbusy, rfl⟩,
    fun hbusy e hdec => ⟨_, unitReset_of_illegal hbusy hdec, rfl⟩,
    fun hbusy i hdec => ⟨fun hi hsize => ⟨_, unitReset_of_oversize hbusy hdec hi hsize, rfl⟩,
      unitReset_goes_on hbusy hdec, fun t h c => (unitReset_writesWithin hdec h).readByte_outside⟩, fun t h => ?_⟩
  rw [unitReset_registers h]
  exact ⟨rfl, rfl, rfl, rfl, status_word_clear, rfl, rfl, rfl, rfl, rfl⟩

end Sys2Proof.Machine
